-- ==== Sys2Proof/Word.lean ====
section
/-! DEFINITION. The word types of HCE: port words, bytes, symbol codes, node indices, port word indices, bit
sequences (00_scope.md rules R5, R6). -/

namespace Sys2Proof

/-- A port word, WORD = 32 bits (R5, R6). -/
abbrev Word := BitVec 32

/-- A byte of BYTEBUF, or a command's ARG field (R6, R60). -/
abbrev Byte := BitVec 8

/-- A symbol code, SYMBITS = 7 bits, 0 to 127 (R5, R7; 90_conflicts.md C4). -/
abbrev Symbol := BitVec 7

/-- A node index, IDXBITS = 8 bits, 0 to 255 (R5). -/
abbrev NodeIndex := BitVec 8

/-- A word index of the port, 11 bits, 0x000 to 0x7FF (20_memory.md rule R40). -/
abbrev WordIndex := BitVec 11

/-- A bit sequence, element 0 first (R6): the document's string of '0' and '1'. `true` is the bit 1. -/
abbrev Bits := List Bool

end Sys2Proof
end

