-- ==== Sys2Proof/Syntax.lean ====
section
/-! DEFINITION. The thirteen commands of HCE, one constructor per row of spec/opcode_table.json (30_encoding.md rule
R61), each with its operand as 30_encoding.md rule R63 reads it. -/

namespace Sys2Proof

/-- A command. The operand's type is its range (R61, R63), so every value is a command of the table. -/
inductive Instr where
  /-- NOP, 40_control.md rule R80. -/
  | nop
  /-- CLRERR, 40_control.md rule R81. -/
  | clrerr
  /-- SRESET, 40_control.md rule R82. -/
  | sreset
  /-- CTGEN r, `r` the root node index, 41_codetable.md rule R90. -/
  | ctgen (r : NodeIndex)
  /-- CTCLR, 41_codetable.md rule R94. -/
  | ctclr
  /-- TCLR, 41_codetable.md rule R95. -/
  | tclr
  /-- BCLR, 42_bitpacker.md rule R100. -/
  | bclr
  /-- PUTCH c, `c` a character code, 42_bitpacker.md rule R101. -/
  | putch (c : Byte)
  /-- PUTSYM s, `s` a symbol code, 42_bitpacker.md rule R102. -/
  | putsym (s : Symbol)
  /-- PACK, 42_bitpacker.md rule R103. -/
  | pack
  /-- YCLR, 43_bitunpacker.md rule R110. -/
  | yclr
  /-- PUTBYTE b, `b` a byte value, 43_bitunpacker.md rule R111. -/
  | putbyte (b : Byte)
  /-- UNPACK, 43_bitunpacker.md rule R112. -/
  | unpack
deriving DecidableEq, Repr

end Sys2Proof
end

