-- ==== Sys2Proof/WellFormed.lean ====
section
/-! DEFINITION. Which 32-bit words are commands at all: the match and mask table of 30_encoding.md rule R61, written
apart from the decoder, so that a statement can hold the two against each other. A term of `Instr` needs no check:
the types of its operands are the ranges of R63. -/

namespace Sys2Proof

/-- One row of R61's table: a word `w` selects the command iff `w AND mask = pattern`. -/
structure Row where
  mnemonic : String
  pattern : Word
  mask : Word
deriving DecidableEq, Repr

/-- The row selects the word (R61). -/
def Row.selects (r : Row) (w : Word) : Bool := w &&& r.mask == r.pattern

/-- The table of R61, in its order. -/
def opcodeTable : List Row :=
  [ ⟨"NOP", 0x00000000, 0xFFFFFFFF⟩, ⟨"CLRERR", 0x01000000, 0xFFFFFFFF⟩, ⟨"SRESET", 0x02000000, 0xFFFFFFFF⟩,
    ⟨"CTGEN", 0x10000000, 0xFFFFFF00⟩, ⟨"CTCLR", 0x11000000, 0xFFFFFFFF⟩, ⟨"TCLR", 0x12000000, 0xFFFFFFFF⟩,
    ⟨"BCLR", 0x20000000, 0xFFFFFFFF⟩, ⟨"PUTCH", 0x21000000, 0xFFFFFF00⟩, ⟨"PUTSYM", 0x22000000, 0xFFFFFF80⟩,
    ⟨"PACK", 0x23000000, 0xFFFFFFFF⟩, ⟨"YCLR", 0x30000000, 0xFFFFFFFF⟩, ⟨"PUTBYTE", 0x31000000, 0xFFFFFF00⟩,
    ⟨"UNPACK", 0x32000000, 0xFFFFFFFF⟩ ]

/-- The word is a well-formed command word: some row of R61 selects it. Every other word is illegal (R64). -/
def wellFormedWord (w : Word) : Bool := opcodeTable.any fun r => r.selects w

/-- The mnemonic of R61's table that a command belongs to. -/
def Instr.mnemonic : Instr → String
  | .nop => "NOP"
  | .clrerr => "CLRERR"
  | .sreset => "SRESET"
  | .ctgen _ => "CTGEN"
  | .ctclr => "CTCLR"
  | .tclr => "TCLR"
  | .bclr => "BCLR"
  | .putch _ => "PUTCH"
  | .putsym _ => "PUTSYM"
  | .pack => "PACK"
  | .yclr => "YCLR"
  | .putbyte _ => "PUTBYTE"
  | .unpack => "UNPACK"

end Sys2Proof
end

