-- ==== Sys2Proof/Decode.lean ====
section
/-! DEFINITION. Decoding and encoding of the command word, format C of 30_encoding.md rule R60, by its fields OPC,
Z and ARG. The decoder is total and rejects by the four names of rule R64. -/

namespace Sys2Proof

/-- OPC, bits 31:24 (R60). -/
def opcField (w : Word) : Byte := w.extractLsb' 24 8

/-- Z, bits 23:8, zero in every command (R60). -/
def zField (w : Word) : BitVec 16 := w.extractLsb' 8 16

/-- ARG, bits 7:0 (R60, R63). -/
def argField (w : Word) : Byte := w.extractLsb' 0 8

/-- Why a word is no command, R64 (a) to (d). All four raise the one fault ILLCMD. -/
inductive Illegal where
  /-- R64 (a): an OPC other than the thirteen listed. -/
  | opcNotAssigned
  /-- R64 (b): a listed OPC with a bit of Z set. -/
  | zNotZero
  /-- R64 (c): a command without operand whose ARG is not 0. -/
  | argNotZero
  /-- R64 (d): PUTSYM with bit 7 set. -/
  | putsymBit7
deriving DecidableEq, Repr

/-- A command with an operand: Z must be 0 (R64 b), then ARG is read by `k`. -/
def decodeArg (w : Word) (k : Byte → Except Illegal Instr) : Except Illegal Instr :=
  if zField w = 0 then k (argField w) else .error .zNotZero

/-- A command without operand: Z and ARG must be 0 (R64 b, c). -/
def decodeBare (w : Word) (i : Instr) : Except Illegal Instr :=
  decodeArg w fun a => if a = 0 then .ok i else .error .argNotZero

/-- PUTSYM's operand: bit 7 must be 0, the symbol is bits 6:0 (R63, R64 d). -/
def decodeSymbol (a : Byte) : Except Illegal Instr :=
  if a.getLsbD 7 then .error .putsymBit7 else .ok (.putsym (a.extractLsb' 0 7))

/-- The decoder (R61, R64). -/
def decode (w : Word) : Except Illegal Instr :=
  match (opcField w).toNat with
  | 0x00 => decodeBare w .nop
  | 0x01 => decodeBare w .clrerr
  | 0x02 => decodeBare w .sreset
  | 0x10 => decodeArg w fun a => .ok (.ctgen a)
  | 0x11 => decodeBare w .ctclr
  | 0x12 => decodeBare w .tclr
  | 0x20 => decodeBare w .bclr
  | 0x21 => decodeArg w fun a => .ok (.putch a)
  | 0x22 => decodeArg w decodeSymbol
  | 0x23 => decodeBare w .pack
  | 0x30 => decodeBare w .yclr
  | 0x31 => decodeArg w fun a => .ok (.putbyte a)
  | 0x32 => decodeBare w .unpack
  | _ => .error .opcNotAssigned

/-- The word with the given OPC and ARG and Z = 0 (R60). -/
def commandWord (opc arg : Byte) : Word := opc ++ (0#16 ++ arg)

/-- The encoder: the one word that selects the command (R61). -/
def encode : Instr → Word
  | .nop => commandWord 0x00 0
  | .clrerr => commandWord 0x01 0
  | .sreset => commandWord 0x02 0
  | .ctgen r => commandWord 0x10 r
  | .ctclr => commandWord 0x11 0
  | .tclr => commandWord 0x12 0
  | .bclr => commandWord 0x20 0
  | .putch c => commandWord 0x21 c
  | .putsym s => commandWord 0x22 (s.setWidth 8)
  | .pack => commandWord 0x23 0
  | .yclr => commandWord 0x30 0
  | .putbyte b => commandWord 0x31 b
  | .unpack => commandWord 0x32 0

/-- What the decoder reads from a table word of `nbits` bits: one 32-bit word, the bits above `nbits` zero. -/
def decodeTableWord (nbits w : Nat) : Option Instr :=
  match decode (BitVec.ofNat 32 (w % 2 ^ nbits)) with
  | .ok i => some i
  | .error _ => none

end Sys2Proof
end

