-- ==== Sys2Proof/Config.lean ====
section
/-! DEFINITION. The parameters of the block that are fixed numbers (00_scope.md rule R5), and the range of its one
open parameter BITCAP. -/

namespace Sys2Proof.Config

/-- NSYM: symbol codes are 0 to 127 (R5). -/
def nsym : Nat := 128

/-- NNODE: node indices are 0 to 255 (R5). -/
def nnode : Nat := 256

/-- MAXLEN: the greatest depth of a leaf, hence the greatest code length (R5). -/
def maxLen : Nat := 127

/-- The least admitted BITCAP (R5). -/
def bitcapMin : Nat := 8

/-- The greatest admitted BITCAP (R5). -/
def bitcapMax : Nat := 2 ^ 31

/-- DESIGN CHOICE (log 1), unsafe: BITCAP is OPEN in R5; the machine that `State.reset` names has the value that the
vectors of 95_test_vectors.md assume. BITCAP is a field of State, and no statement rests on this number. -/
def bitcapOfReset : Nat := 4096

end Sys2Proof.Config
end

