-- ==== Sys2Proof/Machine/State.lean ====
section
/-! DEFINITION. The state of HCE as plain data (10_state.md rule R10), the host's transactions as the model holds
them, the reasons a step may stop, and the state after reset (10_state.md rule R35). -/

namespace Sys2Proof.Machine

/-- The cause codes of STATUS.ERR, 60_exceptions.md rule R150, in the order of their numbers 0 to 10. -/
inductive Cause where
  /-- 0: no fault stands. -/
  | noFault
  /-- 1: PUTCH of a character that is neither '0' nor '1'; PACK of a poisoned bit string. -/
  | invalidBitCharacter
  /-- 2: never raised by the block; the environment's (R157). -/
  | ioFailure
  /-- 3: never raised by the block; the environment's decode walk (R157). -/
  | truncatedStream
  /-- 4: the word written to CMD is no command. -/
  | illcmd
  /-- 5: CTGEN reached a word with V = 0, or a node without symbol that lacks a child. -/
  | badtree
  /-- 6: CTGEN reached a node without symbol and with two children at depth 127. -/
  | depth
  /-- 7: CTGEN reached a leaf whose symbol is already in the table. -/
  | dupsym
  /-- 8: PUTSYM of a symbol whose entry is unset. -/
  | nocode
  /-- 9: the bits do not fit in BITCAP. -/
  | bitovf
  /-- 10: the byte does not fit in BYTECAP. -/
  | byteovf
deriving DecidableEq, Repr

/-- A port transaction of the host (20_memory.md rule R40). -/
inductive Txn where
  /-- `PortRead(wa)`. -/
  | read (wa : WordIndex)
  /-- `PortWrite(wa, v)`. -/
  | write (wa : WordIndex) (v : Word)
deriving DecidableEq, Repr

/-- The reasons a step may stop with a fault: none. A fault of the block is a cause code in STATUS and the machine
goes on (60_exceptions.md rule R152), there is no bus error (20_memory.md rule R44) and no halt
(70_reset_and_hazards.md rule R186). Nobody raises this type; safe. -/
inductive Fault where
deriving DecidableEq, Repr

/-- The reasons a step may refuse. -/
inductive Refusal where
  /-- Raised by an arm of `exec` whose command has no meaning yet; no arm raises it in this model. Safe: it stops. -/
  | notModelled (mnemonic : String)
deriving DecidableEq, Repr

/-- The node memory TREE: (index, word) cells in one canonical form, see `Memory.wf`. An unlisted index reads as 0,
the reset contents (R35). The cell is a 32-bit word, the smallest unit that exists at the port (20_memory.md rules
R40, R47; log 4). -/
abbrev Memory := List (Nat × Word)

/-- The code table CT: the symbols whose entry is VALID, each with its CODE (10_state.md rule R30). LEN is the
length of CODE, and an unlisted symbol is unset (log 6). -/
abbrev CodeTable := List (Nat × Bits)

/-- The whole state (R10), flat. BITLEN and BYTELEN are the lengths of the buffers (R17, R19; log 5). -/
structure State where
  /-- BITCAP, the parameter of the instance (00_scope.md rule R5; log 1). No step changes it. -/
  bitcap : Nat
  /-- STATUS.ERR, bits 7:0 (R14). -/
  err : Cause
  /-- STATUS.CTV, bit 8 (R14). -/
  ctv : Bool
  /-- STATUS.ZLEN, bit 9 (R14). -/
  zlen : Bool
  /-- STATUS.NOMARK, bit 10 (R14). -/
  nomark : Bool
  /-- STATUS.BPOISON, bit 11 (R14). -/
  bpoison : Bool
  /-- ERRCMD (R15). -/
  errcmd : Word
  /-- ERRINFO (R16). -/
  errinfo : Word
  /-- BITIDX (R18). -/
  bitidx : Word
  /-- BYTEIDX (R20). -/
  byteidx : Word
  /-- PADLEN (R23). -/
  padlen : Word
  /-- TREE (R26). -/
  tree : Memory
  /-- CT (R29, R30). -/
  ct : CodeTable
  /-- BITBUF (R32). -/
  bitbuf : Bits
  /-- BYTEBUF (R33). -/
  bytebuf : List Byte
  /-- MODEL, not the spec's: the transactions the host has still to issue, next one first (log 2). -/
  pending : List Txn
  /-- MODEL, not the spec's: the words the host's PortReads returned, oldest first (log 2). -/
  replies : List Word
deriving DecidableEq, Repr

/-- The state after reset of an instance with the given BITCAP: every piece of state at the value of R35. -/
def State.resetWith (bitcap : Nat) : State where
  bitcap := bitcap
  err := .noFault
  ctv := false
  zlen := false
  nomark := false
  bpoison := false
  errcmd := 0
  errinfo := 0
  bitidx := 0
  byteidx := 0
  padlen := 0
  tree := []
  ct := []
  bitbuf := []
  bytebuf := []
  pending := []
  replies := []

/-- The machine right after reset (R35, R180). DESIGN CHOICE (log 1, log 2): its BITCAP, and no transaction pending. -/
def State.reset : State := State.resetWith Config.bitcapOfReset

end Sys2Proof.Machine
end

