-- ==== Sys2Proof/Machine/Flags.lean ====
section
/-! DEFINITION. STATUS: the numbers of the cause codes (60_exceptions.md rule R150) and the register's layout
(10_state.md rule R14). The block has no arithmetic flags (10_state.md rule R25). -/

namespace Sys2Proof.Machine

/-- The number of a cause in STATUS.ERR (R150). -/
def causeCode : Cause → Byte
  | .noFault => 0
  | .invalidBitCharacter => 1
  | .ioFailure => 2
  | .truncatedStream => 3
  | .illcmd => 4
  | .badtree => 5
  | .depth => 6
  | .dupsym => 7
  | .nocode => 8
  | .bitovf => 9
  | .byteovf => 10

/-- STATUS as the host reads it: BPOISON 11, NOMARK 10, ZLEN 9, CTV 8, ERR 7:0, the rest 0 (R14). -/
def statusWord (s : State) : Word :=
  0#20 ++ (BitVec.ofBool s.bpoison ++ (BitVec.ofBool s.nomark ++ (BitVec.ofBool s.zlen ++
    (BitVec.ofBool s.ctv ++ causeCode s.err))))

end Sys2Proof.Machine
end

