-- ==== Sys2Proof/Machine/Operands.lean ====
section
/-! DEFINITION. The forms the commands read and write: bit sequences and bytes (00_scope.md rule R6, 20_memory.md
rule R45), the fields of a node word (30_encoding.md rule R66), the port image of a code (30_encoding.md rule R67),
the padding marker (30_encoding.md rule R69). -/

namespace Sys2Proof.Machine

/-! ### Bit sequences, R6 -/

/-- The number whose binary digits are `bs`, most significant first. -/
def natOfBits : Bits → Nat
  | [] => 0
  | b :: rest => b.toNat * 2 ^ rest.length + natOfBits rest

/-- `zeros(n)` (R6). -/
def zeros (n : Nat) : Bits := List.replicate n false

/-- `msb_byte(s)`: element `k` of the eight bits becomes bit `7 - k` (R6, R45). -/
def msbByte (bs : Bits) : Byte := BitVec.ofNat 8 (natOfBits bs)

/-- `byte_msb(b)`: element `k` is bit `7 - k` of the byte (R6, R45). -/
def byteMsb (b : Byte) : Bits := (List.range 8).map fun k => b.getLsbD (7 - k)

/-- `n` bits of a sequence from position `start` on, 0 where the sequence has no element. -/
def bitsFrom (bs : Bits) (start n : Nat) : Bits := (List.range n).map fun k => bs.getD (start + k) false

/-- Consecutive 8-bit chunks, each packed most significant bit first; a rest shorter than 8 bits packs to nothing
(R69 packs only lengths that are multiples of 8). -/
def packBytes : Bits → List Byte
  | a :: b :: c :: d :: e :: f :: g :: h :: rest => msbByte [a, b, c, d, e, f, g, h] :: packBytes rest
  | _ => []

/-- The global bit string of a byte sequence: each byte most significant bit first, in order (R45, R112). -/
def unpackBytes (bytes : List Byte) : Bits := bytes.flatMap byteMsb

/-! ### The padding marker, R69, and the scan for it, R112 -/

/-- `padding = 8 - (L mod 8)` (R69, R103). -/
def paddingOf (len : Nat) : Nat := 8 - len % 8

/-- `zeros(padding - 1) ++ "1" ++ P` (R69, R103). -/
def withMarker (payload : Bits) : Bits := zeros (paddingOf payload.length - 1) ++ true :: payload

/-- How many bits UNPACK discards from the front of the global bit string, and its NOMARK verdict (R112). -/
def markerScan (g : Bits) : Nat × Bool :=
  if g.isEmpty then (0, true)
  else
    match (g.take 8).findIdx? id with
    | some p => (p + 1, false)
    | none => (8, true)

/-! ### Node words, R66 -/

/-- V, bit 31: a node is here. -/
def nodePresent (w : Word) : Bool := w.getLsbD 31

/-- HR, bit 26: the right child is present. -/
def hasRight (w : Word) : Bool := w.getLsbD 26

/-- HL, bit 25: the left child is present. -/
def hasLeft (w : Word) : Bool := w.getLsbD 25

/-- HS, bit 24: the symbol is present. -/
def hasSymbol (w : Word) : Bool := w.getLsbD 24

/-- SYM, bits 22:16. -/
def symbolField (w : Word) : Symbol := w.extractLsb' 16 7

/-- RIGHT, bits 15:8. -/
def rightField (w : Word) : NodeIndex := w.extractLsb' 8 8

/-- LEFT, bits 7:0. -/
def leftField (w : Word) : NodeIndex := w.extractLsb' 0 8

/-- The bits of a node word that are stored: all but the reserved bits 30:27 and 23 (R26, R66). -/
def nodeMask : Word := 0x877FFFFF

/-- The canonical image of a leaf, `0x81000000 + s * 0x10000` (R66). -/
def leafWord (s : Symbol) : Word := 0x81#8 ++ (s.setWidth 8 ++ 0#16)

/-- The canonical image of an internal node, `0x86000000 + r * 0x100 + l` (R66). -/
def internalWord (l r : NodeIndex) : Word := 0x86#8 ++ (0#8 ++ (r ++ l))

/-! ### The port image of a code table entry, R67 -/

/-- `B`: the code left-justified in 128 bits, `B[127 - i] = CODE[i]` (R67). -/
def codeVector (code : Bits) : BitVec 128 := BitVec.ofNat 128 (natOfBits (bitsFrom code 0 128))

/-- Word `j` of an entry's image; an unset entry reads as zeros (R67). -/
def entryWord (entry : Option Bits) (j : Nat) : Word :=
  match entry with
  | none => 0
  | some code =>
    match j with
    | 0 => 1#1 ++ (0#24 ++ BitVec.ofNat 7 code.length)
    | 1 => (codeVector code).extractLsb' 96 32
    | 2 => (codeVector code).extractLsb' 64 32
    | 3 => (codeVector code).extractLsb' 32 32
    | 4 => (codeVector code).extractLsb' 0 32
    | _ => 0

end Sys2Proof.Machine
end

