-- ==== Sys2Proof/Machine/Ops.lean ====
section
/-! DEFINITION. The named operations over the state: cells, TREE, CT, the buffers, taking a fault (60_exceptions.md
rule R152) and the two returns from it (60_exceptions.md rule R155), and the rule that a command is dropped while a
fault stands (30_encoding.md rule R62). -/

namespace Sys2Proof.Machine

/-! ### Cells: a list of (index, value) pairs, indices strictly rising -/

/-- The value listed at an index. -/
def cellsFind {α : Type} : List (Nat × α) → Nat → Option α
  | [], _ => none
  | (k, v) :: rest, a => if k = a then some v else cellsFind rest a

/-- List a value at an index, in its place. -/
def cellsPut {α : Type} : List (Nat × α) → Nat → α → List (Nat × α)
  | [], a, v => [(a, v)]
  | (k, x) :: rest, a, v =>
    if a < k then (a, v) :: (k, x) :: rest
    else if a = k then (a, v) :: rest
    else (k, x) :: cellsPut rest a v

/-- List nothing at an index. -/
def cellsDrop {α : Type} (cells : List (Nat × α)) (a : Nat) : List (Nat × α) := cells.filter fun c => c.1 ≠ a

/-- The indices rise strictly. -/
abbrev cellsRising {α : Type} (cells : List (Nat × α)) : Prop := (cells.map Prod.fst).Pairwise (· < ·)

/-! ### TREE, 10_state.md rule R26 -/

/-- `TREE[i]`; an unlisted index reads as 0 (R35). -/
def Memory.read (m : Memory) (i : Nat) : Word := (cellsFind m i).getD 0

/-- `TREE[i] <- v AND 0x877FFFFF` (R26, R42 d); the word 0 is what an unlisted index reads as, so it is not listed. -/
def Memory.write (m : Memory) (i : Nat) (v : Word) : Memory :=
  if v &&& nodeMask = 0 then cellsDrop m i else cellsPut m i (v &&& nodeMask)

/-- The canonical form of TREE: indices strictly rising and below 256, no listed word 0, no reserved bit set. -/
abbrev Memory.wf (m : Memory) : Prop :=
  cellsRising m ∧ ∀ c ∈ m, c.1 < Config.nnode ∧ c.2 ≠ 0 ∧ c.2 &&& nodeMask = c.2

/-! ### CT, 10_state.md rules R29, R30 -/

/-- The CODE of `CT[s]` where the entry is VALID. -/
def CodeTable.find (t : CodeTable) (s : Nat) : Option Bits := cellsFind t s

/-- `CT[s] <- (VALID = 1, LEN = len(code), CODE = code)`. -/
def CodeTable.record (t : CodeTable) (s : Nat) (code : Bits) : CodeTable := cellsPut t s code

/-- The canonical form of CT: symbols strictly rising and below 128, no code longer than MAXLEN. -/
abbrev CodeTable.wf (t : CodeTable) : Prop :=
  cellsRising t ∧ ∀ c ∈ t, c.1 < Config.nsym ∧ c.2.length ≤ Config.maxLen

/-- CTCOUNT: how many `s` in 0..127 have `CT[s].VALID = 1` (10_state.md rule R21). -/
def CodeTable.count (t : CodeTable) : Nat := (List.range Config.nsym).countP fun s => (t.find s).isSome

/-- Every entry unset, CTV and ZLEN 0: what CTCLR does, and CTGEN before its walk and at its fault (R90, R94). -/
def clearTable (s : State) : State := { s with ct := [], ctv := false, zlen := false }

/-! ### The buffers -/

/-- BITLEN (10_state.md rule R17). -/
def State.bitlen (s : State) : Nat := s.bitbuf.length

/-- BYTELEN (10_state.md rule R19). -/
def State.bytelen (s : State) : Nat := s.bytebuf.length

/-- BYTECAP = floor(BITCAP / 8) + 1 (00_scope.md rule R5). -/
def State.bytecap (s : State) : Nat := s.bitcap / 8 + 1

/-- `BITBUF <- BITBUF ++ bits`. -/
def appendBits (bits : Bits) (s : State) : State := { s with bitbuf := s.bitbuf ++ bits }

/-- `BYTEBUF <- BYTEBUF ++ [b]`. -/
def appendByte (b : Byte) (s : State) : State := { s with bytebuf := s.bytebuf ++ [b] }

/-! ### Faults, 60_exceptions.md -/

/-- Fault entry `raise Fault(code, info)` during command word `w` (R152): a next state, control goes nowhere. -/
def raise (w : Word) (c : Cause) (info : Word) (s : State) : State := { s with err := c, errcmd := w, errinfo := info }

/-- Return from a fault by acknowledging it: ERR, ERRCMD and ERRINFO become 0, nothing else changes (R155, R81). -/
def clearFault (s : State) : State := { s with err := .noFault, errcmd := 0, errinfo := 0 }

/-- Every piece of the block's state at its reset value (R35): the effect of a hardware reset (R180) and of SRESET
(R82). The instance's BITCAP and the host's transactions are not the block's state. -/
def resetBlock (s : State) : State :=
  { State.resetWith s.bitcap with pending := s.pending, replies := s.replies }

/-- A command's rule `f`, executed only while no fault stands; while one stands the command is dropped and changes
no state at all (R62, R156). -/
def unlessFaulted (f : State → State) (s : State) : Host.Outcome State Fault Refusal :=
  .next (if s.err = .noFault then f s else s)

/-! ### The host's transactions (log 2) -/

/-- The word a PortRead returned reaches the host. -/
def reply (v : Word) (s : State) : State := { s with replies := s.replies ++ [v] }

/-- The host issues the first pending transaction. -/
def issue (rest : List Txn) (s : State) : State := { s with pending := rest }

end Sys2Proof.Machine
end

