-- ==== Sys2Proof/Machine/BitPacker.lean ====
section
/-! DEFINITION. The bit packer commands BCLR, PUTCH, PUTSYM and PACK (42_bitpacker.md). -/

namespace Sys2Proof.Machine

/-- BCLR, R100: a new bit string, not poisoned. -/
def execBclr (s : State) : Host.Outcome State Fault Refusal :=
  unlessFaulted (fun s => { s with bitbuf := [], bpoison := false }) s

/-- The code of the character '0'. PRESUMED (log 17): ASCII, as R101 and 93_implementation_defined.md K1 say. -/
def charZero : Byte := 0x30

/-- The code of the character '1'. PRESUMED (log 17): ASCII, as R101 and 93_implementation_defined.md K1 say. -/
def charOne : Byte := 0x31

/-- The rule of PUTCH c (R101): the character test comes before the capacity test. -/
def putChar (c : Byte) (s : State) : State :=
  if c ≠ charZero ∧ c ≠ charOne then
    raise (encode (.putch c)) .invalidBitCharacter (c.setWidth 32) { s with bpoison := true }
  else if s.bitlen = s.bitcap then
    raise (encode (.putch c)) .bitovf (BitVec.ofNat 32 s.bitlen) s
  else appendBits [c == charOne] s

/-- PUTCH c, R101. -/
def execPutch (c : Byte) (s : State) : Host.Outcome State Fault Refusal := unlessFaulted (putChar c) s

/-- The rule of PUTSYM s (R102): the whole code or nothing. -/
def putSymbol (sym : Symbol) (s : State) : State :=
  match s.ct.find sym.toNat with
  | none => raise (encode (.putsym sym)) .nocode (sym.setWidth 32) s
  | some code =>
    if s.bitlen + code.length > s.bitcap then
      raise (encode (.putsym sym)) .bitovf (BitVec.ofNat 32 s.bitlen) s
    else appendBits code s

/-- PUTSYM s, R102. -/
def execPutsym (sym : Symbol) (s : State) : Host.Outcome State Fault Refusal := unlessFaulted (putSymbol sym) s

/-- The rule of PACK (R103): the wire format of R69 replaces BYTEBUF. -/
def packBits (s : State) : State :=
  if s.bpoison then raise (encode .pack) .invalidBitCharacter 0x100 s
  else
    { s with
      bytebuf := packBytes (withMarker s.bitbuf)
      padlen := BitVec.ofNat 32 (paddingOf s.bitlen) }

/-- PACK, R103. -/
def execPack (s : State) : Host.Outcome State Fault Refusal := unlessFaulted packBits s

end Sys2Proof.Machine
end

