-- ==== Sys2Proof/Machine/BitUnpacker.lean ====
section
/-! DEFINITION. The bit unpacker commands YCLR, PUTBYTE and UNPACK (43_bitunpacker.md). -/

namespace Sys2Proof.Machine

/-- YCLR, R110: a new byte sequence. -/
def execYclr (s : State) : Host.Outcome State Fault Refusal := unlessFaulted (fun s => { s with bytebuf := [] }) s

/-- The rule of PUTBYTE b (R111). -/
def putByte (b : Byte) (s : State) : State :=
  if s.bytelen = s.bytecap then raise (encode (.putbyte b)) .byteovf (BitVec.ofNat 32 s.bytelen) s
  else appendByte b s

/-- PUTBYTE b, R111. -/
def execPutbyte (b : Byte) (s : State) : Host.Outcome State Fault Refusal := unlessFaulted (putByte b) s

/-- The rule of UNPACK (R112): discard through the marker, deliver the payload. -/
def unpackBits (s : State) : State :=
  let g := unpackBytes s.bytebuf
  let (discard, nomark) := markerScan g
  let paylen := 8 * s.bytelen - discard
  if paylen > s.bitcap then raise (encode .unpack) .bitovf (BitVec.ofNat 32 paylen) s
  else
    { s with
      bitbuf := g.drop discard
      bpoison := false
      nomark := nomark
      padlen := BitVec.ofNat 32 discard }

/-- UNPACK, R112. -/
def execUnpack (s : State) : Host.Outcome State Fault Refusal := unlessFaulted unpackBits s

end Sys2Proof.Machine
end

