-- ==== Sys2Proof/Machine/CodeTable.lean ====
section
/-! DEFINITION. The code table commands CTGEN, CTCLR and TCLR (41_codetable.md). -/

namespace Sys2Proof.Machine

/-- What `Walk` does at one node (R91), before it descends. -/
inductive Visit where
  /-- A test failed. -/
  | stop (c : Cause)
  /-- A node with a present symbol: the path is recorded in the table. -/
  | leaf (t : CodeTable)
  /-- An internal node: descend into the left child, then into the right one. -/
  | descend (l r : NodeIndex)
deriving DecidableEq, Repr

/-- The tests of R91 at the node word `w`, in the order written; `rem` is 127 minus the depth. -/
def visit (w : Word) (rem : Nat) (path : Bits) (t : CodeTable) : Visit :=
  if !nodePresent w then .stop .badtree
  else if hasSymbol w then
    if (t.find (symbolField w).toNat).isSome then .stop .dupsym
    else .leaf (t.record (symbolField w).toNat path)
  else if !hasLeft w || !hasRight w then .stop .badtree
  else if rem = 0 then .stop .depth
  else .descend (leftField w) (rightField w)

/-- ERRINFO of a CTGEN fault, `depth * 256 + node` (60_exceptions.md rule R151). -/
def nodeInfo (rem : Nat) (n : NodeIndex) : Word := BitVec.ofNat 32 ((Config.maxLen - rem) * 256 + n.toNat)

/-- `Walk(n, d, path)` of R91, with `rem = 127 - d`: the table with the leaves below `n` recorded, or the first fault
in traversal order with its ERRINFO. A cycle ends at `rem = 0` by the DEPTH test (R92). -/
def walk (tree : Memory) (rem : Nat) (n : NodeIndex) (path : Bits) (t : CodeTable) :
    Except (Cause × Word) CodeTable :=
  match visit (tree.read n.toNat) rem path t with
  | .stop c => .error (c, nodeInfo rem n)
  | .leaf t' => .ok t'
  | .descend l r =>
    match rem with
    | 0 => .error (.depth, nodeInfo 0 n)
    | rem' + 1 =>
      match walk tree rem' l (path ++ [false]) t with
      | .error f => .error f
      | .ok t' => walk tree rem' r (path ++ [true]) t'
termination_by structural rem

/-- The rule of CTGEN r (R90): the table is rebuilt from nothing; a fault leaves it empty. -/
def deriveTable (r : NodeIndex) (s : State) : State :=
  match walk s.tree Config.maxLen r [] [] with
  | .ok t => { s with ct := t, ctv := true, zlen := hasSymbol (s.tree.read r.toNat) }
  | .error (c, info) => raise (encode (.ctgen r)) c info (clearTable s)

/-- CTGEN r, R90 to R93. -/
def execCtgen (r : NodeIndex) (s : State) : Host.Outcome State Fault Refusal := unlessFaulted (deriveTable r) s

/-- CTCLR, R94: every entry unset, CTV and ZLEN 0. -/
def execCtclr (s : State) : Host.Outcome State Fault Refusal := unlessFaulted clearTable s

/-- TCLR, R95: every TREE word 0; the table stays. -/
def execTclr (s : State) : Host.Outcome State Fault Refusal := unlessFaulted (fun s => { s with tree := [] }) s

end Sys2Proof.Machine
end

