-- ==== Sys2Proof/Machine/Control.lean ====
section
/-! DEFINITION. The control commands NOP, CLRERR and SRESET (40_control.md). -/

namespace Sys2Proof.Machine

/-- NOP, R80: nothing; dropped while a fault stands, which is the same. -/
def execNop (s : State) : Host.Outcome State Fault Refusal := unlessFaulted id s

/-- CLRERR, R81: acknowledges the fault; executed whether or not one stands. -/
def execClrerr (s : State) : Host.Outcome State Fault Refusal := .next (clearFault s)

/-- SRESET, R82: the state of a hardware reset; executed whether or not a fault stands. -/
def execSreset (s : State) : Host.Outcome State Fault Refusal := .next (resetBlock s)

end Sys2Proof.Machine
end

