-- ==== Sys2Proof/Machine/Dispatch.lean ====
section
/-! DEFINITION. One arm per command: the meaning of a command that the host writes to CMD. -/

namespace Sys2Proof.Machine

def exec (i : Instr) (s : State) : Host.Outcome State Fault Refusal :=
  match i with
  | .nop => Sys2Proof.Machine.execNop s
  | .clrerr => Sys2Proof.Machine.execClrerr s
  | .sreset => Sys2Proof.Machine.execSreset s
  | .ctgen r => Sys2Proof.Machine.execCtgen r s
  | .ctclr => Sys2Proof.Machine.execCtclr s
  | .tclr => Sys2Proof.Machine.execTclr s
  | .bclr => Sys2Proof.Machine.execBclr s
  | .putch c => Sys2Proof.Machine.execPutch c s
  | .putsym sym => Sys2Proof.Machine.execPutsym sym s
  | .pack => Sys2Proof.Machine.execPack s
  | .yclr => Sys2Proof.Machine.execYclr s
  | .putbyte b => Sys2Proof.Machine.execPutbyte b s
  | .unpack => Sys2Proof.Machine.execUnpack s

end Sys2Proof.Machine
end

