-- ==== Sys2Proof/Machine/Port.lean ====
section
/-! DEFINITION. The port: the address map and the value of every read (20_memory.md rules R41, R43, R44), what a
write does (20_memory.md rule R42), the execution of a command word (30_encoding.md rule R62), and one transaction
of the host. -/

namespace Sys2Proof.Machine

/-- BITDATA: 32 bits of BITBUF from position BITIDX on, the first in bit 31 (10_state.md rule R18). The sum
BITIDX + k is the natural number, never reduced (R12, R38). -/
def bitdataWord (s : State) : Word := BitVec.ofNat 32 (natOfBits (bitsFrom s.bitbuf s.bitidx.toNat 32))

/-- BYTEDATA: the byte of BYTEBUF at position BYTEIDX, 0 beyond BYTELEN (10_state.md rule R20). -/
def bytedataWord (s : State) : Word := (s.bytebuf.getD s.byteidx.toNat 0).setWidth 32

/-- ID: block "HCE", version 1 (10_state.md rule R22). -/
def idWord : Word := 0x48434501

/-- The registers at word indices 0x000 to 0x00D, and 0 at the reserved ones above (R43, R44). -/
def readRegister (n : Nat) (s : State) : Word :=
  match n with
  | 0x001 => statusWord s
  | 0x002 => s.errcmd
  | 0x003 => s.errinfo
  | 0x004 => BitVec.ofNat 32 s.bitlen
  | 0x005 => s.bitidx
  | 0x006 => bitdataWord s
  | 0x007 => BitVec.ofNat 32 s.bytelen
  | 0x008 => s.byteidx
  | 0x009 => bytedataWord s
  | 0x00A => BitVec.ofNat 32 s.ct.count
  | 0x00B => s.padlen
  | 0x00C => BitVec.ofNat 32 s.bitcap
  | 0x00D => idWord
  | _ => 0

/-- `PortRead(wa)`: a function of the state and the index alone (R41), by the map of R43. CMD reads 0 (R13). -/
def portRead (wa : WordIndex) (s : State) : Word :=
  let n := wa.toNat
  if n < 0x100 then readRegister n s
  else if n < 0x200 then s.tree.read (n - 0x100)
  else if n < 0x400 then 0
  else entryWord (s.ct.find ((n - 0x400) / 8)) ((n - 0x400) % 8)

/-- The effect of an illegal command word: ILLCMD with ERRINFO 0, dropped while a fault stands (R62, R64). -/
def execIllegal (w : Word) (s : State) : Host.Outcome State Fault Refusal := unlessFaulted (raise w .illcmd 0) s

/-- Executing the command word `w` (R62). Every meaning drops its command while a fault stands, but for those of
CLRERR and SRESET, so decoding first gives what R62's order gives (log 8). -/
def execWord (w : Word) (s : State) : Host.Outcome State Fault Refusal :=
  match decode w with
  | .ok i => exec i s
  | .error _ => execIllegal w s

/-- `PortWrite(wa, v)` (R42): (a) a command, (b) BITIDX, (c) BYTEIDX, (d) TREE, (e) anything else is ignored. -/
def portWrite (wa : WordIndex) (v : Word) (s : State) : Host.Outcome State Fault Refusal :=
  let n := wa.toNat
  if n = 0x000 then execWord v s
  else if n = 0x005 then .next { s with bitidx := v }
  else if n = 0x008 then .next { s with byteidx := v }
  else if 0x100 ≤ n ∧ n ≤ 0x1FF then .next { s with tree := s.tree.write (n - 0x100) v }
  else .next s

/-- One port transaction of the host (R40). -/
def transact (t : Txn) (s : State) : Host.Outcome State Fault Refusal :=
  match t with
  | .read wa => .next (reply (portRead wa s) s)
  | .write wa v => portWrite wa v s

/-- The host issues its next transaction. With none pending the block holds its state: it has no step of its own
(00_scope.md rule R9.1; log 3). -/
def hostStep (s : State) : Host.Outcome State Fault Refusal :=
  match s.pending with
  | [] => .next s
  | t :: rest => transact t (issue rest s)

/-- The host's next transaction becomes the write of command word `v` to CMD, before those already pending. -/
def placeCommand (v : Word) (s : State) : State := { s with pending := .write 0 v :: s.pending }

end Sys2Proof.Machine
end

