-- ==== Sys2Proof/Machine/Step.lean ====
section
/-! DEFINITION. One step: one port transaction of the host (00_scope.md rule R9, 20_memory.md rule R40). -/

namespace Sys2Proof.Machine

/-- One step of the machine. -/
def step (s : State) : Host.Outcome State Fault Refusal := hostStep s

/-- `s` with the command of a table row placed where the step takes its next one: the host's next transaction is
`PortWrite(0x000, w)` (log 2). -/
def State.withFetchWord (s : State) (nbits w : Nat) : State := placeCommand (BitVec.ofNat 32 (w % 2 ^ nbits)) s

end Sys2Proof.Machine
end

