-- ==== Sys2Proof/Machine/Assembler.lean ====
section
/-! DEFINITION. The textual form of a command stream: command statements (30_encoding.md rule R70) and
pseudo-statements (30_encoding.md rule R71), each assembled to the port transactions it stands for. The words are
computed as R70 says, `OPC * 2^24 + operand`, apart from the encoder of Decode.lean. -/

namespace Sys2Proof.Machine

/-- A statement of R70 or R71, its numbers not yet checked against their ranges. -/
inductive Stmt where
  /-- A command: its mnemonic and its operand, if one is written (R70). -/
  | command (mnemonic : List Char) (operand : Option Nat)
  /-- `WR wa, v` (R71). -/
  | wr (wa v : Nat)
  /-- `RD wa`, with the expected value written after `=>` (R71); the expectation is a note to the reader. -/
  | rd (wa : Nat) (expected : Option Nat)
  /-- `NODE i, LEAF s` (R71). -/
  | nodeLeaf (i s : Nat)
  /-- `NODE i, INT l, r` (R71). -/
  | nodeInt (i l r : Nat)
  /-- `PUTSTR "..."` (R71). -/
  | putstr (codes : List Nat)
  /-- `PUTSYMS "..."` (R71). -/
  | putsyms (codes : List Nat)
  /-- `PUTBYTES b0, b1, ...` (R71). -/
  | putbytes (bytes : List Nat)
deriving DecidableEq, Repr

/-! ### Expansion -/

/-- OPC and the bound of the operand, where the command takes one (R61). -/
def commandRow (mnemonic : List Char) : Option (Nat × Option Nat) :=
  if mnemonic = "NOP".toList then some (0x00, none)
  else if mnemonic = "CLRERR".toList then some (0x01, none)
  else if mnemonic = "SRESET".toList then some (0x02, none)
  else if mnemonic = "CTGEN".toList then some (0x10, some 256)
  else if mnemonic = "CTCLR".toList then some (0x11, none)
  else if mnemonic = "TCLR".toList then some (0x12, none)
  else if mnemonic = "BCLR".toList then some (0x20, none)
  else if mnemonic = "PUTCH".toList then some (0x21, some 256)
  else if mnemonic = "PUTSYM".toList then some (0x22, some 128)
  else if mnemonic = "PACK".toList then some (0x23, none)
  else if mnemonic = "YCLR".toList then some (0x30, none)
  else if mnemonic = "PUTBYTE".toList then some (0x31, some 256)
  else if mnemonic = "UNPACK".toList then some (0x32, none)
  else none

/-- `PortWrite(wa, v)`, none where a number is out of its range: `wa` has 11 bits and `v` 32 (R40). -/
def checkedWrite (wa v : Nat) : Option Txn :=
  if wa < 2048 ∧ v < 2 ^ 32 then some (.write (BitVec.ofNat 11 wa) (BitVec.ofNat 32 v)) else none

/-- A command statement's write to CMD; an operand outside the range, missing or superfluous is an assembly error. -/
def commandTxn (mnemonic : List Char) (operand : Option Nat) : Option Txn :=
  match commandRow mnemonic, operand with
  | some (opc, none), none => checkedWrite 0 (opc * 2 ^ 24)
  | some (opc, some bound), some n => if n < bound then checkedWrite 0 (opc * 2 ^ 24 + n) else none
  | _, _ => none

/-- The transactions a statement stands for; none is an assembly error (R70, R71). DESIGN CHOICE (log 18): R70 makes an
operand of a command outside its range an assembly error, and R71 says nothing of the numbers of `WR`, `RD` and `NODE`;
one that its field cannot hold is an assembly error here too. -/
def expandStmt : Stmt → Option (List Txn)
  | .command m o => (commandTxn m o).map fun t => [t]
  | .wr wa v => (checkedWrite wa v).map fun t => [t]
  | .rd wa _ => if wa < 2048 then some [.read (BitVec.ofNat 11 wa)] else none
  | .nodeLeaf i s =>
    if i < 256 ∧ s < 128 then (checkedWrite (0x100 + i) (0x81000000 + s * 0x10000)).map fun t => [t] else none
  | .nodeInt i l r =>
    if i < 256 ∧ l < 256 ∧ r < 256 then
      (checkedWrite (0x100 + i) (0x86000000 + r * 0x100 + l)).map fun t => [t]
    else none
  | .putstr cs => cs.mapM fun c => commandTxn "PUTCH".toList (some c)
  | .putsyms cs => cs.mapM fun c => commandTxn "PUTSYM".toList (some c)
  | .putbytes bs => bs.mapM fun b => commandTxn "PUTBYTE".toList (some b)

/-! ### Lines of text -/

/-- The tokens of a line. A character literal is the number of its code (R70). -/
inductive Token where
  | name (cs : List Char)
  | num (n : Nat)
  | text (codes : List Nat)
  | comma
  | lbracket
  | rbracket
  | arrow
deriving DecidableEq, Repr

/-- What is being read. -/
inductive LexState where
  | idle
  | inName (rev : List Char)
  | zero
  | dec (n : Nat)
  | hexStart
  | hex (n : Nat)
  | quoteOpen
  | quoteChar (n : Nat)
  | inText (rev : List Nat)
  | equals
deriving DecidableEq, Repr

/-- The value of a decimal digit. -/
def decDigit (c : Char) : Option Nat := if 0x30 ≤ c.toNat ∧ c.toNat ≤ 0x39 then some (c.toNat - 0x30) else none

/-- The value of a hexadecimal digit, upper or lower case. -/
def hexDigit (c : Char) : Option Nat :=
  if 0x41 ≤ c.toNat ∧ c.toNat ≤ 0x46 then some (c.toNat - 0x41 + 10)
  else if 0x61 ≤ c.toNat ∧ c.toNat ≤ 0x66 then some (c.toNat - 0x61 + 10)
  else decDigit c

/-- An upper case letter: mnemonics and names are upper case (R70). -/
def isUpper (c : Char) : Bool := 0x41 ≤ c.toNat && c.toNat ≤ 0x5A

/-- The state that reads on with `c`, where `c` belongs to what is being read. -/
def extend : LexState → Char → Option LexState
  | .inName rev, c => if isUpper c then some (.inName (c :: rev)) else none
  | .zero, c => if c = 'x' then some .hexStart else (decDigit c).map .dec
  | .dec n, c => (decDigit c).map fun d => .dec (10 * n + d)
  | .hexStart, c => (hexDigit c).map .hex
  | .hex n, c => (hexDigit c).map fun d => .hex (16 * n + d)
  | _, _ => none

/-- The tokens that what was read amounts to when it ends here; none where it may not end here. -/
def finish : LexState → Option (List Token)
  | .idle => some []
  | .inName rev => some [.name rev.reverse]
  | .zero => some [.num 0]
  | .dec n => some [.num n]
  | .hex n => some [.num n]
  | _ => none

/-- What a character begins: tokens at once, and the state that reads on. -/
def beginToken (c : Char) : Option (List Token × LexState) :=
  if c.toNat = 0x20 ∨ c.toNat = 0x09 then some ([], .idle)
  else if c.toNat = 0x2C then some ([.comma], .idle)
  else if c.toNat = 0x5B then some ([.lbracket], .idle)
  else if c.toNat = 0x5D then some ([.rbracket], .idle)
  else if c.toNat = 0x3D then some ([], .equals)
  else if c.toNat = 0x27 then some ([], .quoteOpen)
  else if c.toNat = 0x22 then some ([], .inText [])
  else if c.toNat = 0x30 then some ([], .zero)
  else if isUpper c then some ([], .inName [c])
  else (decDigit c).map fun d => ([], .dec d)

/-- The tokens of the rest of a line, read from a state; `;` starts a comment (R70). -/
def lexFrom : LexState → List Char → Option (List Token)
  | st, [] => finish st
  | .quoteOpen, c :: cs => if c.toNat < 128 then lexFrom (.quoteChar c.toNat) cs else none
  | .quoteChar n, c :: cs => if c.toNat = 0x27 then (lexFrom .idle cs).map (.num n :: ·) else none
  | .inText rev, c :: cs =>
    if c.toNat = 0x22 then (lexFrom .idle cs).map (.text rev.reverse :: ·)
    else if c.toNat < 128 then lexFrom (.inText (c.toNat :: rev)) cs
    else none
  | .equals, c :: cs => if c.toNat = 0x3E then (lexFrom .idle cs).map (.arrow :: ·) else none
  | st, c :: cs =>
    match extend st c with
    | some st' => lexFrom st' cs
    | none =>
      match finish st with
      | none => none
      | some done =>
        if c.toNat = 0x3B then some done
        else
          match beginToken c with
          | none => none
          | some (now, st') => (lexFrom st' cs).map fun ts => done ++ now ++ ts

/-- The word index of a register named in R43. -/
def registerIndex (m : List Char) : Option Nat :=
  if m = "CMD".toList then some 0x000
  else if m = "STATUS".toList then some 0x001
  else if m = "ERRCMD".toList then some 0x002
  else if m = "ERRINFO".toList then some 0x003
  else if m = "BITLEN".toList then some 0x004
  else if m = "BITIDX".toList then some 0x005
  else if m = "BITDATA".toList then some 0x006
  else if m = "BYTELEN".toList then some 0x007
  else if m = "BYTEIDX".toList then some 0x008
  else if m = "BYTEDATA".toList then some 0x009
  else if m = "CTCOUNT".toList then some 0x00A
  else if m = "PADLEN".toList then some 0x00B
  else if m = "CAPS".toList then some 0x00C
  else if m = "ID".toList then some 0x00D
  else none

/-- The word index at the front of the tokens: a number, a register's name, or `TREE[i]` (R71). DESIGN CHOICE (log 18):
an `i` above 255 is an assembly error. -/
def parseIndex : List Token → Option (Nat × List Token)
  | .num n :: rest => some (n, rest)
  | .name m :: .lbracket :: .num i :: .rbracket :: rest =>
    if m = "TREE".toList ∧ i < 256 then some (0x100 + i, rest) else none
  | .name m :: rest => (registerIndex m).map fun n => (n, rest)
  | _ => none

/-- Numbers separated by commas, at least one. -/
def parseNumbers : List Token → Option (List Nat)
  | [.num n] => some [n]
  | .num n :: .comma :: rest => (parseNumbers rest).map (n :: ·)
  | _ => none

/-- The statement that the tokens after a line's first name make (R70, R71). -/
def parseAfter (m : List Char) (rest : List Token) : Option Stmt :=
  if m = "WR".toList then
    match parseIndex rest with
    | some (wa, [.comma, .num v]) => some (.wr wa v)
    | _ => none
  else if m = "RD".toList then
    match parseIndex rest with
    | some (wa, []) => some (.rd wa none)
    | some (wa, [.arrow, .num v]) => some (.rd wa (some v))
    | _ => none
  else if m = "NODE".toList then
    match rest with
    | [.num i, .comma, .name k, .num s] => if k = "LEAF".toList then some (.nodeLeaf i s) else none
    | [.num i, .comma, .name k, .num l, .comma, .num r] =>
      if k = "INT".toList then some (.nodeInt i l r) else none
    | _ => none
  else if m = "PUTSTR".toList then
    match rest with
    | [.text cs] => some (.putstr cs)
    | _ => none
  else if m = "PUTSYMS".toList then
    match rest with
    | [.text cs] => some (.putsyms cs)
    | _ => none
  else if m = "PUTBYTES".toList then (parseNumbers rest).map .putbytes
  else
    match rest with
    | [] => some (.command m none)
    | [.num n] => some (.command m (some n))
    | _ => none

/-- The transactions of one line; an empty line or a comment stands for none (R70). -/
def assembleLine (line : List Char) : Option (List Txn) :=
  match lexFrom .idle line with
  | some [] => some []
  | some (.name m :: rest) => (parseAfter m rest).bind expandStmt
  | _ => none

/-- The transactions of a program, one statement per line (R70). -/
def assemble (lines : List (List Char)) : Option (List Txn) := (lines.mapM assembleLine).map List.flatten

end Sys2Proof.Machine
end

