-- ==== Sys2Proof/Machine/Environment.lean ====
section
/-! DEFINITION. The environment: the procedures of the host software, 45_environment.md rules R120 to R131. They are
not in the block (00_scope.md rule R3); they produce its inputs and consume its outputs through port transactions. -/

namespace Sys2Proof.Machine

/-- How an environment procedure ends without a result. -/
inductive EnvError where
  /-- `IOFailure`: a file unreadable or unwritable (R123, R128). -/
  | ioFailure
  /-- `TruncatedStream`: the payload ends in the middle of a walk (R127). -/
  | truncatedStream
  /-- The source is empty: refused (R123; 92_eei_decisions.md D22). -/
  | emptySource
  /-- A source character above 127: refused (R120; 92_eei_decisions.md D22). -/
  | characterAbove127
  /-- Fewer than two leaves given to the tree builder: its precondition fails (R124). -/
  | tooFewLeaves
  /-- A decode walk on a tree whose root is a leaf: refused (R127; 92_eei_decisions.md D22). -/
  | rootIsLeaf
  /-- A decode walk that meets a tree that is not well-formed: refused (R127, log 14). -/
  | malformedTree
  /-- A command left a fault standing: the operation is aborted (R129). -/
  | blockFault (c : Cause)
  /-- A transaction was not carried out; the port has no such outcome (20_memory.md rule R44). -/
  | stopped
deriving DecidableEq, Repr

/-- The code of an error in the one numbering that the host may use for its caller (R157). -/
def envErrorCode : EnvError → Option Byte
  | .ioFailure => some (causeCode .ioFailure)
  | .truncatedStream => some (causeCode .truncatedStream)
  | .blockFault c => some (causeCode c)
  | _ => none

/-! ### Symbol table and sorted leaf list, R120 to R123 -/

/-- A record of the Sorted Leaf List: a symbol and its weight. A weight is kept as the numerator of the exact
rational over the source's length N (R121; log 12). -/
abbrev LeafRecord := Symbol × Nat

/-- The symbol codes 0 to 127, ascending. -/
def allSymbols : List Symbol := (List.range Config.nsym).map (BitVec.ofNat 7)

/-- The symbols of nonzero count, ascending (R120). -/
def distinctSymbols (src : List Symbol) : List Symbol := allSymbols.filter fun s => src.count s ≠ 0

/-- Record `a` comes before record `b`: ascending by weight, then by symbol code (R121). -/
def leafBefore (a b : LeafRecord) : Bool := a.2 < b.2 || (a.2 == b.2 && a.1.toNat < b.1.toNat)

/-- Insert a record in its place. -/
def insertLeaf (x : LeafRecord) : List LeafRecord → List LeafRecord
  | [] => [x]
  | y :: ys => if leafBefore x y then x :: y :: ys else y :: insertLeaf x ys

/-- The records in the order of `leafBefore`. -/
def sortLeaves (records : List LeafRecord) : List LeafRecord := records.foldr insertLeaf []

/-- The Sorted Leaf List: in the general case one record per symbol (R121); with exactly one distinct symbol `c` the
two records `(c, 1)` and `((c + 1) mod 128, 0)`, not re-sorted (R122; 90_conflicts.md C2). -/
def sortedLeafList (src : List Symbol) : List LeafRecord :=
  match distinctSymbols src with
  | [c] => [(c, src.length), (c + 1, 0)]
  | symbols => sortLeaves (symbols.map fun s => (s, src.count s))

/-! ### Tree builder, R124 -/

/-- A tree of the builder. `place` is the index in TREE that the canonical layout gives the node (R125). -/
inductive HTree where
  | leaf (place : Nat) (s : Symbol)
  | node (place : Nat) (left right : HTree)
deriving DecidableEq, Repr

/-- The index that the canonical layout gives a tree's root (R125). -/
def treePlace : HTree → Nat
  | .leaf p _ => p
  | .node p _ _ => p

/-- A queued tree with its root's weight (R124). -/
abbrev Queued := Nat × HTree

/-- `Select()`: the front of `S` where its weight is at most that of `T`'s front, else the front of `T` (R124). -/
def select : List Queued → List Queued → Option (Queued × List Queued × List Queued)
  | [], [] => none
  | s :: ss, [] => some (s, ss, [])
  | [], t :: ts => some (t, [], ts)
  | s :: ss, t :: ts => if s.1 ≤ t.1 then some (s, ss, t :: ts) else some (t, s :: ss, ts)

/-- One pass: select twice, join under a new internal node, enqueue it into `T` (R124). -/
def mergePass (place : Nat) (ss ts : List Queued) : Option (List Queued × List Queued) :=
  match select ss ts with
  | none => none
  | some (first, ss1, ts1) =>
    match select ss1 ts1 with
    | none => none
    | some (second, ss2, ts2) =>
      some (ss2, ts2 ++ [(first.1 + second.1, .node place first.2 second.2)])

/-- The given number of passes, and then the root: the one tree left, in `T` (R124). -/
def mergeAll : Nat → Nat → List Queued → List Queued → Option HTree
  | 0, _, [], [t] => some t.2
  | 0, _, _, _ => none
  | k + 1, place, ss, ts =>
    match mergePass place ss ts with
    | none => none
    | some (ss', ts') => mergeAll k (place + 1) ss' ts'

/-- The queue `S` at the start: the leaves as one-node trees, record `i` at place `i` (R124, R125). -/
def leafQueue (records : List LeafRecord) : List Queued :=
  records.zipIdx.map fun (r, i) => (r.2, HTree.leaf i r.1)

/-- The two-queue merge of `m` records, `m - 1` passes; none when there are fewer than two records (R124). -/
def buildTree (records : List LeafRecord) : Option HTree :=
  if records.length < 2 then none
  else mergeAll (records.length - 1) records.length (leafQueue records) []

/-! ### Loading the tree, R125 -/

/-- The node words of a tree with their indices (R66, R125). -/
def treeImage : HTree → List (Nat × Word)
  | .leaf p s => [(p, leafWord s)]
  | .node p l r =>
    treeImage l ++ treeImage r ++
      [(p, internalWord (BitVec.ofNat 8 (treePlace l)) (BitVec.ofNat 8 (treePlace r)))]

/-- The write of a command word to CMD. -/
def cmd (i : Instr) : Txn := .write 0 (encode i)

/-- The word index of `TREE[i]`, `0x100 + i` (20_memory.md rule R43). -/
def treeWordIndex (i : Nat) : WordIndex := BitVec.ofNat 11 (0x100 + i)

/-- `SRESET`, then the node words in index order (R129 step 4; log 13). -/
def loadTxns (t : HTree) : List Txn :=
  cmd .sreset ::
    (List.range (treeImage t).length).map fun i =>
      .write (treeWordIndex i) ((cellsFind (treeImage t) i).getD 0)

/-! ### Translation, R126, and the whole encode, R129 -/

/-- `BCLR`, then one `PUTSYM` per source symbol in order (R126). -/
def translateTxns (src : List Symbol) : List Txn := cmd .bclr :: src.map fun s => cmd (.putsym s)

/-- Steps (4) to (7) of R129: load, `CTGEN root`, translate, `PACK`. -/
def encodeTxns (t : HTree) (src : List Symbol) : List Txn :=
  loadTxns t ++ [cmd (.ctgen (BitVec.ofNat 8 (treePlace t)))] ++ translateTxns src ++ [cmd .pack]

/-- Step (8) of R129: for `j` in 0..n-1, `BYTEIDX <- j` and read BYTEDATA. -/
def readOutTxns (n : Nat) : List Txn :=
  (List.range n).flatMap fun j => [.write 0x008 (BitVec.ofNat 32 j), .read 0x009]

/-- The host issues transactions one after the other and aborts as soon as STATUS.ERR is not 0 (R129). -/
def hostRun : List Txn → State → Except EnvError State
  | [], s => .ok s
  | t :: ts, s =>
    match transact t s with
    | .next s' => if s'.err = .noFault then hostRun ts s' else .error (.blockFault s'.err)
    | .fault _ => .error .stopped
    | .refused _ => .error .stopped

/-- The words that the reads between two states returned. -/
def newReplies (before after : State) : List Word := after.replies.drop before.replies.length

/-- Steps (1) to (3) of R129: the tree of a source; an empty source is refused (R123). -/
def treeOfSource (src : List Symbol) : Except EnvError HTree :=
  if src.isEmpty then .error .emptySource
  else
    match buildTree (sortedLeafList src) with
    | some t => .ok t
    | none => .error .tooFewLeaves

/-- Steps (1) to (8) of R129: the encoded bytes of a source, and the state they leave. -/
def encodeSource (src : List Symbol) (s : State) : Except EnvError (List Byte × State) :=
  match treeOfSource src with
  | .error e => .error e
  | .ok t =>
    match hostRun (encodeTxns t src) s with
    | .error e => .error e
    | .ok s1 =>
      match hostRun (readOutTxns s1.bytelen) s1 with
      | .error e => .error e
      | .ok s2 => .ok ((newReplies s1 s2).map fun w => w.setWidth 8, s2)

/-! ### The decode walk, R127, and the whole decode, R130 -/

/-- A node word as the host reads it, by a PortRead of TREE (R127). -/
def nodeAt (s : State) (i : NodeIndex) : Word := portRead (treeWordIndex i.toNat) s

/-- The child that a bit leads to: left for 0, right for 1 (R127); none where the node has no such child. -/
def childOf (w : Word) (b : Bool) : Option NodeIndex :=
  if b then (if hasRight w then some (rightField w) else none)
  else if hasLeft w then some (leftField w) else none

/-- The walk from the current node `cur` over the remaining bits (R127). DESIGN CHOICE (log 14): a child that is not
there is refused; a tree that is not well-formed is otherwise walked as it stands. -/
def walkFrom (s : State) (root : NodeIndex) : NodeIndex → Bits → Except EnvError (List Symbol)
  | cur, [] => if cur = root then .ok [] else .error .truncatedStream
  | cur, b :: rest =>
    match childOf (nodeAt s cur) b with
    | none => .error .malformedTree
    | some next =>
      if !nodePresent (nodeAt s next) then .error .malformedTree
      else if hasSymbol (nodeAt s next) then
        match walkFrom s root root rest with
        | .error e => .error e
        | .ok out => .ok (symbolField (nodeAt s next) :: out)
      else walkFrom s root next rest

/-- The Decode Tree Walk over a payload; a root with a symbol is refused (R127). DESIGN CHOICE (log 14), unsafe: R127
gives no result where the root is not an internal node or the tree is not well-formed, and of the root only HS is
tested here, so a root with V = 0 or one child, and a cyclic or shared tree, may be walked to a result. -/
def decodeWalk (s : State) (root : NodeIndex) (payload : Bits) : Except EnvError (List Symbol) :=
  if hasSymbol (nodeAt s root) then .error .rootIsLeaf else walkFrom s root root payload

/-- Step (2) and (3) of R130: `YCLR`, `PUTBYTE` for every byte in file order, `UNPACK`. -/
def unpackTxns (bytes : List Byte) : List Txn :=
  cmd .yclr :: bytes.map (fun b => cmd (.putbyte b)) ++ [cmd .unpack]

/-- Step (4) of R130: the payload through BITIDX and BITDATA, 32 bits a read. -/
def payloadTxns (bitlen : Nat) : List Txn :=
  (List.range ((bitlen + 31) / 32)).flatMap fun j => [.write 0x005 (BitVec.ofNat 32 (32 * j)), .read 0x006]

/-- The bits of a window word, the earlier bit in the more significant place (20_memory.md rule R46). -/
def wordBits (w : Word) : Bits := (List.range 32).map fun k => w.getLsbD (31 - k)

/-- Steps (1) to (5) of R130: the decoded symbols of encoded bytes, with the tree of the original source, and the
state they leave. -/
def decodeBytes (src : List Symbol) (bytes : List Byte) (s : State) : Except EnvError (List Symbol × State) :=
  match treeOfSource src with
  | .error e => .error e
  | .ok t =>
    match hostRun (loadTxns t ++ unpackTxns bytes) s with
    | .error e => .error e
    | .ok s1 =>
      match hostRun (payloadTxns s1.bitlen) s1 with
      | .error e => .error e
      | .ok s2 =>
        match decodeWalk s2 (BitVec.ofNat 8 (treePlace t)) (((newReplies s1 s2).flatMap wordBits).take s1.bitlen) with
        | .error e => .error e
        | .ok out => .ok (out, s2)

/-! ### Files, R128 -/

/-- A file as the environment meets it: its bytes, or unreadable. -/
abbrev SourceFile := Option (List Byte)

/-- Read a source text: unreadable is `IOFailure` (R123), a character above 127 is refused (R120). -/
def readSource : SourceFile → Except EnvError (List Symbol)
  | none => .error .ioFailure
  | some bytes =>
    if bytes.all fun b => b.toNat < Config.nsym then .ok (bytes.map fun b => b.setWidth 7)
    else .error .characterAbove127

/-- Write a whole byte sequence, or nothing and `IOFailure` where the destination is unwritable (R128). -/
def writeFile (writable : Bool) (bytes : List Byte) : Except EnvError (List Byte) :=
  if writable then .ok bytes else .error .ioFailure

/-- The whole encode of one source file (R129 with R128): the contents of the encoded file. DESIGN CHOICE (log 15): the
destination is tried last, so where the encode fails and the destination is unwritable the encode's error is reported. -/
def encodeFile (source : SourceFile) (writable : Bool) (s : State) : Except EnvError (List Byte) :=
  match readSource source with
  | .error e => .error e
  | .ok src =>
    match encodeSource src s with
    | .error e => .error e
    | .ok (bytes, _) => writeFile writable bytes

/-- The whole decode of one encoded file (R130 with R128), the original source still at hand: the contents of the
decoded file. DESIGN CHOICE (log 15): R130 does not say when the encoded file is opened. Here that is after the source
is read and before its tree is built: where several things fail, a source that is unreadable or has a character above
127 is reported first, then an unreadable encoded file, then an empty source and the errors of the block and the walk,
and an unwritable destination last. -/
def decodeFile (source encoded : SourceFile) (writable : Bool) (s : State) : Except EnvError (List Byte) :=
  match readSource source, encoded with
  | .error e, _ => .error e
  | .ok _, none => .error .ioFailure
  | .ok src, some bytes =>
    match decodeBytes src bytes s with
    | .error e => .error e
    | .ok (out, _) => writeFile writable (out.map fun sym => sym.setWidth 8)

end Sys2Proof.Machine
end

