-- ==== Sys2Proof/Safety.lean ====
section
/-! DEFINITION. What claims speak of: the invariants of the state, the tree that a TREE image holds told without the
traversal (10_state.md rule R28), prefix-free codes and the Kraft sum (41_codetable.md rule R96), the marker of a
byte sequence told without the scan (43_bitunpacker.md rule R112). -/

namespace Sys2Proof.Machine

/-! ### The tree held by an image, 10_state.md rules R27, R28 -/

/-- The word is a node with a present symbol: the traversal stops there (R91, R92). -/
def leafNode (w : Word) : Bool := nodePresent w && hasSymbol w

/-- The word is a node without symbol and with both children (R28). -/
def internalNode (w : Word) : Bool := nodePresent w && !hasSymbol w && hasLeft w && hasRight w

/-- `Reaches m r p n`: in the image `m` the path `p` leads from node `r` to node `n`, 0 left and 1 right, through
internal nodes only (R91). -/
inductive Reaches (m : Memory) : NodeIndex → Bits → NodeIndex → Prop where
  | here (n : NodeIndex) : Reaches m n [] n
  | left {n k : NodeIndex} {p : Bits} : internalNode (m.read n.toNat) = true →
      Reaches m (leftField (m.read n.toNat)) p k → Reaches m n (false :: p) k
  | right {n k : NodeIndex} {p : Bits} : internalNode (m.read n.toNat) = true →
      Reaches m (rightField (m.read n.toNat)) p k → Reaches m n (true :: p) k

/-- The path `p` leads from `r` to a leaf with symbol `s`. -/
def LeafAt (m : Memory) (r : NodeIndex) (p : Bits) (s : Symbol) : Prop :=
  ∃ n, Reaches m r p n ∧ leafNode (m.read n.toNat) = true ∧ symbolField (m.read n.toNat) = s

/-- What CTGEN asks of an image (R91, R92): every reached word is a leaf, or an internal node above depth 127, and no
symbol stands on two leaves. -/
structure WalkableImage (m : Memory) (r : NodeIndex) : Prop where
  nodes : ∀ p n, Reaches m r p n →
    leafNode (m.read n.toNat) = true ∨ (internalNode (m.read n.toNat) = true ∧ p.length < Config.maxLen)
  once : ∀ p q s, LeafAt m r p s → LeafAt m r q s → p = q

/-- The path `q` comes before the path `p` in pre-order, left subtree first (R154): `q` leads to an ancestor of
`p`'s node, or they part and `q` goes left. -/
def EarlierPath (q p : Bits) : Prop :=
  (∃ b rest, p = q ++ b :: rest) ∨ ∃ c q' p', q = c ++ false :: q' ∧ p = c ++ true :: p'

/-- The same node in two images whose nodes are placed differently by `place`: the same kind of word, for a leaf the
same symbol, for an internal node the children placed by `place` (41_codetable.md rule R96 e). Fields that R92 calls
ignored may differ. -/
def SameNode (place : NodeIndex → NodeIndex) (w w' : Word) : Prop :=
  leafNode w' = leafNode w ∧ internalNode w' = internalNode w ∧
  (leafNode w = true → symbolField w' = symbolField w) ∧
  (internalNode w = true → leftField w' = place (leftField w) ∧ rightField w' = place (rightField w))

/-- How many nodes `Walk` visits before it returns or faults (41_codetable.md rule R96 a). -/
def walkVisits (tree : Memory) (rem : Nat) (n : NodeIndex) (path : Bits) (t : CodeTable) : Nat :=
  match visit (tree.read n.toNat) rem path t with
  | .stop _ => 1
  | .leaf _ => 1
  | .descend l r =>
    match rem with
    | 0 => 1
    | rem' + 1 =>
      match walk tree rem' l (path ++ [false]) t with
      | .error _ => 1 + walkVisits tree rem' l (path ++ [false]) t
      | .ok t' => 1 + walkVisits tree rem' l (path ++ [false]) t + walkVisits tree rem' r (path ++ [true]) t'
termination_by structural rem

/-! ### Codes -/

/-- No listed code is a prefix of another entry's code (10_state.md rule R31). -/
def PrefixFree (t : CodeTable) : Prop := ∀ a ∈ t, ∀ b ∈ t, a.2 <+: b.2 → a = b

/-- The Kraft sum in units of 2^-127: the sum of 2^(127 - LEN) over the valid entries (41_codetable.md rule R96 c). -/
def kraftSum (t : CodeTable) : Nat := (t.map fun c => 2 ^ (Config.maxLen - c.2.length)).sum

/-! ### The marker of a byte sequence, told without the scan -/

/-- What R112 discards from the front of the global bit string of `bytes`, and its NOMARK verdict. -/
def MarkerRule (bytes : List Byte) (discard : Nat) (nomark : Bool) : Prop :=
  (bytes = [] ∧ discard = 0 ∧ nomark = true) ∨
  (∃ b rest p, bytes = b :: rest ∧ p < 8 ∧ b.getLsbD (7 - p) = true ∧
    (∀ k < p, b.getLsbD (7 - k) = false) ∧ discard = p + 1 ∧ nomark = false) ∨
  (∃ rest, bytes = 0 :: rest ∧ discard = 8 ∧ nomark = true)

/-! ### Invariants of the state -/

/-- What the block keeps between transactions (10_state.md rules R12, R14 to R17, R19, R23, R26, R30, R32, R33;
60_exceptions.md rule R150). -/
structure StateInv (s : State) : Prop where
  bitcap_admitted : Config.bitcapMin ≤ s.bitcap ∧ s.bitcap ≤ Config.bitcapMax
  tree_wf : s.tree.wf
  ct_wf : s.ct.wf
  bits_fit : s.bitlen ≤ s.bitcap
  bytes_fit : s.bytelen ≤ s.bytecap
  padlen_le : s.padlen.toNat ≤ 8
  err_of_block : s.err ≠ .ioFailure ∧ s.err ≠ .truncatedStream
  clear_when_no_fault : s.err = .noFault → s.errcmd = 0 ∧ s.errinfo = 0

/-- What the code table is between transactions: CTV says that a table stands (10_state.md rule R14), ZLEN that it
has a zero-length code (R14), the codes are prefix-free (R31) and complete (41_codetable.md rule R96 c). -/
structure TableInv (s : State) : Prop where
  ctv_iff : s.ctv = true ↔ s.ct ≠ []
  zlen_iff : s.zlen = true ↔ ∃ c ∈ s.ct, c.2 = []
  prefix_free : PrefixFree s.ct
  kraft : s.ctv = true → kraftSum s.ct = 2 ^ Config.maxLen

/-- The transactions of a list carried out one after the other. -/
def runTxns : List Txn → State → Host.Outcome State Fault Refusal
  | [], s => .next s
  | t :: ts, s =>
    match transact t s with
    | .next s' => runTxns ts s'
    | .fault f => .fault f
    | .refused r => .refused r

/-! ### What a step leaves alone -/

/-- The instance's BITCAP and the host's side are as before: no command changes them. -/
def KeepsHost (s t : State) : Prop := t.bitcap = s.bitcap ∧ t.pending = s.pending ∧ t.replies = s.replies

/-- The window positions are as before (10_state.md rules R18, R20). -/
def KeepsWindows (s t : State) : Prop := t.bitidx = s.bitidx ∧ t.byteidx = s.byteidx

/-- ERR, ERRCMD and ERRINFO are as before. -/
def KeepsFault (s t : State) : Prop := t.err = s.err ∧ t.errcmd = s.errcmd ∧ t.errinfo = s.errinfo

/-- Every word of TREE reads as before. -/
def KeepsTree (s t : State) : Prop := ∀ i : Nat, t.tree.read i = s.tree.read i

/-- Every entry of CT, CTV and ZLEN are as before. -/
def KeepsTable (s t : State) : Prop :=
  (∀ i : Nat, t.ct.find i = s.ct.find i) ∧ t.ctv = s.ctv ∧ t.zlen = s.zlen

/-- BITBUF, with its length, is as before. -/
def KeepsBits (s t : State) : Prop := t.bitbuf = s.bitbuf

/-- BYTEBUF, with its length, is as before. -/
def KeepsBytes (s t : State) : Prop := t.bytebuf = s.bytebuf

/-- ERR, ERRCMD and ERRINFO hold the fault `c` of the command word `w` (60_exceptions.md rule R152). -/
def Faulted (c : Cause) (w info : Word) (t : State) : Prop := t.err = c ∧ t.errcmd = w ∧ t.errinfo = info

/-- Every piece of the block's state is at its reset value, and every word of the port but CAPS and ID reads 0
(10_state.md rule R35). -/
def AtReset (s : State) : Prop :=
  statusWord s = 0 ∧ s.err = .noFault ∧ s.ctv = false ∧ s.zlen = false ∧ s.nomark = false ∧ s.bpoison = false ∧
  s.errcmd = 0 ∧ s.errinfo = 0 ∧ s.bitidx = 0 ∧ s.byteidx = 0 ∧ s.padlen = 0 ∧
  (∀ i : Nat, s.tree.read i = 0) ∧ (∀ i : Nat, s.ct.find i = none) ∧
  s.bitbuf = [] ∧ s.bitlen = 0 ∧ s.bytebuf = [] ∧ s.bytelen = 0 ∧
  (∀ wa : WordIndex, wa ≠ 0x00C → wa ≠ 0x00D → portRead wa s = 0) ∧
  portRead 0x00C s = BitVec.ofNat 32 s.bitcap ∧ portRead 0x00D s = 0x48434501

/-! ### Trees of the environment's builder -/

/-- The symbols on a tree's leaves, left to right. -/
def treeLeaves : HTree → List Symbol
  | .leaf _ s => [s]
  | .node _ l r => treeLeaves l ++ treeLeaves r

/-- The leaves' symbols with their paths from the root, 0 left and 1 right (41_codetable.md rule R91). -/
def leafPaths : HTree → List (Symbol × Bits)
  | .leaf _ s => [(s, [])]
  | .node _ l r =>
    (leafPaths l).map (fun c => (c.1, false :: c.2)) ++ (leafPaths r).map (fun c => (c.1, true :: c.2))

/-- The order of the tree builder's selections, told without queues (45_environment.md rules R124, R125). `m` records;
`c` lists the places selected, two a pass; `wt` is the weight of the tree at a place. With `j` selections made, `a` of
them leaves, the front of `S` is place `a` and the front of `T` is place `m + (j - a)`; `j / 2` nodes have been
enqueued into `T`. -/
structure SelectionOrder (records : List LeafRecord) (wt : Nat → Nat) (c : List Nat) : Prop where
  two_a_pass : c.length = 2 * records.length - 2
  leaf_weight : ∀ i sym w, records[i]? = some (sym, w) → wt i = w
  node_weight : ∀ k < records.length - 1,
    wt (records.length + k) = wt (c.getD (2 * k) 0) + wt (c.getD (2 * k + 1) 0)
  prefers_leaves : ∀ j < c.length, ∀ a b, a = (c.take j).countP (· < records.length) →
    b = records.length + (j - a) →
    c.getD j 0 = if a < records.length ∧ (records.length + j / 2 ≤ b ∨ wt a ≤ wt b) then a else b

end Sys2Proof.Machine
end

