-- ==== Sys2Proof/Certificates/Slice0/Obligations.lean ====
section
/-! DEFINITION. The statements for the provers, each a rule of spec/ or derived from rules (OBLIGATIONS.json). -/

open Sys2Proof Sys2Proof.Machine

/-! ### Reset, the port, the address map -/

/-- R35: after a hardware reset, and after SRESET, every piece of state has its reset value; for every BITCAP. -/
def Obligations.ResetAndSresetLeaveResetValues : Prop :=
  AtReset State.reset ∧ (∀ bitcap : Nat, AtReset (State.resetWith bitcap)) ∧
  ∀ s : State, ∃ t, exec .sreset s = .next t ∧ AtReset t

/-- R82: SRESET in every state, a fault standing or not; the state after it is that of a hardware reset of the same
instance, the host's transactions (log 2) aside; no other command writes BITIDX or BYTEIDX. -/
def Obligations.SresetIsHardwareReset : Prop :=
  encode .sreset = 0x02000000 ∧ (∀ s : State, execWord 0x02000000 s = exec .sreset s) ∧
  (∀ s : State, ∃ t, exec .sreset s = .next t ∧ KeepsHost s t ∧ AtReset t ∧
    { t with pending := [], replies := [] } = State.resetWith s.bitcap) ∧
  ∀ (i : Instr) (s t : State), i ≠ .sreset → exec i s = .next t → KeepsWindows s t

/-- R41: a PortRead returns a function of the block's state and the index, and changes no state of the block. The
lists of transactions and replies are the model's choice (log 2). -/
def Obligations.PortReadChangesNothing : Prop :=
  (∀ (s : State) (wa : WordIndex) (ts : List Txn) (ws : List Word),
    portRead wa { s with pending := ts, replies := ws } = portRead wa s) ∧
  ∀ (s : State) (wa : WordIndex) (rest : List Txn), s.pending = .read wa :: rest →
    step s = .next { s with pending := rest, replies := s.replies ++ [portRead wa s] }

/-- R43, R44, R13, R22, R24: what every word index reads as; a write to a reserved or read-only index is ignored,
and every port write is carried out. -/
def Obligations.ReadsFollowAddressMap : Prop :=
  ∀ s : State,
    portRead 0x000 s = 0 ∧ portRead 0x001 s = statusWord s ∧ portRead 0x002 s = s.errcmd ∧
    portRead 0x003 s = s.errinfo ∧ portRead 0x004 s = BitVec.ofNat 32 s.bitbuf.length ∧
    portRead 0x005 s = s.bitidx ∧ portRead 0x006 s = bitdataWord s ∧
    portRead 0x007 s = BitVec.ofNat 32 s.bytebuf.length ∧ portRead 0x008 s = s.byteidx ∧
    portRead 0x009 s = bytedataWord s ∧ portRead 0x00A s = BitVec.ofNat 32 s.ct.count ∧
    portRead 0x00B s = s.padlen ∧ portRead 0x00C s = BitVec.ofNat 32 s.bitcap ∧ portRead 0x00D s = 0x48434501 ∧
    (∀ wa : WordIndex, 0x00E ≤ wa.toNat → wa.toNat ≤ 0x0FF → portRead wa s = 0) ∧
    (∀ i : NodeIndex, portRead (BitVec.ofNat 11 (0x100 + i.toNat)) s = s.tree.read i.toNat) ∧
    (∀ wa : WordIndex, 0x200 ≤ wa.toNat → wa.toNat ≤ 0x3FF → portRead wa s = 0) ∧
    (∀ (sym : Symbol) (j : Nat), j < 8 →
      portRead (BitVec.ofNat 11 (0x400 + 8 * sym.toNat + j)) s = entryWord (s.ct.find sym.toNat) j) ∧
    (∀ (wa : WordIndex) (v : Word), wa ≠ 0x000 → wa ≠ 0x005 → wa ≠ 0x008 → wa.toNat < 0x100 ∨ 0x1FF < wa.toNat →
      portWrite wa v s = .next s) ∧
    ∀ (wa : WordIndex) (v : Word), ∃ t, portWrite wa v s = .next t

/-- R42: what a PortWrite does, whatever STATUS.ERR is: a command word at CMD, BITIDX, BYTEIDX, a masked TREE word,
and at every other index nothing. -/
def Obligations.PortWriteDoesOneOfFive : Prop :=
  ∀ (s : State) (wa : WordIndex) (v : Word),
    portWrite 0x000 v s = execWord v s ∧
    portWrite 0x005 v s = .next { s with bitidx := v } ∧
    portWrite 0x008 v s = .next { s with byteidx := v } ∧
    (0x100 ≤ wa.toNat → wa.toNat ≤ 0x1FF → ∃ t, portWrite wa v s = .next t ∧
      t = { s with tree := t.tree } ∧ t.tree.read (wa.toNat - 0x100) = v &&& 0x877FFFFF ∧
      ∀ i : Nat, i ≠ wa.toNat - 0x100 → t.tree.read i = s.tree.read i) ∧
    (wa ≠ 0x000 → wa ≠ 0x005 → wa ≠ 0x008 → ¬(0x100 ≤ wa.toNat ∧ wa.toNat ≤ 0x1FF) →
      portWrite wa v s = .next s)

/-- R26: a TREE word reads back through the port masked, every other TREE word as before, and CT, being a snapshot,
is not changed (R52); the memory keeps its canonical form, the model's (log 4). -/
def Obligations.TreeWordReadsBackMasked : Prop :=
  ∀ (s : State) (i : NodeIndex) (v : Word), ∃ t,
    portWrite (BitVec.ofNat 11 (0x100 + i.toNat)) v s = .next t ∧
    (∀ j : NodeIndex, portRead (BitVec.ofNat 11 (0x100 + j.toNat)) t =
      if j = i then v &&& 0x877FFFFF else portRead (BitVec.ofNat 11 (0x100 + j.toNat)) s) ∧
    KeepsTable s t ∧ (s.tree.wf → t.tree.wf)

/-- R18: BITDATA is the 32-bit window of BITBUF at BITIDX, the first bit in bit 31, 0 beyond BITLEN, the sum
BITIDX + k never reduced; BITIDX holds what the host wrote, and no command but SRESET reads or writes it. -/
def Obligations.BitdataIsWindowOfBitbuf : Prop :=
  (∀ (s : State) (k : Nat), k < 32 →
    (portRead 0x006 s).getLsbD (31 - k) =
      if s.bitidx.toNat + k < s.bitlen then s.bitbuf.getD (s.bitidx.toNat + k) false else false) ∧
  (∀ (s : State) (v : Word), portWrite 0x005 v s = .next { s with bitidx := v } ∧
    portRead 0x005 { s with bitidx := v } = v ∧ portWrite 0x006 v s = .next s) ∧
  (∀ s : State, ∃ t, exec .sreset s = .next t ∧ t.bitidx = 0) ∧
  ∀ (i : Instr) (s t : State) (v : Word), i ≠ .sreset → exec i s = .next t →
    exec i { s with bitidx := v } = .next { t with bitidx := v } ∧ t.bitidx = s.bitidx

/-- R20: BYTEDATA is the byte of BYTEBUF at BYTEIDX, 0 beyond BYTELEN; bits 31:8 are always 0; BYTEIDX holds what the
host wrote, and no command but SRESET reads or writes it. -/
def Obligations.BytedataIsWindowOfBytebuf : Prop :=
  (∀ s : State,
    (s.byteidx.toNat < s.bytelen → ∃ b, s.bytebuf[s.byteidx.toNat]? = some b ∧
      portRead 0x009 s = b.setWidth 32) ∧
    (s.bytelen ≤ s.byteidx.toNat → portRead 0x009 s = 0) ∧
    ∀ k : Nat, 8 ≤ k → (portRead 0x009 s).getLsbD k = false) ∧
  (∀ (s : State) (v : Word), portWrite 0x008 v s = .next { s with byteidx := v } ∧
    portRead 0x008 { s with byteidx := v } = v ∧ portWrite 0x009 v s = .next s) ∧
  (∀ s : State, ∃ t, exec .sreset s = .next t ∧ t.byteidx = 0) ∧
  ∀ (i : Instr) (s t : State) (v : Word), i ≠ .sreset → exec i s = .next t →
    exec i { s with byteidx := v } = .next { t with byteidx := v } ∧ t.byteidx = s.byteidx

/-- R14, R150: the layout of STATUS, and the numbers of the causes in ERR. -/
def Obligations.StatusBitsByField : Prop :=
  ∀ s : State,
    (portRead 0x001 s).extractLsb' 0 8 = causeCode s.err ∧ (causeCode s.err).toNat ≤ 10 ∧
    (portRead 0x001 s).getLsbD 8 = s.ctv ∧ (portRead 0x001 s).getLsbD 9 = s.zlen ∧
    (portRead 0x001 s).getLsbD 10 = s.nomark ∧ (portRead 0x001 s).getLsbD 11 = s.bpoison ∧
    (∀ k : Nat, 12 ≤ k → (portRead 0x001 s).getLsbD k = false) ∧
    causeCode .noFault = 0 ∧ causeCode .invalidBitCharacter = 1 ∧ causeCode .ioFailure = 2 ∧
    causeCode .truncatedStream = 3 ∧ causeCode .illcmd = 4 ∧ causeCode .badtree = 5 ∧ causeCode .depth = 6 ∧
    causeCode .dupsym = 7 ∧ causeCode .nocode = 8 ∧ causeCode .bitovf = 9 ∧ causeCode .byteovf = 10

/-- R67: the eight port words of a code table entry whose code has at most MAXLEN bits, and of an unset entry. -/
def Obligations.CodeImageLeftJustified : Prop :=
  (∀ (s : State) (sym : Symbol) (j : Nat), j < 8 →
    portRead (BitVec.ofNat 11 (0x400 + 8 * sym.toNat + j)) s = entryWord (s.ct.find sym.toNat) j) ∧
  (∀ j : Nat, entryWord none j = 0) ∧
  ∀ code : Bits, code.length ≤ 127 →
    (entryWord (some code) 0).toNat = 2 ^ 31 + code.length ∧
    (∀ i : Nat, i < 128 →
      (entryWord (some code) (1 + i / 32)).getLsbD (31 - i % 32) = code.getD i false) ∧
    ∀ j : Nat, 5 ≤ j → entryWord (some code) j = 0

/-- R21: CTCOUNT is the number of valid entries, 0 to 128. For the model's list form of CT (log 6), in canonical form,
that is the number of listed entries. -/
def Obligations.CtcountCountsValidEntries : Prop :=
  ∀ s : State,
    (portRead 0x00A s).toNat = ((List.range 128).filter fun i => (s.ct.find i).isSome).length ∧
    (portRead 0x00A s).toNat ≤ 128 ∧ (∀ v : Word, portWrite 0x00A v s = .next s) ∧
    (s.ct.wf → (portRead 0x00A s).toNat = s.ct.length)

/-! ### Encodings -/

/-- R61, R63: decoding the word of a command gives the command back, for every operand. -/
def Obligations.DecodeEncodeRoundTrip : Prop := ∀ i : Instr, decode (encode i) = .ok i

/-- R61: the word of a decoded command is the word decoded: every command has one word. -/
def Obligations.EncodeInvertsDecode : Prop := ∀ (w : Word) (i : Instr), decode w = .ok i → encode i = w

/-- R61, R64: the decoder accepts exactly the words that a row of the table selects, and then gives a command of that
row. -/
def Obligations.DecoderAgreesWithTable : Prop :=
  (∀ w : Word, wellFormedWord w = false ↔ ∃ e, decode w = .error e) ∧
  ∀ (w : Word) (r : Row), r ∈ opcodeTable → r.selects w = true →
    ∃ i, decode w = .ok i ∧ i.mnemonic = r.mnemonic

/-- R61: the thirteen match sets are pairwise disjoint. -/
def Obligations.TableRowsAreDisjoint : Prop :=
  opcodeTable.length = 13 ∧
  ∀ (w : Word) (r r' : Row), r ∈ opcodeTable → r' ∈ opcodeTable → r.selects w = true → r'.selects w = true → r = r'

/-- R61, R64: some words written out from the table and from 95_test_vectors.md V2. -/
def Obligations.SampleWordsDecode : Prop :=
  decode 0x00000000 = .ok .nop ∧ decode 0x100000FF = .ok (.ctgen 255) ∧ decode 0x21000078 = .ok (.putch 0x78) ∧
  decode 0x2200007F = .ok (.putsym 127) ∧ decode 0x3100001E = .ok (.putbyte 0x1E) ∧
  decode 0x32000000 = .ok .unpack ∧ decode 0x22000080 = .error .putsymBit7 ∧
  decode 0x10000100 = .error .zNotZero ∧ decode 0x23000001 = .error .argNotZero ∧
  decode 0x7F000000 = .error .opcNotAssigned

/-- R66: the fields of the canonical images of a leaf and of an internal node; the stored words keep all their bits. -/
def Obligations.NodeImagesHaveTheirFields : Prop :=
  (∀ s : Symbol, (leafWord s).toNat = 0x81000000 + s.toNat * 0x10000 ∧
    leafNode (leafWord s) = true ∧ symbolField (leafWord s) = s ∧ hasLeft (leafWord s) = false ∧
    hasRight (leafWord s) = false ∧ leafWord s &&& 0x877FFFFF = leafWord s) ∧
  ∀ l r : NodeIndex, (internalWord l r).toNat = 0x86000000 + r.toNat * 0x100 + l.toNat ∧
    internalNode (internalWord l r) = true ∧ leftField (internalWord l r) = l ∧
    rightField (internalWord l r) = r ∧ hasSymbol (internalWord l r) = false ∧
    internalWord l r &&& 0x877FFFFF = internalWord l r

/-- R45: most significant bit first, in both directions. -/
def Obligations.BytesAreMsbFirst : Prop :=
  (∀ (b : Byte) (k : Nat), k < 8 → (byteMsb b).getD k false = b.getLsbD (7 - k)) ∧
  (∀ (bs : Bits) (k : Nat), bs.length = 8 → k < 8 → (msbByte bs).getLsbD (7 - k) = bs.getD k false) ∧
  (∀ b : Byte, msbByte (byteMsb b) = b) ∧ (∀ bs : Bits, bs.length = 8 → byteMsb (msbByte bs) = bs) ∧
  ∀ (bytes : List Byte) (j k : Nat), k < 8 →
    (unpackBytes bytes).getD (8 * j + k) false = (bytes.getD j 0).getLsbD (7 - k)

/-! ### One step; words at CMD -/

/-- R9, R42, R62: a step carries out the host's next transaction; where that is the write of a word to CMD that
decodes to a command, the step is that command's meaning on the state with the transaction issued. The list of
pending transactions and the step with none are the model's choices (log 2, log 3). -/
def Obligations.StepRunsDecodedCommand : Prop :=
  (∀ (s : State) (rest : List Txn) (w : Word) (i : Instr), s.pending = .write 0x000 w :: rest →
    decode w = .ok i → step s = exec i { s with pending := rest }) ∧
  (∀ (s : State) (rest : List Txn) (wa : WordIndex) (v : Word), s.pending = .write wa v :: rest →
    step s = portWrite wa v { s with pending := rest }) ∧
  (∀ s : State, s.pending = [] → step s = .next s) ∧
  ∀ (s : State) (i : Instr), step (s.withFetchWord 32 (encode i).toNat) = exec i s

/-- R50, R51: the host's transactions take effect one at a time, in the order issued, each completely before the next
begins: as many steps as transactions are pending give what carrying them out one after the other gives. The list of
pending transactions is the model's (log 2). -/
def Obligations.TransactionsRunInOrder : Prop :=
  ∀ s : State, Host.Core.run core s.pending.length s = runTxns s.pending { s with pending := [] }

/-- R64, R62: an illegal word raises ILLCMD and changes nothing else; written while a fault stands it is dropped; the
kinds (a) to (d) of illegal words. -/
def Obligations.IllegalWordRaisesIllcmd : Prop :=
  (∀ (s : State) (w : Word), wellFormedWord w = false →
    (s.err = .noFault → execWord w s = .next { s with err := .illcmd, errcmd := w, errinfo := 0 }) ∧
    (s.err ≠ .noFault → execWord w s = .next s)) ∧
  ∀ w : Word, wellFormedWord w = false ↔
    (opcField w ∉ [0x00, 0x01, 0x02, 0x10, 0x11, 0x12, 0x20, 0x21, 0x22, 0x23, 0x30, 0x31, 0x32]) ∨
    w.extractLsb' 8 16 ≠ 0 ∨
    (opcField w ∈ [0x00, 0x01, 0x02, 0x11, 0x12, 0x20, 0x23, 0x30, 0x32] ∧ w.extractLsb' 0 8 ≠ 0) ∨
    (opcField w = 0x22 ∧ w.getLsbD 7 = true)

/-- R156, R62: while a fault stands every word but CLRERR's and SRESET's is dropped; reads, and writes to BITIDX,
BYTEIDX and TREE, are carried out as always. -/
def Obligations.StandingFaultDropsCommands : Prop :=
  ∀ s : State, s.err ≠ .noFault →
    (∀ w : Word, w ≠ 0x01000000 → w ≠ 0x02000000 → execWord w s = .next s) ∧
    execWord 0x01000000 s = exec .clrerr s ∧ execWord 0x02000000 s = exec .sreset s ∧
    (∀ (wa : WordIndex) (c : Cause), wa ≠ 0x001 → portRead wa s = portRead wa { s with err := c }) ∧
    (∀ v : Word, portWrite 0x005 v s = .next { s with bitidx := v }) ∧
    (∀ v : Word, portWrite 0x008 v s = .next { s with byteidx := v }) ∧
    ∀ (i : NodeIndex) (v : Word),
      portWrite (BitVec.ofNat 11 (0x100 + i.toNat)) v s = .next { s with tree := s.tree.write i.toNat v }

/-- R44, R185: the block refuses no transaction and no command hangs: every step gives a next state. That the step
with nothing pending does is the model's choice (log 3). -/
def Obligations.EveryStepGivesNextState : Prop :=
  (∀ s : State, ∃ t, step s = .next t) ∧ ∀ (i : Instr) (s : State), ∃ t, exec i s = .next t

/-! ### Control commands -/

/-- R80: NOP changes nothing, a fault standing or not; 0x00000001 is not NOP. -/
def Obligations.NopChangesNothing : Prop :=
  encode .nop = 0x00000000 ∧ (∀ s : State, exec .nop s = .next s ∧ execWord 0x00000000 s = .next s) ∧
  ∀ s : State, s.err = .noFault → ∃ t, execWord 0x00000001 s = .next t ∧ Faulted .illcmd 0x00000001 0 t

/-- R81: CLRERR clears ERR, ERRCMD and ERRINFO and nothing else, in every state; a poisoned bit string stays one, so
that PACK faults again; 0x01000001 is not CLRERR. -/
def Obligations.ClrerrAcknowledgesFault : Prop :=
  encode .clrerr = 0x01000000 ∧
  (∀ s : State, ∃ t, exec .clrerr s = .next t ∧ Faulted .noFault 0 0 t ∧
    KeepsHost s t ∧ KeepsWindows s t ∧ KeepsTree s t ∧ KeepsTable s t ∧ KeepsBits s t ∧ KeepsBytes s t ∧
    t.nomark = s.nomark ∧ t.bpoison = s.bpoison ∧ t.padlen = s.padlen) ∧
  (∀ s : State, execWord 0x01000000 s = exec .clrerr s) ∧
  (∀ s : State, StateInv s → s.err = .noFault → exec .clrerr s = .next s) ∧
  (∀ s : State, s.bpoison = true → ∃ t u, exec .clrerr s = .next t ∧ exec .pack t = .next u ∧
    u.err = .invalidBitCharacter) ∧
  ∀ s : State,
    (s.err = .noFault → ∃ t, execWord 0x01000001 s = .next t ∧ Faulted .illcmd 0x01000001 0 t) ∧
    (s.err ≠ .noFault → execWord 0x01000001 s = .next s)

/-! ### Code table commands -/

/-- R90, R91, R92: CTGEN from a walkable image succeeds; the table then holds exactly the leaves' symbols, each with
the path to its leaf as code; CTV is set and ZLEN says whether the root has a symbol. -/
def Obligations.CtgenRecordsEveryLeafPath : Prop :=
  ∀ (s : State) (r : NodeIndex), s.err = .noFault → WalkableImage s.tree r →
    ∃ t, exec (.ctgen r) s = .next t ∧
      (∀ (sym : Symbol) (p : Bits), t.ct.find sym.toNat = some p ↔ LeafAt s.tree r p sym) ∧
      (∀ i : Nat, 128 ≤ i → t.ct.find i = none) ∧
      t.ctv = true ∧ t.zlen = hasSymbol (s.tree.read r.toNat) ∧
      KeepsHost s t ∧ KeepsWindows s t ∧ KeepsFault s t ∧ KeepsTree s t ∧ KeepsBits s t ∧ KeepsBytes s t ∧
      t.nomark = s.nomark ∧ t.bpoison = s.bpoison ∧ t.padlen = s.padlen

/-- R90, R92, R153: CTGEN from an image that is not walkable faults BADTREE, DEPTH or DUPSYM; the table is left empty
with CTV and ZLEN 0, and nothing else changes. -/
def Obligations.CtgenFaultLeavesEmptyTable : Prop :=
  ∀ (s : State) (r : NodeIndex), s.err = .noFault → ¬ WalkableImage s.tree r →
    ∃ t, exec (.ctgen r) s = .next t ∧ (t.err = .badtree ∨ t.err = .depth ∨ t.err = .dupsym) ∧
      t.errcmd = 0x10000000 + r.setWidth 32 ∧
      (∀ i : Nat, t.ct.find i = none) ∧ t.ctv = false ∧ t.zlen = false ∧
      KeepsHost s t ∧ KeepsWindows s t ∧ KeepsTree s t ∧ KeepsBits s t ∧ KeepsBytes s t ∧
      t.nomark = s.nomark ∧ t.bpoison = s.bpoison ∧ t.padlen = s.padlen

/-- R151, R154: the ERRINFO of a CTGEN fault names a reached node and its depth; the node's word fails the test of
the cause; and every node before it in pre-order, left first, passed its tests. -/
def Obligations.CtgenReportsFirstFailingNode : Prop :=
  ∀ (s t : State) (r : NodeIndex), s.err = .noFault → exec (.ctgen r) s = .next t → t.err ≠ .noFault →
    ∃ (p : Bits) (n : NodeIndex), Reaches s.tree r p n ∧ p.length ≤ 127 ∧
      t.errinfo = BitVec.ofNat 32 (p.length * 256 + n.toNat) ∧
      (t.err = .badtree → leafNode (s.tree.read n.toNat) = false ∧ internalNode (s.tree.read n.toNat) = false) ∧
      (t.err = .depth → internalNode (s.tree.read n.toNat) = true ∧ p.length = 127) ∧
      (t.err = .dupsym → leafNode (s.tree.read n.toNat) = true ∧
        ∃ q, EarlierPath q p ∧ LeafAt s.tree r q (symbolField (s.tree.read n.toNat))) ∧
      (∀ q k, Reaches s.tree r q k → EarlierPath q p →
        leafNode (s.tree.read k.toNat) = true ∨ (internalNode (s.tree.read k.toNat) = true ∧ q.length < 127)) ∧
      ∀ q q' sym, EarlierPath q p → EarlierPath q' p → LeafAt s.tree r q sym → LeafAt s.tree r q' sym → q = q'

/-- R93: a root that is a leaf gets the empty code: LEN 0, ZLEN 1, CTCOUNT 1; PUTSYM of it then appends nothing. A
root with two leaves below it gives each a code of one bit. -/
def Obligations.RootLeafGetsEmptyCode : Prop :=
  (∀ (s : State) (r : NodeIndex), s.err = .noFault → s.bitlen ≤ s.bitcap →
    leafNode (s.tree.read r.toNat) = true →
    ∃ t, exec (.ctgen r) s = .next t ∧ t.err = .noFault ∧ t.ctv = true ∧ t.zlen = true ∧
      (∀ i : Nat, t.ct.find i = if i = (symbolField (s.tree.read r.toNat)).toNat then some [] else none) ∧
      portRead 0x00A t = 1 ∧ exec (.putsym (symbolField (s.tree.read r.toNat))) t = .next t) ∧
  ∀ (s : State) (r : NodeIndex) (l k : Word), s.err = .noFault → internalNode (s.tree.read r.toNat) = true →
    l = s.tree.read (leftField (s.tree.read r.toNat)).toNat →
    k = s.tree.read (rightField (s.tree.read r.toNat)).toNat →
    leafNode l = true → leafNode k = true → symbolField l ≠ symbolField k →
    ∃ t, exec (.ctgen r) s = .next t ∧ t.err = .noFault ∧ t.ctv = true ∧ t.zlen = false ∧
      ∀ i : Nat, t.ct.find i =
        if i = (symbolField l).toNat then some [false]
        else if i = (symbolField k).toNat then some [true] else none

/-- R92: a node without symbol, with both children, whose left child is itself makes a cycle: DEPTH at that node at
depth 127. -/
def Obligations.LeftCycleFaultsAtDepth127 : Prop :=
  ∀ (s : State) (r : NodeIndex), s.err = .noFault → internalNode (s.tree.read r.toNat) = true →
    leftField (s.tree.read r.toNat) = r →
    ∃ t, exec (.ctgen r) s = .next t ∧
      Faulted .depth (0x10000000 + r.setWidth 32) (BitVec.ofNat 32 (0x7F00 + r.toNat)) t

/-- R96 (d), (e): the outcome of CTGEN is a function of the tree alone: an image that holds the same nodes at other
places, in a state with any other contents, gives the same table, flags and cause; fields that R92 calls ignored (the
children of a leaf, the symbol of an internal node) may differ too. -/
def Obligations.CtgenIgnoresPlacement : Prop :=
  ∀ (s s' : State) (r : NodeIndex) (place : NodeIndex → NodeIndex), s.err = .noFault → s'.err = .noFault →
    (∀ p n, Reaches s.tree r p n → SameNode place (s.tree.read n.toNat) (s'.tree.read (place n).toNat)) →
    ∃ t t', exec (.ctgen r) s = .next t ∧ exec (.ctgen (place r)) s' = .next t' ∧
      t'.ct = t.ct ∧ t'.ctv = t.ctv ∧ t'.zlen = t.zlen ∧ t'.err = t.err

/-- R96 (a): `Walk` visits at most 129 * 128 nodes for every content of TREE. -/
def Obligations.CtgenVisitsAtMost16512 : Prop :=
  ∀ (tree : Memory) (r : NodeIndex), walkVisits tree Config.maxLen r [] [] ≤ 129 * 128

/-- R94: CTCLR unsets every entry and clears CTV and ZLEN, nothing else; every PUTSYM then faults NOCODE, and CTGEN
does what it would have done before. -/
def Obligations.CtclrUnsetsEveryEntry : Prop :=
  encode .ctclr = 0x11000000 ∧
  ∀ s : State, s.err = .noFault → ∃ t, exec .ctclr s = .next t ∧
    (∀ i : Nat, t.ct.find i = none) ∧ portRead 0x00A t = 0 ∧ t.ctv = false ∧ t.zlen = false ∧
    KeepsHost s t ∧ KeepsWindows s t ∧ KeepsFault s t ∧ KeepsTree s t ∧ KeepsBits s t ∧ KeepsBytes s t ∧
    t.nomark = s.nomark ∧ t.bpoison = s.bpoison ∧ t.padlen = s.padlen ∧
    (∀ sym : Symbol, ∃ u, exec (.putsym sym) t = .next u ∧ u.err = .nocode) ∧
    ∀ r : NodeIndex, exec (.ctgen r) t = exec (.ctgen r) s

/-- R95: TCLR clears TREE and nothing else; CTGEN then faults BADTREE at its root, depth 0. -/
def Obligations.TclrClearsTreeOnly : Prop :=
  encode .tclr = 0x12000000 ∧
  ∀ s : State, s.err = .noFault → ∃ t, exec .tclr s = .next t ∧
    (∀ i : Nat, t.tree.read i = 0) ∧
    KeepsHost s t ∧ KeepsWindows s t ∧ KeepsFault s t ∧ KeepsTable s t ∧ KeepsBits s t ∧ KeepsBytes s t ∧
    t.nomark = s.nomark ∧ t.bpoison = s.bpoison ∧ t.padlen = s.padlen ∧
    ∀ r : NodeIndex, ∃ u, exec (.ctgen r) t = .next u ∧
      Faulted .badtree (0x10000000 + r.setWidth 32) (r.setWidth 32) u

/-! ### Bit packer -/

/-- R100: BCLR empties BITBUF and clears BPOISON, nothing else. -/
def Obligations.BclrStartsBitString : Prop :=
  encode .bclr = 0x20000000 ∧
  ∀ s : State, s.err = .noFault → ∃ t, exec .bclr s = .next t ∧
    t.bitbuf = [] ∧ t.bitlen = 0 ∧ t.bpoison = false ∧ portRead 0x006 t = 0 ∧
    KeepsHost s t ∧ KeepsWindows s t ∧ KeepsFault s t ∧ KeepsTree s t ∧ KeepsTable s t ∧ KeepsBytes s t ∧
    t.nomark = s.nomark ∧ t.padlen = s.padlen

/-- R101: PUTCH: the character test, then the capacity test, then one bit appended; the poison outlives CLRERR, PUTCH
and PUTSYM. -/
def Obligations.PutchAppendsOneBit : Prop :=
  (∀ (i : Instr) (s t : State), i = .clrerr ∨ (∃ c, i = .putch c) ∨ (∃ sym, i = .putsym sym) →
    exec i s = .next t → s.bpoison = true → t.bpoison = true) ∧
  ∀ (c : Byte) (s : State), s.err = .noFault →
    encode (.putch c) = 0x21000000 + c.setWidth 32 ∧
    (c ≠ 0x30 → c ≠ 0x31 → ∃ t, exec (.putch c) s = .next t ∧
      Faulted .invalidBitCharacter (0x21000000 + c.setWidth 32) (c.setWidth 32) t ∧ t.bpoison = true ∧
      KeepsHost s t ∧ KeepsWindows s t ∧ KeepsTree s t ∧ KeepsTable s t ∧ KeepsBits s t ∧ KeepsBytes s t ∧
      t.nomark = s.nomark ∧ t.padlen = s.padlen) ∧
    (c = 0x30 ∨ c = 0x31 → s.bitlen = s.bitcap → ∃ t, exec (.putch c) s = .next t ∧
      Faulted .bitovf (0x21000000 + c.setWidth 32) (BitVec.ofNat 32 s.bitlen) t ∧
      KeepsHost s t ∧ KeepsWindows s t ∧ KeepsTree s t ∧ KeepsTable s t ∧ KeepsBits s t ∧ KeepsBytes s t ∧
      t.nomark = s.nomark ∧ t.bpoison = s.bpoison ∧ t.padlen = s.padlen) ∧
    (c = 0x30 ∨ c = 0x31 → s.bitlen ≠ s.bitcap → ∃ t, exec (.putch c) s = .next t ∧
      t.bitbuf = s.bitbuf ++ [decide (c = 0x31)] ∧ t.bitlen = s.bitlen + 1 ∧
      KeepsHost s t ∧ KeepsWindows s t ∧ KeepsFault s t ∧ KeepsTree s t ∧ KeepsTable s t ∧ KeepsBytes s t ∧
      t.nomark = s.nomark ∧ t.bpoison = s.bpoison ∧ t.padlen = s.padlen)

/-- R102: PUTSYM: the entry test, then the capacity test, then the whole code appended; with bit 7 of ARG set the
word is illegal. -/
def Obligations.PutsymAppendsWholeCode : Prop :=
  (∀ (a : Byte) (s : State), s.err = .noFault → 0x80 ≤ a.toNat →
    ∃ t, execWord (0x22000000 + a.setWidth 32) s = .next t ∧ Faulted .illcmd (0x22000000 + a.setWidth 32) 0 t) ∧
  ∀ (sym : Symbol) (s : State), s.err = .noFault →
    encode (.putsym sym) = 0x22000000 + sym.setWidth 32 ∧
    (s.ct.find sym.toNat = none → ∃ t, exec (.putsym sym) s = .next t ∧
      Faulted .nocode (0x22000000 + sym.setWidth 32) (sym.setWidth 32) t ∧
      KeepsHost s t ∧ KeepsWindows s t ∧ KeepsTree s t ∧ KeepsTable s t ∧ KeepsBits s t ∧ KeepsBytes s t ∧
      t.nomark = s.nomark ∧ t.bpoison = s.bpoison ∧ t.padlen = s.padlen) ∧
    ∀ code : Bits, s.ct.find sym.toNat = some code →
      (s.bitcap < s.bitlen + code.length → ∃ t, exec (.putsym sym) s = .next t ∧
        Faulted .bitovf (0x22000000 + sym.setWidth 32) (BitVec.ofNat 32 s.bitlen) t ∧
        KeepsHost s t ∧ KeepsWindows s t ∧ KeepsTree s t ∧ KeepsTable s t ∧ KeepsBits s t ∧ KeepsBytes s t ∧
        t.nomark = s.nomark ∧ t.bpoison = s.bpoison ∧ t.padlen = s.padlen) ∧
      (s.bitlen + code.length ≤ s.bitcap → ∃ t, exec (.putsym sym) s = .next t ∧
        t.bitbuf = s.bitbuf ++ code ∧ t.bitlen = s.bitlen + code.length ∧
        KeepsHost s t ∧ KeepsWindows s t ∧ KeepsFault s t ∧ KeepsTree s t ∧ KeepsTable s t ∧ KeepsBytes s t ∧
        t.nomark = s.nomark ∧ t.bpoison = s.bpoison ∧ t.padlen = s.padlen)

/-- R103, R69: PACK of a bit string that is not poisoned gives floor(L/8) + 1 bytes; bit 7-k of byte j is element
8j + k of `zeros(padding - 1) ++ "1" ++ BITBUF`; PADLEN is the padding; the bytes fit where the bits do. PACK of a
poisoned bit string faults InvalidBitCharacter with ERRINFO 0x100 and writes nothing. -/
def Obligations.PackWritesWireFormat : Prop :=
  encode .pack = 0x23000000 ∧
  (∀ (s : State) (padding : Nat), s.err = .noFault → s.bpoison = false → padding = 8 - s.bitlen % 8 →
    ∃ t, exec .pack s = .next t ∧ t.bytelen = s.bitlen / 8 + 1 ∧ t.padlen = BitVec.ofNat 32 padding ∧
      (∀ j k : Nat, j < t.bytelen → k < 8 → (t.bytebuf.getD j 0).getLsbD (7 - k) =
        (List.replicate (padding - 1) false ++ [true] ++ s.bitbuf).getD (8 * j + k) false) ∧
      (s.bitlen ≤ s.bitcap → t.bytelen ≤ s.bitcap / 8 + 1) ∧
      KeepsHost s t ∧ KeepsWindows s t ∧ KeepsFault s t ∧ KeepsTree s t ∧ KeepsTable s t ∧ KeepsBits s t ∧
      t.nomark = s.nomark ∧ t.bpoison = s.bpoison) ∧
  ∀ s : State, s.err = .noFault → s.bpoison = true → ∃ t, exec .pack s = .next t ∧
    Faulted .invalidBitCharacter 0x23000000 0x00000100 t ∧
    KeepsHost s t ∧ KeepsWindows s t ∧ KeepsTree s t ∧ KeepsTable s t ∧ KeepsBits s t ∧ KeepsBytes s t ∧
    t.nomark = s.nomark ∧ t.bpoison = s.bpoison ∧ t.padlen = s.padlen

/-- R104 (a) to (c), R68: BYTELEN after PACK is never 0 and 8 * BYTELEN = BITLEN + PADLEN; the first byte is not 0x00
and has exactly PADLEN - 1 leading zero bits. -/
def Obligations.PackedFirstByteCarriesPadding : Prop :=
  ∀ s t : State, s.err = .noFault → s.bpoison = false → exec .pack s = .next t →
    ∃ b rest, t.bytebuf = b :: rest ∧ b ≠ 0x00 ∧ 8 * t.bytelen = t.bitlen + t.padlen.toNat ∧
      1 ≤ t.padlen.toNat ∧ t.padlen.toNat ≤ 8 ∧
      2 ^ (8 - t.padlen.toNat) ≤ b.toNat ∧ b.toNat < 2 ^ (9 - t.padlen.toNat)

/-! ### Bit unpacker -/

/-- R110: YCLR empties BYTEBUF and nothing else. -/
def Obligations.YclrStartsByteSequence : Prop :=
  encode .yclr = 0x30000000 ∧
  ∀ s : State, s.err = .noFault → ∃ t, exec .yclr s = .next t ∧
    t.bytebuf = [] ∧ t.bytelen = 0 ∧ portRead 0x009 t = 0 ∧
    KeepsHost s t ∧ KeepsWindows s t ∧ KeepsFault s t ∧ KeepsTree s t ∧ KeepsTable s t ∧ KeepsBits s t ∧
    t.nomark = s.nomark ∧ t.bpoison = s.bpoison ∧ t.padlen = s.padlen

/-- R111: PUTBYTE: the capacity test with BYTECAP = floor(BITCAP / 8) + 1, then one byte appended. -/
def Obligations.PutbyteAppendsOneByte : Prop :=
  ∀ (b : Byte) (s : State), s.err = .noFault →
    encode (.putbyte b) = 0x31000000 + b.setWidth 32 ∧
    (s.bytelen = s.bitcap / 8 + 1 → ∃ t, exec (.putbyte b) s = .next t ∧
      Faulted .byteovf (0x31000000 + b.setWidth 32) (BitVec.ofNat 32 s.bytelen) t ∧
      KeepsHost s t ∧ KeepsWindows s t ∧ KeepsTree s t ∧ KeepsTable s t ∧ KeepsBits s t ∧ KeepsBytes s t ∧
      t.nomark = s.nomark ∧ t.bpoison = s.bpoison ∧ t.padlen = s.padlen) ∧
    (s.bytelen ≠ s.bitcap / 8 + 1 → ∃ t, exec (.putbyte b) s = .next t ∧
      t.bytebuf = s.bytebuf ++ [b] ∧ t.bytelen = s.bytelen + 1 ∧
      KeepsHost s t ∧ KeepsWindows s t ∧ KeepsFault s t ∧ KeepsTree s t ∧ KeepsTable s t ∧ KeepsBits s t ∧
      t.nomark = s.nomark ∧ t.bpoison = s.bpoison ∧ t.padlen = s.padlen)

/-- R112: how much of a byte sequence is marker is settled by `MarkerRule` for every byte sequence, one way. -/
def Obligations.MarkerRuleSettlesEverySequence : Prop :=
  ∀ bytes : List Byte, ∃ discard nomark, MarkerRule bytes discard nomark ∧
    markerScan (unpackBytes bytes) = (discard, nomark) ∧
    ∀ d n, MarkerRule bytes d n → d = discard ∧ n = nomark

/-- R112: UNPACK of a payload that fits: BITBUF is what follows the discarded bits, bit i of it bit
7 - (discard + i) mod 8 of byte floor((discard + i) / 8); of one that does not fit: BITOVF and nothing written, which
takes a full BYTEBUF. -/
def Obligations.UnpackDeliversPayload : Prop :=
  encode .unpack = 0x32000000 ∧
  (∀ (s : State) (discard : Nat), s.bytelen ≤ s.bitcap / 8 + 1 → s.bitcap < 8 * s.bytelen - discard →
    s.bytelen = s.bitcap / 8 + 1 ∧ discard < 8 - s.bitcap % 8) ∧
  ∀ (s : State) (discard : Nat) (nomark : Bool), s.err = .noFault → MarkerRule s.bytebuf discard nomark →
    (8 * s.bytelen - discard ≤ s.bitcap → ∃ t, exec .unpack s = .next t ∧
      t.bitlen = 8 * s.bytelen - discard ∧
      (∀ i : Nat, i < t.bitlen → t.bitbuf.getD i false =
        (s.bytebuf.getD ((discard + i) / 8) 0).getLsbD (7 - (discard + i) % 8)) ∧
      t.bpoison = false ∧ t.nomark = nomark ∧ t.padlen = BitVec.ofNat 32 discard ∧
      KeepsHost s t ∧ KeepsWindows s t ∧ KeepsFault s t ∧ KeepsTree s t ∧ KeepsTable s t ∧ KeepsBytes s t) ∧
    (s.bitcap < 8 * s.bytelen - discard → ∃ t, exec .unpack s = .next t ∧
      Faulted .bitovf 0x32000000 (BitVec.ofNat 32 (8 * s.bytelen - discard)) t ∧
      KeepsHost s t ∧ KeepsWindows s t ∧ KeepsTree s t ∧ KeepsTable s t ∧ KeepsBits s t ∧ KeepsBytes s t ∧
      t.nomark = s.nomark ∧ t.bpoison = s.bpoison ∧ t.padlen = s.padlen)

/-- R113 (a), R104 (e): PACK then UNPACK restores BITBUF, sets NOMARK to 0 and leaves PADLEN = 8 - (BITLEN mod 8). -/
def Obligations.UnpackAfterPackRestoresBits : Prop :=
  ∀ s : State, s.err = .noFault → s.bpoison = false → s.bitlen ≤ s.bitcap →
    ∃ t u, exec .pack s = .next t ∧ exec .unpack t = .next u ∧
      u.bitbuf = s.bitbuf ∧ u.bitlen = s.bitlen ∧ u.nomark = false ∧ u.err = .noFault ∧
      u.padlen = BitVec.ofNat 32 (8 - s.bitlen % 8)

/-- R113 (b), (c): UNPACK then PACK restores a byte sequence whose first byte is not 0x00 and whose payload fits;
with first byte 0x00 it becomes 0x01. -/
def Obligations.PackAfterUnpackRestoresBytes : Prop :=
  ∀ (s : State) (b : Byte) (rest : List Byte) (discard : Nat) (nomark : Bool), s.err = .noFault →
    s.bytebuf = b :: rest → MarkerRule s.bytebuf discard nomark → 8 * s.bytelen - discard ≤ s.bitcap →
    ∃ t u, exec .unpack s = .next t ∧ exec .pack t = .next u ∧ u.err = .noFault ∧
      u.bytebuf = (if b = 0x00 then 0x01 else b) :: rest

/-- R47: written twice at once with the same word, these commands leave the state that one write leaves. -/
def Obligations.TenCommandsAreIdempotent : Prop :=
  ∀ (i : Instr) (s t : State),
    i = .nop ∨ i = .clrerr ∨ i = .sreset ∨ (∃ r, i = .ctgen r) ∨ i = .ctclr ∨ i = .tclr ∨ i = .bclr ∨ i = .yclr ∨
      i = .pack ∨ i = .unpack →
    exec i s = .next t → exec i t = .next t

/-! ### Faults -/

/-- R150, R151, R152: which causes each command may raise from a state without a fault; the raising command's word is
in ERRCMD. -/
def Obligations.CausesByCommand : Prop :=
  ∀ (i : Instr) (s t : State), s.err = .noFault → exec i s = .next t → t.err ≠ .noFault →
    t.errcmd = encode i ∧
    ((∃ r, i = .ctgen r ∧ (t.err = .badtree ∨ t.err = .depth ∨ t.err = .dupsym)) ∨
     (∃ c, i = .putch c ∧ (t.err = .invalidBitCharacter ∨ t.err = .bitovf)) ∨
     (∃ sym, i = .putsym sym ∧ (t.err = .nocode ∨ t.err = .bitovf)) ∨
     (i = .pack ∧ t.err = .invalidBitCharacter) ∨ (∃ b, i = .putbyte b ∧ t.err = .byteovf) ∨
     (i = .unpack ∧ t.err = .bitovf))

/-- R153: besides ERR, ERRCMD and ERRINFO an illegal word changes nothing and a faulting command only this: PUTCH's
InvalidBitCharacter sets BPOISON, CTGEN's faults empty the table. -/
def Obligations.FaultingCommandLeavesTheRest : Prop :=
  (∀ (w : Word) (s : State), s.err = .noFault → wellFormedWord w = false →
    ∃ t, execWord w s = .next t ∧ t = { s with err := t.err, errcmd := t.errcmd, errinfo := t.errinfo }) ∧
  ∀ (i : Instr) (s t : State), s.err = .noFault → exec i s = .next t → t.err ≠ .noFault →
    KeepsHost s t ∧ KeepsWindows s t ∧ KeepsTree s t ∧ KeepsBits s t ∧ KeepsBytes s t ∧
    t.padlen = s.padlen ∧ t.nomark = s.nomark ∧
    ((∃ c, i = .putch c) ∧ t.err = .invalidBitCharacter → t.bpoison = true) ∧
    (¬((∃ c, i = .putch c) ∧ t.err = .invalidBitCharacter) → t.bpoison = s.bpoison) ∧
    ((∃ r, i = .ctgen r) → (∀ n : Nat, t.ct.find n = none) ∧ t.ctv = false ∧ t.zlen = false) ∧
    (¬(∃ r, i = .ctgen r) → KeepsTable s t)

/-- R152, R155: a standing fault is never overwritten: a step keeps ERR, ERRCMD and ERRINFO or clears all three. -/
def Obligations.StandingFaultIsNeverOverwritten : Prop :=
  ∀ s t : State, s.err ≠ .noFault → step s = .next t → KeepsFault s t ∨ Faulted .noFault 0 0 t

/-- R10, R17 to R20, R25, R26, R29, R32, R33: which commands write which state; none changes BITCAP (log 1) or the
host's lists (log 2). -/
def Obligations.OnlyTheseCommandsWrite : Prop :=
  ∀ (i : Instr) (s t : State), exec i s = .next t →
    KeepsHost s t ∧
    (t.tree ≠ s.tree → i = .tclr ∨ i = .sreset) ∧
    (t.ct ≠ s.ct ∨ t.ctv ≠ s.ctv ∨ t.zlen ≠ s.zlen → (∃ r, i = .ctgen r) ∨ i = .ctclr ∨ i = .sreset) ∧
    (t.bitbuf ≠ s.bitbuf →
      i = .bclr ∨ (∃ c, i = .putch c) ∨ (∃ sym, i = .putsym sym) ∨ i = .unpack ∨ i = .sreset) ∧
    (t.bytebuf ≠ s.bytebuf → i = .yclr ∨ (∃ b, i = .putbyte b) ∨ i = .pack ∨ i = .sreset) ∧
    (t.bitidx ≠ s.bitidx ∨ t.byteidx ≠ s.byteidx → i = .sreset) ∧
    (t.padlen ≠ s.padlen → i = .pack ∨ i = .unpack ∨ i = .sreset) ∧
    (t.nomark ≠ s.nomark → i = .unpack ∨ i = .sreset) ∧
    (t.bpoison ≠ s.bpoison → (∃ c, i = .putch c) ∨ i = .bclr ∨ i = .unpack ∨ i = .sreset)

/-! ### Invariants -/

/-- The state after reset meets both invariants, for every admitted BITCAP; State.reset has the model's (log 1). -/
def Obligations.ResetMeetsInvariants : Prop :=
  (∀ bitcap : Nat, 8 ≤ bitcap → bitcap ≤ 2 ^ 31 →
    StateInv (State.resetWith bitcap) ∧ TableInv (State.resetWith bitcap)) ∧
  StateInv State.reset ∧ TableInv State.reset

/-- R12, R14 to R19, R23, R26, R30, R32, R33: every step keeps the bounds of the state, and the canonical forms that
the model gives to the lists TREE (log 4) and CT (log 6). -/
def Obligations.StepKeepsStateInv : Prop := ∀ s t : State, StateInv s → step s = .next t → StateInv t

/-- R14, R31, R96 (b), (c): every step keeps the code table complete and prefix-free while CTV is set, and CTV and
ZLEN true to it. -/
def Obligations.StepKeepsTableInv : Prop := ∀ s t : State, TableInv s → step s = .next t → TableInv t

/-! ### Environment, assembler -/

/-- R127, R91: after a CTGEN whose root is no leaf, the decode walk over the concatenated codes of valid symbols
gives the symbols back. On an image whose leaves have stray child flags, which CTGEN takes as leaves (R92) and R28 does
not call well-formed, R127 gives the walk no result; that the walk runs there is the model's choice (log 14). -/
def Obligations.DecodeWalkInvertsCodes : Prop :=
  ∀ (s t : State) (r : NodeIndex) (syms : List Symbol) (codes : List Bits), s.err = .noFault →
    exec (.ctgen r) s = .next t → t.err = .noFault → t.zlen = false →
    syms.map (fun sym => t.ct.find sym.toNat) = codes.map some →
    decodeWalk t r codes.flatten = .ok syms

/-- R121: with two or more distinct symbols the Sorted Leaf List holds one record per symbol of the source, weight its
count (the model's form of a weight, log 12), strictly ascending by weight and then by symbol code. -/
def Obligations.LeafListIsSortedAndComplete : Prop :=
  ∀ src : List Symbol, (∃ a ∈ src, ∃ b ∈ src, a ≠ b) →
    (∀ (sym : Symbol) (w : Nat), (sym, w) ∈ sortedLeafList src ↔ sym ∈ src ∧ w = src.count sym) ∧
    (sortedLeafList src).Pairwise fun a b => a.2 < b.2 ∨ (a.2 = b.2 ∧ a.1.toNat < b.1.toNat)

/-- R122: one distinct symbol c, k times: the record of c with the whole weight, then the synthetic record of
(c + 1) mod 128 with weight 0; weights as counts (log 12). -/
def Obligations.SingletonListHasSyntheticLeaf : Prop :=
  ∀ (c : Symbol) (k : Nat), 1 ≤ k →
    ∃ c' : Symbol, sortedLeafList (List.replicate k c) = [(c, k), (c', 0)] ∧ c'.toNat = (c.toNat + 1) % 128

/-- R124, R125: the builder gives every list of m >= 2 records a tree with those symbols on its leaves, 2m - 1 nodes
that fill the places 0 to 2m - 2, the leaf of record i at place i, the node of pass k (counted from 0) at place m + k
with the two trees selected in that pass as children, in the order of `Select`, and the root at place 2m - 2. Weights
are counts (log 12). -/
def Obligations.BuilderPlacesEveryRecord : Prop :=
  ∀ records : List LeafRecord, 2 ≤ records.length →
    ∃ (t : HTree) (wt : Nat → Nat) (c : List Nat), buildTree records = some t ∧
      (treeLeaves t).Perm (records.map Prod.fst) ∧ treePlace t = 2 * records.length - 2 ∧
      ((treeImage t).map Prod.fst).Perm (List.range (2 * records.length - 1)) ∧
      SelectionOrder records wt c ∧
      (∀ i sym w, records[i]? = some (sym, w) → (i, leafWord sym) ∈ treeImage t) ∧
      ∀ k < records.length - 1, (records.length + k,
        internalWord (BitVec.ofNat 8 (c.getD (2 * k) 0)) (BitVec.ofNat 8 (c.getD (2 * k + 1) 0))) ∈ treeImage t

/-- R126, R129: every symbol of a source that is not empty has a code, the path to its leaf in the source's tree. Where
the codes together fit in BITCAP the source encodes, no command faults and the bit string is their concatenation in
source order; where they do not the encode is aborted by BITOVF. The model's choices: log 13, log 19. -/
def Obligations.NonemptySourceEncodes : Prop :=
  ∀ (src : List Symbol) (s : State), src ≠ [] →
    ∃ (tree : HTree) (codes : List Bits), treeOfSource src = .ok tree ∧
      List.Forall₂ (fun sym code => (sym, code) ∈ leafPaths tree) src codes ∧
      ((codes.map List.length).sum ≤ s.bitcap → s.bitcap ≤ 2 ^ 31 →
        ∃ bytes t, encodeSource src s = .ok (bytes, t) ∧ t.err = .noFault ∧ bytes = t.bytebuf ∧
          t.bitbuf = codes.flatten) ∧
      (s.bitcap < (codes.map List.length).sum → encodeSource src s = .error (.blockFault .bitovf))

/-- R131: the round-trip law: what a source encodes to decodes, on any instance of the same BITCAP, to the source. The
model's choices: log 13, log 14, log 19. -/
def Obligations.EncodeDecodeRoundTrip : Prop :=
  ∀ (src : List Symbol) (s t u : State) (bytes : List Byte), s.bitcap ≤ 2 ^ 31 → u.bitcap = s.bitcap →
    encodeSource src s = .ok (bytes, t) → ∃ v, decodeBytes src bytes u = .ok (src, v)

/-- R70, R71: the word of an assembled command statement is the command's encoding; an operand that is missing,
superfluous or outside its range, and an unknown mnemonic, are assembly errors; what the pseudo-statements expand to.
The statements are those of the model's reader, and that a number of WR, RD or NODE which its field cannot hold is an
assembly error is the model's choice (log 18). -/
def Obligations.AssembledWordsAreEncodings : Prop :=
  (∀ i : Instr, i ∈ [.nop, .clrerr, .sreset, .ctclr, .tclr, .bclr, .pack, .yclr, .unpack] →
    commandTxn i.mnemonic.toList none = some (cmd i) ∧ ∀ n : Nat, commandTxn i.mnemonic.toList (some n) = none) ∧
  (∀ n : Nat, commandTxn "CTGEN".toList (some n) =
    if n < 256 then some (cmd (.ctgen (BitVec.ofNat 8 n))) else none) ∧
  (∀ n : Nat, commandTxn "PUTCH".toList (some n) =
    if n < 256 then some (cmd (.putch (BitVec.ofNat 8 n))) else none) ∧
  (∀ n : Nat, commandTxn "PUTSYM".toList (some n) =
    if n < 128 then some (cmd (.putsym (BitVec.ofNat 7 n))) else none) ∧
  (∀ n : Nat, commandTxn "PUTBYTE".toList (some n) =
    if n < 256 then some (cmd (.putbyte (BitVec.ofNat 8 n))) else none) ∧
  (∀ m ∈ ["CTGEN", "PUTCH", "PUTSYM", "PUTBYTE"], commandTxn m.toList none = none) ∧
  (∀ (m : List Char) (o : Option Nat), m ∉ opcodeTable.map (fun r => r.mnemonic.toList) → commandTxn m o = none) ∧
  (∀ (m : List Char) (o : Option Nat), expandStmt (.command m o) = (commandTxn m o).map fun t => [t]) ∧
  (∀ wa v : Nat, expandStmt (.wr wa v) =
    if wa < 2048 ∧ v < 2 ^ 32 then some [.write (BitVec.ofNat 11 wa) (BitVec.ofNat 32 v)] else none) ∧
  (∀ (wa : Nat) (x : Option Nat), expandStmt (.rd wa x) =
    if wa < 2048 then some [.read (BitVec.ofNat 11 wa)] else none) ∧
  (∀ i s : Nat, expandStmt (.nodeLeaf i s) =
    if i < 256 ∧ s < 128 then some [.write (treeWordIndex i) (leafWord (BitVec.ofNat 7 s))] else none) ∧
  (∀ i l r : Nat, expandStmt (.nodeInt i l r) =
    if i < 256 ∧ l < 256 ∧ r < 256 then
      some [.write (treeWordIndex i) (internalWord (BitVec.ofNat 8 l) (BitVec.ofNat 8 r))]
    else none) ∧
  (∀ cs : List Nat, expandStmt (.putstr cs) =
    if ∀ c ∈ cs, c < 256 then some (cs.map fun c => cmd (.putch (BitVec.ofNat 8 c))) else none) ∧
  (∀ cs : List Nat, expandStmt (.putsyms cs) =
    if ∀ c ∈ cs, c < 128 then some (cs.map fun c => cmd (.putsym (BitVec.ofNat 7 c))) else none) ∧
  ∀ bs : List Nat, expandStmt (.putbytes bs) =
    if ∀ b ∈ bs, b < 256 then some (bs.map fun b => cmd (.putbyte (BitVec.ofNat 8 b))) else none
end

