-- ==== Sys2Proof/Laws/Bits.lean ====
section
/-! SUPPORT. Bit sequences, bytes and words: lengths, single bits, and that packing and unpacking are inverse on whole
bytes (20_memory.md rule R45). -/

namespace Sys2Proof.Machine

theorem natOfBits_lt (bs : Bits) : natOfBits bs < 2 ^ bs.length := by
  induction bs with
  | nil => simp [natOfBits]
  | cons b rest ih =>
    simp only [natOfBits, List.length_cons, pow_succ]
    cases b <;> simp <;> omega

/-- Bit `i` from below is element `length - 1 - i` of the sequence. -/
theorem testBit_natOfBits (bs : Bits) (i : Nat) :
    (natOfBits bs).testBit i = if i < bs.length then bs.getD (bs.length - 1 - i) false else false := by
  induction bs with
  | nil => simp [natOfBits]
  | cons b rest ih =>
    have hlt := natOfBits_lt rest
    simp only [natOfBits, List.length_cons]
    rw [mul_comm, Nat.testBit_two_pow_mul_add _ hlt, ih]
    by_cases h : i < rest.length
    · have h3 : rest.length + 1 - 1 - i = (rest.length - 1 - i) + 1 := by omega
      have h4 : i < rest.length + 1 := by omega
      rw [if_pos h, if_pos h, if_pos h4, h3, List.getD_cons_succ]
    · rw [if_neg h]
      by_cases h2 : i = rest.length
      · subst h2; cases b <;> simp
      · have h5 : ¬ i < rest.length + 1 := by omega
        rw [if_neg h5]
        have : i - rest.length ≠ 0 := by omega
        obtain ⟨k, hk⟩ := Nat.exists_eq_succ_of_ne_zero this
        cases b <;> simp [hk, Nat.testBit_succ]

theorem length_bitsFrom (bs : Bits) (start n : Nat) : (bitsFrom bs start n).length = n := by simp [bitsFrom]

theorem getD_bitsFrom (bs : Bits) (start n k : Nat) :
    (bitsFrom bs start n).getD k false = if k < n then bs.getD (start + k) false else false := by
  simp only [bitsFrom, List.getD_eq_getElem?_getD, List.getElem?_map]
  split_ifs with h
  · simp [List.getElem?_range h]
  · simp [List.getElem?_eq_none (l := List.range n) (by simpa using h)]

theorem length_byteMsb (b : Byte) : (byteMsb b).length = 8 := by simp [byteMsb]

theorem getD_byteMsb (b : Byte) {k : Nat} (h : k < 8) : (byteMsb b).getD k false = b.getLsbD (7 - k) := by
  simp [byteMsb, List.getElem?_range h]

theorem msbByte_byteMsb (b : Byte) : msbByte (byteMsb b) = b := by
  revert b; decide +kernel

theorem byteMsb_msbByte_eight (a b c d e f g h : Bool) :
    byteMsb (msbByte [a, b, c, d, e, f, g, h]) = [a, b, c, d, e, f, g, h] := by
  revert a b c d e f g h; decide +kernel

/-- Unpacking what was packed gives the bits back, for a whole number of bytes. -/
theorem unpackBytes_packBytes (bs : Bits) (h : bs.length % 8 = 0) : unpackBytes (packBytes bs) = bs := by
  fun_induction packBytes bs with
  | case1 a b c d e f g h' rest ih =>
    have : rest.length % 8 = 0 := by simp only [List.length_cons] at h; omega
    have ih := ih this
    simp only [unpackBytes, List.flatMap_cons, byteMsb_msbByte_eight] at ih ⊢
    simp [ih]
  | case2 bs hne =>
    match bs, hne with
    | [], _ => rfl
    | [_], _ => simp at h
    | [_, _], _ => simp at h
    | [_, _, _], _ => simp at h
    | [_, _, _, _], _ => simp at h
    | [_, _, _, _, _], _ => simp at h
    | [_, _, _, _, _, _], _ => simp at h
    | [_, _, _, _, _, _, _], _ => simp at h
    | a :: b :: c :: d :: e :: f :: g :: h' :: rest, hne => exact absurd rfl (hne a b c d e f g h' rest)

theorem byteMsb_eq (b : Byte) : byteMsb b =
    [b.getLsbD 7, b.getLsbD 6, b.getLsbD 5, b.getLsbD 4, b.getLsbD 3, b.getLsbD 2, b.getLsbD 1, b.getLsbD 0] := rfl

/-- Packing what was unpacked gives the bytes back. -/
theorem packBytes_unpackBytes (bytes : List Byte) : packBytes (unpackBytes bytes) = bytes := by
  induction bytes with
  | nil => rfl
  | cons b rest ih =>
    simp only [unpackBytes, List.flatMap_cons] at ih ⊢
    have hb := msbByte_byteMsb b
    rw [byteMsb_eq] at hb ⊢
    simp only [List.cons_append, List.nil_append, packBytes, ih, hb]

theorem length_unpackBytes (bytes : List Byte) : (unpackBytes bytes).length = 8 * bytes.length := by
  induction bytes with
  | nil => rfl
  | cons b rest ih =>
    simp only [unpackBytes, List.flatMap_cons, List.length_append, length_byteMsb, List.length_cons] at ih ⊢
    omega

theorem length_packBytes (bs : Bits) : (packBytes bs).length = bs.length / 8 := by
  fun_induction packBytes bs with
  | case1 a b c d e f g h rest ih => simp only [List.length_cons, ih]; omega
  | case2 bs hne =>
    match bs, hne with
    | [], _ => rfl
    | [_], _ => simp
    | [_, _], _ => simp
    | [_, _, _], _ => simp
    | [_, _, _, _], _ => simp
    | [_, _, _, _, _], _ => simp
    | [_, _, _, _, _, _], _ => simp
    | [_, _, _, _, _, _, _], _ => simp
    | a :: b :: c :: d :: e :: f :: g :: h' :: rest, hne => exact absurd rfl (hne a b c d e f g h' rest)

/-- Bit `k` of byte `j` of the packed sequence. -/
theorem getD_unpackBytes (bytes : List Byte) (j k : Nat) (hk : k < 8) :
    (unpackBytes bytes).getD (8 * j + k) false = (bytes.getD j 0).getLsbD (7 - k) := by
  induction bytes generalizing j with
  | nil => simp [unpackBytes]
  | cons b rest ih =>
    simp only [unpackBytes, List.flatMap_cons] at ih ⊢
    cases j with
    | zero =>
      rw [List.getD_append _ _ _ _ (by rw [length_byteMsb]; omega)]
      simpa using getD_byteMsb b hk
    | succ j =>
      rw [List.getD_append_right _ _ _ _ (by rw [length_byteMsb]; omega), length_byteMsb,
        show 8 * (j + 1) + k - 8 = 8 * j + k by omega, ih]
      simp

/-- The padded string has a whole number of bytes: `floor(L / 8) + 1` (00_scope.md rule R38). -/
theorem length_withMarker (bs : Bits) : (withMarker bs).length = 8 * (bs.length / 8 + 1) := by
  simp only [withMarker, zeros, paddingOf, List.length_append, List.length_replicate, List.length_cons]
  omega

end Sys2Proof.Machine
end

