-- ==== Sys2Proof/Laws/State.lean ====
section
/-! SUPPORT. One lemma per field per named update of State, each true by rfl, so that no proof unfolds a record
update. -/

namespace Sys2Proof.Machine

/-! ### raise -/

@[simp] theorem raise_bitcap (w : Word) (c : Cause) (info : Word) (s : State) : (raise w c info s).bitcap = s.bitcap := rfl
@[simp] theorem raise_err (w : Word) (c : Cause) (info : Word) (s : State) : (raise w c info s).err = c := rfl
@[simp] theorem raise_ctv (w : Word) (c : Cause) (info : Word) (s : State) : (raise w c info s).ctv = s.ctv := rfl
@[simp] theorem raise_zlen (w : Word) (c : Cause) (info : Word) (s : State) : (raise w c info s).zlen = s.zlen := rfl
@[simp] theorem raise_nomark (w : Word) (c : Cause) (info : Word) (s : State) : (raise w c info s).nomark = s.nomark := rfl
@[simp] theorem raise_bpoison (w : Word) (c : Cause) (info : Word) (s : State) : (raise w c info s).bpoison = s.bpoison := rfl
@[simp] theorem raise_errcmd (w : Word) (c : Cause) (info : Word) (s : State) : (raise w c info s).errcmd = w := rfl
@[simp] theorem raise_errinfo (w : Word) (c : Cause) (info : Word) (s : State) : (raise w c info s).errinfo = info := rfl
@[simp] theorem raise_bitidx (w : Word) (c : Cause) (info : Word) (s : State) : (raise w c info s).bitidx = s.bitidx := rfl
@[simp] theorem raise_byteidx (w : Word) (c : Cause) (info : Word) (s : State) : (raise w c info s).byteidx = s.byteidx := rfl
@[simp] theorem raise_padlen (w : Word) (c : Cause) (info : Word) (s : State) : (raise w c info s).padlen = s.padlen := rfl
@[simp] theorem raise_tree (w : Word) (c : Cause) (info : Word) (s : State) : (raise w c info s).tree = s.tree := rfl
@[simp] theorem raise_ct (w : Word) (c : Cause) (info : Word) (s : State) : (raise w c info s).ct = s.ct := rfl
@[simp] theorem raise_bitbuf (w : Word) (c : Cause) (info : Word) (s : State) : (raise w c info s).bitbuf = s.bitbuf := rfl
@[simp] theorem raise_bytebuf (w : Word) (c : Cause) (info : Word) (s : State) : (raise w c info s).bytebuf = s.bytebuf := rfl
@[simp] theorem raise_pending (w : Word) (c : Cause) (info : Word) (s : State) : (raise w c info s).pending = s.pending := rfl
@[simp] theorem raise_replies (w : Word) (c : Cause) (info : Word) (s : State) : (raise w c info s).replies = s.replies := rfl

/-! ### clearFault -/

@[simp] theorem clearFault_bitcap (s : State) : (clearFault s).bitcap = s.bitcap := rfl
@[simp] theorem clearFault_err (s : State) : (clearFault s).err = .noFault := rfl
@[simp] theorem clearFault_ctv (s : State) : (clearFault s).ctv = s.ctv := rfl
@[simp] theorem clearFault_zlen (s : State) : (clearFault s).zlen = s.zlen := rfl
@[simp] theorem clearFault_nomark (s : State) : (clearFault s).nomark = s.nomark := rfl
@[simp] theorem clearFault_bpoison (s : State) : (clearFault s).bpoison = s.bpoison := rfl
@[simp] theorem clearFault_errcmd (s : State) : (clearFault s).errcmd = 0 := rfl
@[simp] theorem clearFault_errinfo (s : State) : (clearFault s).errinfo = 0 := rfl
@[simp] theorem clearFault_bitidx (s : State) : (clearFault s).bitidx = s.bitidx := rfl
@[simp] theorem clearFault_byteidx (s : State) : (clearFault s).byteidx = s.byteidx := rfl
@[simp] theorem clearFault_padlen (s : State) : (clearFault s).padlen = s.padlen := rfl
@[simp] theorem clearFault_tree (s : State) : (clearFault s).tree = s.tree := rfl
@[simp] theorem clearFault_ct (s : State) : (clearFault s).ct = s.ct := rfl
@[simp] theorem clearFault_bitbuf (s : State) : (clearFault s).bitbuf = s.bitbuf := rfl
@[simp] theorem clearFault_bytebuf (s : State) : (clearFault s).bytebuf = s.bytebuf := rfl
@[simp] theorem clearFault_pending (s : State) : (clearFault s).pending = s.pending := rfl
@[simp] theorem clearFault_replies (s : State) : (clearFault s).replies = s.replies := rfl

/-! ### clearTable -/

@[simp] theorem clearTable_bitcap (s : State) : (clearTable s).bitcap = s.bitcap := rfl
@[simp] theorem clearTable_err (s : State) : (clearTable s).err = s.err := rfl
@[simp] theorem clearTable_ctv (s : State) : (clearTable s).ctv = false := rfl
@[simp] theorem clearTable_zlen (s : State) : (clearTable s).zlen = false := rfl
@[simp] theorem clearTable_nomark (s : State) : (clearTable s).nomark = s.nomark := rfl
@[simp] theorem clearTable_bpoison (s : State) : (clearTable s).bpoison = s.bpoison := rfl
@[simp] theorem clearTable_errcmd (s : State) : (clearTable s).errcmd = s.errcmd := rfl
@[simp] theorem clearTable_errinfo (s : State) : (clearTable s).errinfo = s.errinfo := rfl
@[simp] theorem clearTable_bitidx (s : State) : (clearTable s).bitidx = s.bitidx := rfl
@[simp] theorem clearTable_byteidx (s : State) : (clearTable s).byteidx = s.byteidx := rfl
@[simp] theorem clearTable_padlen (s : State) : (clearTable s).padlen = s.padlen := rfl
@[simp] theorem clearTable_tree (s : State) : (clearTable s).tree = s.tree := rfl
@[simp] theorem clearTable_ct (s : State) : (clearTable s).ct = [] := rfl
@[simp] theorem clearTable_bitbuf (s : State) : (clearTable s).bitbuf = s.bitbuf := rfl
@[simp] theorem clearTable_bytebuf (s : State) : (clearTable s).bytebuf = s.bytebuf := rfl
@[simp] theorem clearTable_pending (s : State) : (clearTable s).pending = s.pending := rfl
@[simp] theorem clearTable_replies (s : State) : (clearTable s).replies = s.replies := rfl

/-! ### resetBlock -/

@[simp] theorem resetBlock_bitcap (s : State) : (resetBlock s).bitcap = s.bitcap := rfl
@[simp] theorem resetBlock_err (s : State) : (resetBlock s).err = .noFault := rfl
@[simp] theorem resetBlock_ctv (s : State) : (resetBlock s).ctv = false := rfl
@[simp] theorem resetBlock_zlen (s : State) : (resetBlock s).zlen = false := rfl
@[simp] theorem resetBlock_nomark (s : State) : (resetBlock s).nomark = false := rfl
@[simp] theorem resetBlock_bpoison (s : State) : (resetBlock s).bpoison = false := rfl
@[simp] theorem resetBlock_errcmd (s : State) : (resetBlock s).errcmd = 0 := rfl
@[simp] theorem resetBlock_errinfo (s : State) : (resetBlock s).errinfo = 0 := rfl
@[simp] theorem resetBlock_bitidx (s : State) : (resetBlock s).bitidx = 0 := rfl
@[simp] theorem resetBlock_byteidx (s : State) : (resetBlock s).byteidx = 0 := rfl
@[simp] theorem resetBlock_padlen (s : State) : (resetBlock s).padlen = 0 := rfl
@[simp] theorem resetBlock_tree (s : State) : (resetBlock s).tree = [] := rfl
@[simp] theorem resetBlock_ct (s : State) : (resetBlock s).ct = [] := rfl
@[simp] theorem resetBlock_bitbuf (s : State) : (resetBlock s).bitbuf = [] := rfl
@[simp] theorem resetBlock_bytebuf (s : State) : (resetBlock s).bytebuf = [] := rfl
@[simp] theorem resetBlock_pending (s : State) : (resetBlock s).pending = s.pending := rfl
@[simp] theorem resetBlock_replies (s : State) : (resetBlock s).replies = s.replies := rfl

/-! ### appendBits -/

@[simp] theorem appendBits_bitcap (bits : Bits) (s : State) : (appendBits bits s).bitcap = s.bitcap := rfl
@[simp] theorem appendBits_err (bits : Bits) (s : State) : (appendBits bits s).err = s.err := rfl
@[simp] theorem appendBits_ctv (bits : Bits) (s : State) : (appendBits bits s).ctv = s.ctv := rfl
@[simp] theorem appendBits_zlen (bits : Bits) (s : State) : (appendBits bits s).zlen = s.zlen := rfl
@[simp] theorem appendBits_nomark (bits : Bits) (s : State) : (appendBits bits s).nomark = s.nomark := rfl
@[simp] theorem appendBits_bpoison (bits : Bits) (s : State) : (appendBits bits s).bpoison = s.bpoison := rfl
@[simp] theorem appendBits_errcmd (bits : Bits) (s : State) : (appendBits bits s).errcmd = s.errcmd := rfl
@[simp] theorem appendBits_errinfo (bits : Bits) (s : State) : (appendBits bits s).errinfo = s.errinfo := rfl
@[simp] theorem appendBits_bitidx (bits : Bits) (s : State) : (appendBits bits s).bitidx = s.bitidx := rfl
@[simp] theorem appendBits_byteidx (bits : Bits) (s : State) : (appendBits bits s).byteidx = s.byteidx := rfl
@[simp] theorem appendBits_padlen (bits : Bits) (s : State) : (appendBits bits s).padlen = s.padlen := rfl
@[simp] theorem appendBits_tree (bits : Bits) (s : State) : (appendBits bits s).tree = s.tree := rfl
@[simp] theorem appendBits_ct (bits : Bits) (s : State) : (appendBits bits s).ct = s.ct := rfl
@[simp] theorem appendBits_bitbuf (bits : Bits) (s : State) : (appendBits bits s).bitbuf = s.bitbuf ++ bits := rfl
@[simp] theorem appendBits_bytebuf (bits : Bits) (s : State) : (appendBits bits s).bytebuf = s.bytebuf := rfl
@[simp] theorem appendBits_pending (bits : Bits) (s : State) : (appendBits bits s).pending = s.pending := rfl
@[simp] theorem appendBits_replies (bits : Bits) (s : State) : (appendBits bits s).replies = s.replies := rfl

/-! ### appendByte -/

@[simp] theorem appendByte_bitcap (b : Byte) (s : State) : (appendByte b s).bitcap = s.bitcap := rfl
@[simp] theorem appendByte_err (b : Byte) (s : State) : (appendByte b s).err = s.err := rfl
@[simp] theorem appendByte_ctv (b : Byte) (s : State) : (appendByte b s).ctv = s.ctv := rfl
@[simp] theorem appendByte_zlen (b : Byte) (s : State) : (appendByte b s).zlen = s.zlen := rfl
@[simp] theorem appendByte_nomark (b : Byte) (s : State) : (appendByte b s).nomark = s.nomark := rfl
@[simp] theorem appendByte_bpoison (b : Byte) (s : State) : (appendByte b s).bpoison = s.bpoison := rfl
@[simp] theorem appendByte_errcmd (b : Byte) (s : State) : (appendByte b s).errcmd = s.errcmd := rfl
@[simp] theorem appendByte_errinfo (b : Byte) (s : State) : (appendByte b s).errinfo = s.errinfo := rfl
@[simp] theorem appendByte_bitidx (b : Byte) (s : State) : (appendByte b s).bitidx = s.bitidx := rfl
@[simp] theorem appendByte_byteidx (b : Byte) (s : State) : (appendByte b s).byteidx = s.byteidx := rfl
@[simp] theorem appendByte_padlen (b : Byte) (s : State) : (appendByte b s).padlen = s.padlen := rfl
@[simp] theorem appendByte_tree (b : Byte) (s : State) : (appendByte b s).tree = s.tree := rfl
@[simp] theorem appendByte_ct (b : Byte) (s : State) : (appendByte b s).ct = s.ct := rfl
@[simp] theorem appendByte_bitbuf (b : Byte) (s : State) : (appendByte b s).bitbuf = s.bitbuf := rfl
@[simp] theorem appendByte_bytebuf (b : Byte) (s : State) : (appendByte b s).bytebuf = s.bytebuf ++ [b] := rfl
@[simp] theorem appendByte_pending (b : Byte) (s : State) : (appendByte b s).pending = s.pending := rfl
@[simp] theorem appendByte_replies (b : Byte) (s : State) : (appendByte b s).replies = s.replies := rfl

/-! ### reply -/

@[simp] theorem reply_bitcap (v : Word) (s : State) : (reply v s).bitcap = s.bitcap := rfl
@[simp] theorem reply_err (v : Word) (s : State) : (reply v s).err = s.err := rfl
@[simp] theorem reply_ctv (v : Word) (s : State) : (reply v s).ctv = s.ctv := rfl
@[simp] theorem reply_zlen (v : Word) (s : State) : (reply v s).zlen = s.zlen := rfl
@[simp] theorem reply_nomark (v : Word) (s : State) : (reply v s).nomark = s.nomark := rfl
@[simp] theorem reply_bpoison (v : Word) (s : State) : (reply v s).bpoison = s.bpoison := rfl
@[simp] theorem reply_errcmd (v : Word) (s : State) : (reply v s).errcmd = s.errcmd := rfl
@[simp] theorem reply_errinfo (v : Word) (s : State) : (reply v s).errinfo = s.errinfo := rfl
@[simp] theorem reply_bitidx (v : Word) (s : State) : (reply v s).bitidx = s.bitidx := rfl
@[simp] theorem reply_byteidx (v : Word) (s : State) : (reply v s).byteidx = s.byteidx := rfl
@[simp] theorem reply_padlen (v : Word) (s : State) : (reply v s).padlen = s.padlen := rfl
@[simp] theorem reply_tree (v : Word) (s : State) : (reply v s).tree = s.tree := rfl
@[simp] theorem reply_ct (v : Word) (s : State) : (reply v s).ct = s.ct := rfl
@[simp] theorem reply_bitbuf (v : Word) (s : State) : (reply v s).bitbuf = s.bitbuf := rfl
@[simp] theorem reply_bytebuf (v : Word) (s : State) : (reply v s).bytebuf = s.bytebuf := rfl
@[simp] theorem reply_pending (v : Word) (s : State) : (reply v s).pending = s.pending := rfl
@[simp] theorem reply_replies (v : Word) (s : State) : (reply v s).replies = s.replies ++ [v] := rfl

/-! ### issue -/

@[simp] theorem issue_bitcap (rest : List Txn) (s : State) : (issue rest s).bitcap = s.bitcap := rfl
@[simp] theorem issue_err (rest : List Txn) (s : State) : (issue rest s).err = s.err := rfl
@[simp] theorem issue_ctv (rest : List Txn) (s : State) : (issue rest s).ctv = s.ctv := rfl
@[simp] theorem issue_zlen (rest : List Txn) (s : State) : (issue rest s).zlen = s.zlen := rfl
@[simp] theorem issue_nomark (rest : List Txn) (s : State) : (issue rest s).nomark = s.nomark := rfl
@[simp] theorem issue_bpoison (rest : List Txn) (s : State) : (issue rest s).bpoison = s.bpoison := rfl
@[simp] theorem issue_errcmd (rest : List Txn) (s : State) : (issue rest s).errcmd = s.errcmd := rfl
@[simp] theorem issue_errinfo (rest : List Txn) (s : State) : (issue rest s).errinfo = s.errinfo := rfl
@[simp] theorem issue_bitidx (rest : List Txn) (s : State) : (issue rest s).bitidx = s.bitidx := rfl
@[simp] theorem issue_byteidx (rest : List Txn) (s : State) : (issue rest s).byteidx = s.byteidx := rfl
@[simp] theorem issue_padlen (rest : List Txn) (s : State) : (issue rest s).padlen = s.padlen := rfl
@[simp] theorem issue_tree (rest : List Txn) (s : State) : (issue rest s).tree = s.tree := rfl
@[simp] theorem issue_ct (rest : List Txn) (s : State) : (issue rest s).ct = s.ct := rfl
@[simp] theorem issue_bitbuf (rest : List Txn) (s : State) : (issue rest s).bitbuf = s.bitbuf := rfl
@[simp] theorem issue_bytebuf (rest : List Txn) (s : State) : (issue rest s).bytebuf = s.bytebuf := rfl
@[simp] theorem issue_pending (rest : List Txn) (s : State) : (issue rest s).pending = rest := rfl
@[simp] theorem issue_replies (rest : List Txn) (s : State) : (issue rest s).replies = s.replies := rfl

/-! ### placeCommand -/

@[simp] theorem placeCommand_bitcap (v : Word) (s : State) : (placeCommand v s).bitcap = s.bitcap := rfl
@[simp] theorem placeCommand_err (v : Word) (s : State) : (placeCommand v s).err = s.err := rfl
@[simp] theorem placeCommand_ctv (v : Word) (s : State) : (placeCommand v s).ctv = s.ctv := rfl
@[simp] theorem placeCommand_zlen (v : Word) (s : State) : (placeCommand v s).zlen = s.zlen := rfl
@[simp] theorem placeCommand_nomark (v : Word) (s : State) : (placeCommand v s).nomark = s.nomark := rfl
@[simp] theorem placeCommand_bpoison (v : Word) (s : State) : (placeCommand v s).bpoison = s.bpoison := rfl
@[simp] theorem placeCommand_errcmd (v : Word) (s : State) : (placeCommand v s).errcmd = s.errcmd := rfl
@[simp] theorem placeCommand_errinfo (v : Word) (s : State) : (placeCommand v s).errinfo = s.errinfo := rfl
@[simp] theorem placeCommand_bitidx (v : Word) (s : State) : (placeCommand v s).bitidx = s.bitidx := rfl
@[simp] theorem placeCommand_byteidx (v : Word) (s : State) : (placeCommand v s).byteidx = s.byteidx := rfl
@[simp] theorem placeCommand_padlen (v : Word) (s : State) : (placeCommand v s).padlen = s.padlen := rfl
@[simp] theorem placeCommand_tree (v : Word) (s : State) : (placeCommand v s).tree = s.tree := rfl
@[simp] theorem placeCommand_ct (v : Word) (s : State) : (placeCommand v s).ct = s.ct := rfl
@[simp] theorem placeCommand_bitbuf (v : Word) (s : State) : (placeCommand v s).bitbuf = s.bitbuf := rfl
@[simp] theorem placeCommand_bytebuf (v : Word) (s : State) : (placeCommand v s).bytebuf = s.bytebuf := rfl
@[simp] theorem placeCommand_pending (v : Word) (s : State) : (placeCommand v s).pending = .write 0 v :: s.pending := rfl
@[simp] theorem placeCommand_replies (v : Word) (s : State) : (placeCommand v s).replies = s.replies := rfl

end Sys2Proof.Machine
end

