-- ==== Sys2Proof/Laws/Ops.lean ====
section
/-! SUPPORT. What the shared operations do, said once: cells, TREE, CT, the drop of commands while a fault stands. -/

namespace Sys2Proof.Machine

/-! ### Cells -/

theorem cellsFind_put {α : Type} (cells : List (Nat × α)) (a b : Nat) (v : α) :
    cellsFind (cellsPut cells a v) b = if b = a then some v else cellsFind cells b := by
  induction cells with
  | nil => simp [cellsPut, cellsFind, eq_comm]
  | cons c rest ih =>
    obtain ⟨k, x⟩ := c
    simp only [cellsPut]
    split_ifs <;> grind [cellsFind]

theorem cellsFind_drop {α : Type} (cells : List (Nat × α)) (a b : Nat) :
    cellsFind (cellsDrop cells a) b = if b = a then none else cellsFind cells b := by
  induction cells with
  | nil => simp [cellsDrop, cellsFind]
  | cons c rest ih =>
    obtain ⟨k, x⟩ := c
    simp only [cellsDrop, List.filter_cons] at ih ⊢
    split_ifs at ih ⊢ <;> grind [cellsFind]

theorem mem_of_cellsFind {α : Type} {cells : List (Nat × α)} {a : Nat} {v : α}
    (h : cellsFind cells a = some v) : (a, v) ∈ cells := by
  induction cells with
  | nil => simp [cellsFind] at h
  | cons c rest ih =>
    obtain ⟨k, x⟩ := c
    simp only [cellsFind] at h
    split_ifs at h with hk
    · simp_all
    · exact List.mem_cons_of_mem _ (ih h)

theorem mem_cellsPut {α : Type} {cells : List (Nat × α)} {a : Nat} {v : α} {c : Nat × α}
    (h : c ∈ cellsPut cells a v) : c = (a, v) ∨ c ∈ cells := by
  induction cells with
  | nil => simpa [cellsPut] using h
  | cons d rest ih =>
    obtain ⟨k, x⟩ := d
    simp only [cellsPut] at h
    split_ifs at h <;> grind

theorem cellsRising_put {α : Type} {cells : List (Nat × α)} (a : Nat) (v : α) (h : cellsRising cells) :
    cellsRising (cellsPut cells a v) := by
  induction cells with
  | nil => simp [cellsPut, cellsRising]
  | cons d rest ih =>
    obtain ⟨k, x⟩ := d
    simp only [cellsRising, List.map_cons, List.pairwise_cons] at h ih ⊢
    simp only [cellsPut]
    split_ifs with h1 h2
    · simp only [List.map_cons, List.pairwise_cons]
      refine ⟨fun b hb => ?_, h⟩
      rcases List.mem_cons.1 hb with rfl | hb
      · exact h1
      · exact lt_trans h1 (h.1 b hb)
    · simp only [List.map_cons, List.pairwise_cons]
      exact ⟨fun b hb => h2 ▸ h.1 b hb, h.2⟩
    · simp only [List.map_cons, List.pairwise_cons]
      refine ⟨fun b hb => ?_, ih h.2⟩
      obtain ⟨c, hc, rfl⟩ := List.mem_map.1 hb
      rcases mem_cellsPut hc with rfl | hc
      · show k < a
        omega
      · exact h.1 _ (List.mem_map_of_mem hc)

theorem cellsRising_drop {α : Type} {cells : List (Nat × α)} (a : Nat) (h : cellsRising cells) :
    cellsRising (cellsDrop cells a) :=
  h.sublist (List.filter_sublist.map _)

/-- In a list of rising indices what is listed is what is found. -/
theorem cellsFind_of_mem {α : Type} {cells : List (Nat × α)} (h : cellsRising cells) {c : Nat × α}
    (hc : c ∈ cells) : cellsFind cells c.1 = some c.2 := by
  induction cells with
  | nil => simp at hc
  | cons d rest ih =>
    obtain ⟨k, x⟩ := d
    simp only [cellsRising, List.map_cons, List.pairwise_cons] at h ih
    rcases List.mem_cons.1 hc with rfl | hc
    · simp [cellsFind]
    · have : k < c.1 := h.1 _ (List.mem_map_of_mem hc)
      simp [cellsFind, this.ne, ih h.2 hc]

/-! ### TREE -/

theorem Memory.read_nil (i : Nat) : Memory.read [] i = 0 := rfl

/-- Read after write, to the same place and to another. -/
theorem Memory.read_write (m : Memory) (i j : Nat) (v : Word) :
    (m.write i v).read j = if j = i then v &&& nodeMask else m.read j := by
  simp only [Memory.read, Memory.write]
  split_ifs with h1 h2 h2 <;> simp_all [cellsFind_put, cellsFind_drop]

theorem nodeMask_idem (v : Word) : v &&& nodeMask &&& nodeMask = v &&& nodeMask := by
  rw [BitVec.and_assoc, BitVec.and_self]

/-- A write of a word inside TREE keeps the canonical form. -/
theorem Memory.write_wf {m : Memory} {i : Nat} (v : Word) (hi : i < Config.nnode) (h : m.wf) :
    (m.write i v).wf := by
  simp only [Memory.write]
  split_ifs with hv
  · exact ⟨cellsRising_drop i h.1, fun c hc => h.2 c (List.mem_of_mem_filter hc)⟩
  · refine ⟨cellsRising_put i _ h.1, fun c hc => ?_⟩
    rcases mem_cellsPut hc with rfl | hc
    · exact ⟨hi, hv, nodeMask_idem v⟩
    · exact h.2 c hc

theorem Memory.wf_nil : Memory.wf [] := by simp [Memory.wf, cellsRising]

theorem State.reset_tree_wf : State.reset.tree.wf := Memory.wf_nil

/-! ### CT -/

theorem CodeTable.find_nil (i : Nat) : CodeTable.find [] i = none := rfl

theorem CodeTable.find_record (t : CodeTable) (a b : Nat) (code : Bits) :
    (t.record a code).find b = if b = a then some code else t.find b := cellsFind_put t a b code

theorem CodeTable.record_wf {t : CodeTable} {a : Nat} {code : Bits} (ha : a < Config.nsym)
    (hc : code.length ≤ Config.maxLen) (h : t.wf) : (t.record a code).wf := by
  refine ⟨cellsRising_put a code h.1, fun c hm => ?_⟩
  rcases mem_cellsPut hm with rfl | hm
  · exact ⟨ha, hc⟩
  · exact h.2 c hm

theorem CodeTable.wf_nil : CodeTable.wf [] := by simp [CodeTable.wf, cellsRising]

/-! ### Commands while a fault stands -/

theorem unlessFaulted_clear {s : State} (f : State → State) (h : s.err = .noFault) :
    unlessFaulted f s = .next (f s) := by simp [unlessFaulted, h]

theorem unlessFaulted_standing {s : State} (f : State → State) (h : s.err ≠ .noFault) :
    unlessFaulted f s = .next s := by simp [unlessFaulted, h]

/-- All that a command that may be dropped can do. -/
theorem unlessFaulted_next {f : State → State} {s t : State} (h : unlessFaulted f s = .next t) :
    (s.err = .noFault ∧ t = f s) ∨ (s.err ≠ .noFault ∧ t = s) := by
  simp only [unlessFaulted, Host.Outcome.next.injEq] at h
  split_ifs at h with he
  · exact .inl ⟨he, h.symm⟩
  · exact .inr ⟨he, h.symm⟩

/-- Every meaning answers a next state. -/
theorem unlessFaulted_total (f : State → State) (s : State) : ∃ t, unlessFaulted f s = .next t := ⟨_, rfl⟩

end Sys2Proof.Machine
end

