-- ==== Sys2Proof/Laws/Walk.lean ====
section
/-! SUPPORT. What CTGEN's `Walk` does, said once (41_codetable.md rules R91, R92, R96): one inversion lemma for its
success and one for its fault, and from them what a successful walk records and what a fault reports. -/

namespace Sys2Proof.Machine

/-! ### One node -/

theorem leafNode_iff {w : Word} : leafNode w = true ↔ nodePresent w = true ∧ hasSymbol w = true := by
  simp [leafNode]

theorem internalNode_iff {w : Word} : internalNode w = true ↔
    nodePresent w = true ∧ hasSymbol w = false ∧ hasLeft w = true ∧ hasRight w = true := by
  simp [internalNode, and_assoc]

theorem not_internal_of_leaf {w : Word} (h : leafNode w = true) : internalNode w = false := by
  simp_all [leafNode, internalNode]

/-- The tests at one node, by the kind of its word. -/
theorem visit_eq (w : Word) (rem : Nat) (path : Bits) (t : CodeTable) : visit w rem path t =
    if leafNode w then
      if (t.find (symbolField w).toNat).isSome then .stop .dupsym
      else .leaf (t.record (symbolField w).toNat path)
    else if internalNode w then if rem = 0 then .stop .depth else .descend (leftField w) (rightField w)
    else .stop .badtree := by
  unfold visit leafNode internalNode
  cases nodePresent w <;> cases hasSymbol w <;> cases hasLeft w <;> cases hasRight w <;> simp

/-- One unfolding of the walk, by the kind of the node's word. -/
theorem walk_eq (m : Memory) (rem : Nat) (n : NodeIndex) (path : Bits) (t : CodeTable) :
    walk m rem n path t =
      if leafNode (m.read n.toNat) then
        if (t.find (symbolField (m.read n.toNat)).toNat).isSome then .error (.dupsym, nodeInfo rem n)
        else .ok (t.record (symbolField (m.read n.toNat)).toNat path)
      else if internalNode (m.read n.toNat) then
        match rem with
        | 0 => .error (.depth, nodeInfo 0 n)
        | rem' + 1 =>
          match walk m rem' (leftField (m.read n.toNat)) (path ++ [false]) t with
          | .error f => .error f
          | .ok t' => walk m rem' (rightField (m.read n.toNat)) (path ++ [true]) t'
      else .error (.badtree, nodeInfo rem n) := by
  rw [walk.eq_def, visit_eq]
  by_cases hl : leafNode (m.read n.toNat) = true
  · by_cases hf : (t.find (symbolField (m.read n.toNat)).toNat).isSome = true <;> simp [hl, hf]
  · by_cases hi : internalNode (m.read n.toNat) = true
    · cases rem <;> simp [hl, hi] <;> rfl
    · simp [hl, hi]

/-- All the ways a walk succeeds. -/
theorem walk_ok_cases {m : Memory} {rem : Nat} {n : NodeIndex} {path : Bits} {t t' : CodeTable} :
    walk m rem n path t = .ok t' ↔
      (leafNode (m.read n.toNat) = true ∧ t.find (symbolField (m.read n.toNat)).toNat = none ∧
        t' = t.record (symbolField (m.read n.toNat)).toNat path) ∨
      (internalNode (m.read n.toNat) = true ∧ ∃ rem', rem = rem' + 1 ∧
        ∃ t1, walk m rem' (leftField (m.read n.toNat)) (path ++ [false]) t = .ok t1 ∧
          walk m rem' (rightField (m.read n.toNat)) (path ++ [true]) t1 = .ok t') := by
  rw [walk_eq]
  by_cases hl : leafNode (m.read n.toNat) = true
  · have := not_internal_of_leaf hl
    by_cases hf : (t.find (symbolField (m.read n.toNat)).toNat).isSome = true
    · obtain ⟨c, hc⟩ := Option.isSome_iff_exists.1 hf
      simp [hl, this, hc]
    · have hn : t.find (symbolField (m.read n.toNat)).toNat = none := by simpa using hf
      simp [hl, this, hn, eq_comm]
  · by_cases hi : internalNode (m.read n.toNat) = true
    · cases rem with
      | zero => simp [hl, hi]
      | succ rem' =>
        simp only [hl, hi, Bool.false_eq_true, if_false, if_true, false_and, false_or, true_and,
          Nat.add_right_cancel_iff, exists_eq_left']
        cases walk m rem' (leftField (m.read n.toNat)) (path ++ [false]) t <;> simp
    · simp [hl, hi]

/-- All the ways a walk faults. -/
theorem walk_error_cases {m : Memory} {rem : Nat} {n : NodeIndex} {path : Bits} {t : CodeTable} {f : Cause × Word} :
    walk m rem n path t = .error f ↔
      (leafNode (m.read n.toNat) = true ∧ (t.find (symbolField (m.read n.toNat)).toNat).isSome = true ∧
        f = (.dupsym, nodeInfo rem n)) ∨
      (leafNode (m.read n.toNat) = false ∧ internalNode (m.read n.toNat) = false ∧ f = (.badtree, nodeInfo rem n)) ∨
      (internalNode (m.read n.toNat) = true ∧ rem = 0 ∧ f = (.depth, nodeInfo 0 n)) ∨
      (internalNode (m.read n.toNat) = true ∧ ∃ rem', rem = rem' + 1 ∧
        (walk m rem' (leftField (m.read n.toNat)) (path ++ [false]) t = .error f ∨
          ∃ t1, walk m rem' (leftField (m.read n.toNat)) (path ++ [false]) t = .ok t1 ∧
            walk m rem' (rightField (m.read n.toNat)) (path ++ [true]) t1 = .error f)) := by
  rw [walk_eq]
  by_cases hl : leafNode (m.read n.toNat) = true
  · have := not_internal_of_leaf hl
    by_cases hf : (t.find (symbolField (m.read n.toNat)).toNat).isSome = true
    · simp [hl, this, hf, @eq_comm _ f]
    · simp [hl, this, hf]
  · by_cases hi : internalNode (m.read n.toNat) = true
    · cases rem with
      | zero => simp [hl, hi, @eq_comm _ f]
      | succ rem' =>
        simp only [hl, hi, Bool.false_eq_true, if_false, if_true, Nat.succ_ne_zero, false_and, false_or, true_and,
          Nat.add_right_cancel_iff, exists_eq_left']
        cases walk m rem' (leftField (m.read n.toNat)) (path ++ [false]) t <;> simp
    · simp [hl, hi, @eq_comm _ f]

/-! ### Reached nodes -/

/-- A reached node is the node itself or is reached from a child of an internal node. -/
theorem reaches_cases {m : Memory} {n k : NodeIndex} {p : Bits} (h : Reaches m n p k) :
    (p = [] ∧ k = n) ∨ (internalNode (m.read n.toNat) = true ∧
      ((∃ q, p = false :: q ∧ Reaches m (leftField (m.read n.toNat)) q k) ∨
        ∃ q, p = true :: q ∧ Reaches m (rightField (m.read n.toNat)) q k)) := by
  cases h with
  | here => exact .inl ⟨rfl, rfl⟩
  | left hi hr => exact .inr ⟨hi, .inl ⟨_, rfl, hr⟩⟩
  | right hi hr => exact .inr ⟨hi, .inr ⟨_, rfl, hr⟩⟩

/-- Below a leaf there is the leaf alone. -/
theorem leafAt_of_leaf {m : Memory} {n : NodeIndex} (h : leafNode (m.read n.toNat) = true) {p : Bits} {s : Symbol} :
    LeafAt m n p s ↔ p = [] ∧ symbolField (m.read n.toNat) = s := by
  constructor
  · rintro ⟨k, hr, -, hs⟩
    rcases reaches_cases hr with ⟨rfl, rfl⟩ | ⟨hi, -⟩
    · exact ⟨rfl, hs⟩
    · simp [not_internal_of_leaf h] at hi
  · rintro ⟨rfl, hs⟩
    exact ⟨n, .here n, h, hs⟩

/-- The leaves below an internal node are those below its children. -/
theorem leafAt_of_internal {m : Memory} {n : NodeIndex} (h : internalNode (m.read n.toNat) = true) {p : Bits}
    {s : Symbol} : LeafAt m n p s ↔
      (∃ q, p = false :: q ∧ LeafAt m (leftField (m.read n.toNat)) q s) ∨
        ∃ q, p = true :: q ∧ LeafAt m (rightField (m.read n.toNat)) q s := by
  constructor
  · rintro ⟨k, hr, hl, hs⟩
    rcases reaches_cases hr with ⟨rfl, rfl⟩ | ⟨-, ⟨q, rfl, hq⟩ | ⟨q, rfl, hq⟩⟩
    · simp [not_internal_of_leaf hl] at h
    · exact .inl ⟨q, rfl, k, hq, hl, hs⟩
    · exact .inr ⟨q, rfl, k, hq, hl, hs⟩
  · rintro (⟨q, rfl, k, hq, hl, hs⟩ | ⟨q, rfl, k, hq, hl, hs⟩)
    · exact ⟨k, .left h hq, hl, hs⟩
    · exact ⟨k, .right h hq, hl, hs⟩

/-! ### A successful walk -/

/-- A successful walk met only leaves and internal nodes, the latter above the depth limit. -/
theorem walk_ok_nodes {m : Memory} {rem : Nat} {n : NodeIndex} {path : Bits} {t t' : CodeTable}
    (h : walk m rem n path t = .ok t') {p : Bits} {k : NodeIndex} (hr : Reaches m n p k) :
    leafNode (m.read k.toNat) = true ∨ (internalNode (m.read k.toNat) = true ∧ p.length < rem) := by
  induction rem generalizing n path t t' p with
  | zero =>
    rcases walk_ok_cases.1 h with ⟨hl, -⟩ | ⟨-, _, h0, -⟩
    · rcases reaches_cases hr with ⟨rfl, rfl⟩ | ⟨hi, -⟩
      · exact .inl hl
      · simp [not_internal_of_leaf hl] at hi
    · omega
  | succ rem ih =>
    rcases walk_ok_cases.1 h with ⟨hl, -⟩ | ⟨hi, rem', hrem, t1, h1, h2⟩
    · rcases reaches_cases hr with ⟨rfl, rfl⟩ | ⟨hi, -⟩
      · exact .inl hl
      · simp [not_internal_of_leaf hl] at hi
    · obtain rfl : rem = rem' := by omega
      rcases reaches_cases hr with ⟨rfl, rfl⟩ | ⟨-, ⟨q, rfl, hq⟩ | ⟨q, rfl, hq⟩⟩
      · exact .inr ⟨hi, by simp⟩
      · simpa using ih h1 hq
      · simpa using ih h2 hq

/-- A successful walk found the symbol of every leaf below the node unset, and no symbol on two of them. -/
theorem walk_ok_once {m : Memory} {rem : Nat} {n : NodeIndex} {path : Bits} {t t' : CodeTable}
    (h : walk m rem n path t = .ok t') :
    (∀ (i : Nat) (c : Bits), t'.find i = some c ↔
      t.find i = some c ∨ ∃ p s, LeafAt m n p s ∧ i = s.toNat ∧ c = path ++ p) ∧
    (∀ p s, LeafAt m n p s → t.find s.toNat = none) ∧
    ∀ p q s, LeafAt m n p s → LeafAt m n q s → p = q := by
  induction rem generalizing n path t t' with
  | zero =>
    rcases walk_ok_cases.1 h with ⟨hl, hn, rfl⟩ | ⟨-, _, h0, -⟩
    · refine ⟨fun i c => ?_, fun p s hp => ?_, fun p q s hp hq => ?_⟩
      · rw [CodeTable.find_record]
        simp only [leafAt_of_leaf hl]
        split_ifs with hi
        · subst hi; simp [hn, eq_comm]
        · constructor
          · exact .inl
          · rintro (h | ⟨p, s, ⟨rfl, rfl⟩, rfl, -⟩)
            · exact h
            · exact absurd rfl hi
      · rw [leafAt_of_leaf hl] at hp
        rw [← hp.2]; exact hn
      · rw [leafAt_of_leaf hl] at hp hq
        rw [hp.1, hq.1]
    · omega
  | succ rem ih =>
    rcases walk_ok_cases.1 h with ⟨hl, hn, rfl⟩ | ⟨hi, rem', hrem, t1, h1, h2⟩
    · refine ⟨fun i c => ?_, fun p s hp => ?_, fun p q s hp hq => ?_⟩
      · rw [CodeTable.find_record]
        simp only [leafAt_of_leaf hl]
        split_ifs with hi
        · subst hi; simp [hn, eq_comm]
        · constructor
          · exact .inl
          · rintro (h | ⟨p, s, ⟨rfl, rfl⟩, rfl, -⟩)
            · exact h
            · exact absurd rfl hi
      · rw [leafAt_of_leaf hl] at hp
        rw [← hp.2]; exact hn
      · rw [leafAt_of_leaf hl] at hp hq
        rw [hp.1, hq.1]
    · obtain rfl : rem = rem' := by omega
      obtain ⟨f1, n1, o1⟩ := ih h1
      obtain ⟨f2, n2, o2⟩ := ih h2
      have cross : ∀ p q s, LeafAt m (leftField (m.read n.toNat)) p s →
          LeafAt m (rightField (m.read n.toNat)) q s → False := by
        intro p q s hp hq
        have := (f1 s.toNat (path ++ [false] ++ p)).2 (.inr ⟨p, s, hp, rfl, rfl⟩)
        rw [n2 q s hq] at this
        cases this
      refine ⟨fun i c => ?_, fun p s hp => ?_, fun p q s hp hq => ?_⟩
      · simp only [f2, f1, leafAt_of_internal hi]
        constructor
        · rintro ((h | ⟨p, s, hp, rfl, rfl⟩) | ⟨p, s, hp, rfl, rfl⟩)
          · exact .inl h
          · exact .inr ⟨_, s, .inl ⟨p, rfl, hp⟩, rfl, by simp⟩
          · exact .inr ⟨_, s, .inr ⟨p, rfl, hp⟩, rfl, by simp⟩
        · rintro (h | ⟨_, s, ⟨p, rfl, hp⟩ | ⟨p, rfl, hp⟩, rfl, rfl⟩)
          · exact .inl (.inl h)
          · exact .inl (.inr ⟨p, s, hp, rfl, by simp⟩)
          · exact .inr ⟨p, s, hp, rfl, by simp⟩
      · rcases (leafAt_of_internal hi).1 hp with ⟨q, rfl, hq⟩ | ⟨q, rfl, hq⟩
        · exact n1 q s hq
        · have := n2 q s hq
          by_contra hne
          obtain ⟨c, hc⟩ := Option.ne_none_iff_exists'.1 hne
          rw [(f1 s.toNat c).2 (.inl hc)] at this
          cases this
      · rcases (leafAt_of_internal hi).1 hp with ⟨p, rfl, hp'⟩ | ⟨p, rfl, hp'⟩ <;>
          rcases (leafAt_of_internal hi).1 hq with ⟨q, rfl, hq'⟩ | ⟨q, rfl, hq'⟩
        · rw [o1 p q s hp' hq']
        · exact (cross p q s hp' hq').elim
        · exact (cross q p s hq' hp').elim
        · rw [o2 p q s hp' hq']

/-- A walk records symbols below 128 and codes no longer than the depth limit. -/
theorem walk_ok_wf {m : Memory} {rem : Nat} {n : NodeIndex} {path : Bits} {t t' : CodeTable}
    (h : walk m rem n path t = .ok t') (ht : t.wf) (hp : path.length + rem ≤ Config.maxLen) : t'.wf := by
  induction rem generalizing n path t t' with
  | zero =>
    rcases walk_ok_cases.1 h with ⟨-, -, rfl⟩ | ⟨-, _, h0, -⟩
    · exact CodeTable.record_wf (symbolField _).isLt (by omega) ht
    · omega
  | succ rem ih =>
    rcases walk_ok_cases.1 h with ⟨-, -, rfl⟩ | ⟨-, rem', hrem, t1, h1, h2⟩
    · exact CodeTable.record_wf (symbolField _).isLt (by omega) ht
    · obtain rfl : rem = rem' := by omega
      exact ih h2 (ih h1 ht (by simp; omega)) (by simp; omega)

/-- A successful walk lists something. -/
theorem walk_ok_ne_nil {m : Memory} {rem : Nat} {n : NodeIndex} {path : Bits} {t t' : CodeTable}
    (h : walk m rem n path t = .ok t') : t' ≠ [] := by
  induction rem generalizing n path t t' with
  | zero =>
    rcases walk_ok_cases.1 h with ⟨-, -, rfl⟩ | ⟨-, _, h0, -⟩
    · intro he
      have := CodeTable.find_record t (symbolField (m.read n.toNat)).toNat (symbolField (m.read n.toNat)).toNat path
      rw [he] at this
      simp [CodeTable.find_nil] at this
    · omega
  | succ rem ih =>
    rcases walk_ok_cases.1 h with ⟨-, -, rfl⟩ | ⟨-, rem', hrem, t1, h1, h2⟩
    · intro he
      have := CodeTable.find_record t (symbolField (m.read n.toNat)).toNat (symbolField (m.read n.toNat)).toNat path
      rw [he] at this
      simp [CodeTable.find_nil] at this
    · obtain rfl : rem = rem' := by omega
      exact ih h2

/-! ### A faulting walk -/

/-- What a fault of a walk reports: a reached node, at its depth, whose word fails the test of the cause. -/
theorem walk_error_spec {m : Memory} {rem : Nat} {n : NodeIndex} {path : Bits} {t : CodeTable} {c : Cause}
    {info : Word} (h : walk m rem n path t = .error (c, info)) :
    ∃ p k, Reaches m n p k ∧ p.length ≤ rem ∧ info = nodeInfo (rem - p.length) k ∧
      ((c = .badtree ∧ leafNode (m.read k.toNat) = false ∧ internalNode (m.read k.toNat) = false) ∨
       (c = .depth ∧ internalNode (m.read k.toNat) = true ∧ p.length = rem) ∨
       (c = .dupsym ∧ leafNode (m.read k.toNat) = true ∧
         ((t.find (symbolField (m.read k.toNat)).toNat).isSome = true ∨
           ∃ q, EarlierPath q p ∧ LeafAt m n q (symbolField (m.read k.toNat))))) ∧
      (∀ q k', Reaches m n q k' → EarlierPath q p →
        leafNode (m.read k'.toNat) = true ∨ (internalNode (m.read k'.toNat) = true ∧ q.length < rem)) ∧
      (∀ q s, EarlierPath q p → LeafAt m n q s → t.find s.toNat = none) ∧
      ∀ q q' s, EarlierPath q p → EarlierPath q' p → LeafAt m n q s → LeafAt m n q' s → q = q' := by
  have nil : ∀ q, ¬ EarlierPath q [] := by
    rintro q (⟨b, r, h⟩ | ⟨_, _, _, -, h⟩) <;> simp at h
  induction rem generalizing n path t with
  | zero =>
    rcases walk_error_cases.1 h with ⟨hl, hs, he⟩ | ⟨hl, hi, he⟩ | ⟨hi, -, he⟩ | ⟨-, _, h0, -⟩
    · cases he
      exact ⟨[], n, .here n, by simp, rfl, .inr (.inr ⟨rfl, hl, .inl hs⟩), fun q _ _ hq => (nil q hq).elim,
        fun q _ hq => (nil q hq).elim, fun q _ _ hq => (nil q hq).elim⟩
    · cases he
      exact ⟨[], n, .here n, by simp, rfl, .inl ⟨rfl, hl, hi⟩, fun q _ _ hq => (nil q hq).elim,
        fun q _ hq => (nil q hq).elim, fun q _ _ hq => (nil q hq).elim⟩
    · cases he
      exact ⟨[], n, .here n, by simp, rfl, .inr (.inl ⟨rfl, hi, rfl⟩), fun q _ _ hq => (nil q hq).elim,
        fun q _ hq => (nil q hq).elim, fun q _ _ hq => (nil q hq).elim⟩
    · omega
  | succ rem ih =>
    rcases walk_error_cases.1 h with ⟨hl, hs, he⟩ | ⟨hl, hi, he⟩ | ⟨-, h0, -⟩ | ⟨hi, rem', hrem, h⟩
    · cases he
      exact ⟨[], n, .here n, by simp, rfl, .inr (.inr ⟨rfl, hl, .inl hs⟩), fun q _ _ hq => (nil q hq).elim,
        fun q _ hq => (nil q hq).elim, fun q _ _ hq => (nil q hq).elim⟩
    · cases he
      exact ⟨[], n, .here n, by simp, rfl, .inl ⟨rfl, hl, hi⟩, fun q _ _ hq => (nil q hq).elim,
        fun q _ hq => (nil q hq).elim, fun q _ _ hq => (nil q hq).elim⟩
    · omega
    · obtain rfl : rem = rem' := by omega
      have root : ∀ k, Reaches m n [] k → k = n := by
        intro k hk
        rcases reaches_cases hk with ⟨-, rfl⟩ | ⟨-, ⟨q, h, -⟩ | ⟨q, h, -⟩⟩
        · rfl
        · simp at h
        · simp at h
      rcases h with h1 | ⟨t1, h1, h2⟩
      · obtain ⟨p, k, hr, hlen, hinfo, hc, hb, hn, ho⟩ := ih h1
        -- a path before `false :: p` is the root's or goes left and is before `p` there
        have early : ∀ q, EarlierPath q (false :: p) → q = [] ∨ ∃ q', q = false :: q' ∧ EarlierPath q' p := by
          rintro q (⟨b, r, h⟩ | ⟨c, q', p', rfl, h⟩)
          · cases q with
            | nil => exact .inl rfl
            | cons x q =>
              simp only [List.cons_append, List.cons.injEq] at h
              exact .inr ⟨q, by rw [h.1], .inl ⟨b, r, h.2⟩⟩
          · cases c with
            | nil => simp at h
            | cons x c =>
              simp only [List.cons_append, List.cons.injEq] at h
              exact .inr ⟨c ++ false :: q', by simp [h.1], .inr ⟨c, q', p', rfl, h.2⟩⟩
        have leafEarly : ∀ q s, EarlierPath q (false :: p) → LeafAt m n q s →
            ∃ q', q = false :: q' ∧ EarlierPath q' p ∧ LeafAt m (leftField (m.read n.toNat)) q' s := by
          intro q s hq hl
          rcases early q hq with rfl | ⟨q', rfl, hq'⟩
          · rcases (leafAt_of_internal hi).1 hl with ⟨_, h, -⟩ | ⟨_, h, -⟩ <;> simp at h
          · rcases (leafAt_of_internal hi).1 hl with ⟨r, h, hl⟩ | ⟨r, h, hl⟩
            · simp only [List.cons.injEq, true_and] at h
              exact ⟨q', rfl, hq', h ▸ hl⟩
            · simp at h
        refine ⟨false :: p, k, .left hi hr, by simp; omega, by simpa using hinfo, ?_, ?_, ?_, ?_⟩
        · rcases hc with hc | ⟨hc, hk, hl⟩ | ⟨hc, hk, hf | ⟨q, hq, hl⟩⟩
          · exact .inl hc
          · exact .inr (.inl ⟨hc, hk, by simp [hl]⟩)
          · exact .inr (.inr ⟨hc, hk, .inl hf⟩)
          · refine .inr (.inr ⟨hc, hk, .inr ⟨false :: q, ?_, (leafAt_of_internal hi).2 (.inl ⟨q, rfl, hl⟩)⟩⟩)
            rcases hq with ⟨b, r, rfl⟩ | ⟨c', q', p', rfl, rfl⟩
            · exact .inl ⟨b, r, rfl⟩
            · exact .inr ⟨false :: c', q', p', rfl, rfl⟩
        · intro q k' hr' hq
          rcases early q hq with rfl | ⟨q', rfl, hq'⟩
          · rw [root k' hr']; exact .inr ⟨hi, by simp⟩
          · rcases reaches_cases hr' with ⟨h, -⟩ | ⟨-, ⟨r, h, hr'⟩ | ⟨r, h, hr'⟩⟩
            · simp at h
            · simp only [List.cons.injEq, true_and] at h
              subst h
              simpa using hb _ _ hr' hq'
            · simp at h
        · intro q s hq hl
          obtain ⟨q', rfl, hq', hl'⟩ := leafEarly q s hq hl
          exact hn q' s hq' hl'
        · intro q q' s hq hq' hl hl'
          obtain ⟨r, rfl, hr1, hr2⟩ := leafEarly q s hq hl
          obtain ⟨r', rfl, hr1', hr2'⟩ := leafEarly q' s hq' hl'
          rw [ho r r' s hr1 hr1' hr2 hr2']
      · obtain ⟨f1, n1, o1⟩ := walk_ok_once h1
        obtain ⟨p, k, hr, hlen, hinfo, hc, hb, hn, ho⟩ := ih h2
        -- a path before `true :: p` is the root's, or any that goes left, or goes right and is before `p` there
        have early : ∀ q, EarlierPath q (true :: p) →
            q = [] ∨ (∃ q', q = false :: q') ∨ ∃ q', q = true :: q' ∧ EarlierPath q' p := by
          rintro q (⟨b, r, h⟩ | ⟨c, q', p', rfl, h⟩)
          · cases q with
            | nil => exact .inl rfl
            | cons x q =>
              simp only [List.cons_append, List.cons.injEq] at h
              exact .inr (.inr ⟨q, by rw [h.1], .inl ⟨b, r, h.2⟩⟩)
          · cases c with
            | nil => exact .inr (.inl ⟨q', rfl⟩)
            | cons x c =>
              simp only [List.cons_append, List.cons.injEq] at h
              exact .inr (.inr ⟨c ++ false :: q', by simp [h.1], .inr ⟨c, q', p', rfl, h.2⟩⟩)
        have leafEarly : ∀ q s, EarlierPath q (true :: p) → LeafAt m n q s →
            (∃ q', q = false :: q' ∧ LeafAt m (leftField (m.read n.toNat)) q' s) ∨
            ∃ q', q = true :: q' ∧ EarlierPath q' p ∧ LeafAt m (rightField (m.read n.toNat)) q' s := by
          intro q s hq hl
          rcases (leafAt_of_internal hi).1 hl with ⟨r, rfl, hl'⟩ | ⟨r, rfl, hl'⟩
          · exact .inl ⟨r, rfl, hl'⟩
          · rcases early _ hq with h | ⟨_, h⟩ | ⟨q', h, hq'⟩
            · simp at h
            · simp at h
            · simp only [List.cons.injEq, true_and] at h
              subst h
              exact .inr ⟨r, rfl, hq', hl'⟩
        have left_before : ∀ q, EarlierPath (false :: q) (true :: p) := fun q => .inr ⟨[], q, p, rfl, rfl⟩
        refine ⟨true :: p, k, .right hi hr, by simp; omega, by simpa using hinfo, ?_, ?_, ?_, ?_⟩
        · rcases hc with hc | ⟨hc, hk, hl⟩ | ⟨hc, hk, hf | ⟨q, hq, hl⟩⟩
          · exact .inl hc
          · exact .inr (.inl ⟨hc, hk, by simp [hl]⟩)
          · obtain ⟨code, hcode⟩ := Option.isSome_iff_exists.1 hf
            rcases (f1 _ _).1 hcode with h | ⟨q, s, hq, hs, -⟩
            · exact .inr (.inr ⟨hc, hk, .inl (by simp [h])⟩)
            · have : symbolField (m.read k.toNat) = s := BitVec.eq_of_toNat_eq hs
              exact .inr (.inr ⟨hc, hk, .inr ⟨false :: q, left_before q,
                (leafAt_of_internal hi).2 (.inl ⟨q, rfl, this ▸ hq⟩)⟩⟩)
          · refine .inr (.inr ⟨hc, hk, .inr ⟨true :: q, ?_, (leafAt_of_internal hi).2 (.inr ⟨q, rfl, hl⟩)⟩⟩)
            rcases hq with ⟨b, r, rfl⟩ | ⟨c', q', p', rfl, rfl⟩
            · exact .inl ⟨b, r, rfl⟩
            · exact .inr ⟨true :: c', q', p', rfl, rfl⟩
        · intro q k' hr' hq
          rcases reaches_cases hr' with ⟨rfl, rfl⟩ | ⟨-, ⟨r, rfl, hr2⟩ | ⟨r, rfl, hr2⟩⟩
          · exact .inr ⟨hi, by simp⟩
          · simpa using walk_ok_nodes h1 hr2
          · rcases early _ hq with h | ⟨_, h⟩ | ⟨q', h, hq'⟩
            · simp at h
            · simp at h
            · simp only [List.cons.injEq, true_and] at h
              subst h
              simpa using hb _ _ hr2 hq'
        · intro q s hq hl
          rcases leafEarly q s hq hl with ⟨q', rfl, hl'⟩ | ⟨q', rfl, hq', hl'⟩
          · exact n1 q' s hl'
          · have := hn q' s hq' hl'
            by_contra hne
            obtain ⟨code, hcode⟩ := Option.ne_none_iff_exists'.1 hne
            rw [(f1 _ _).2 (.inl hcode)] at this
            cases this
        · intro q q' s hq hq' hl hl'
          have cross : ∀ r r', LeafAt m (leftField (m.read n.toNat)) r s → EarlierPath r' p →
              LeafAt m (rightField (m.read n.toNat)) r' s → False := by
            intro r r' h1' h2' h3'
            have := hn r' s h2' h3'
            rw [(f1 s.toNat (path ++ [false] ++ r)).2 (.inr ⟨r, s, h1', rfl, rfl⟩)] at this
            cases this
          rcases leafEarly q s hq hl with ⟨r, rfl, h3⟩ | ⟨r, rfl, h4, h3⟩ <;>
            rcases leafEarly q' s hq' hl' with ⟨r', rfl, h3'⟩ | ⟨r', rfl, h4', h3'⟩
          · rw [o1 r r' s h3 h3']
          · exact (cross r r' h3 h4' h3').elim
          · exact (cross r' r h3' h4 h3).elim
          · rw [ho r r' s h4 h4' h3 h3']

/-- The causes a walk can report. -/
theorem walk_error_cause {m : Memory} {rem : Nat} {n : NodeIndex} {path : Bits} {t : CodeTable} {c : Cause}
    {info : Word} (h : walk m rem n path t = .error (c, info)) : c = .badtree ∨ c = .depth ∨ c = .dupsym := by
  obtain ⟨_, _, -, -, -, hc, -⟩ := walk_error_spec h
  rcases hc with ⟨h, -⟩ | ⟨h, -⟩ | ⟨h, -⟩
  · exact .inl h
  · exact .inr (.inl h)
  · exact .inr (.inr h)

end Sys2Proof.Machine
end

