-- ==== Sys2Proof/Laws/Commands.lean ====
section
/-! SUPPORT. All that each command rule, each port write and each step can do, one lemma each, for proofs to cite
instead of unfolding the model. -/

namespace Sys2Proof.Machine

/-- All that CTGEN's rule can do (R90). -/
theorem deriveTable_cases (r : NodeIndex) (s : State) :
    (∃ t, walk s.tree Config.maxLen r [] [] = .ok t ∧
      deriveTable r s = { s with ct := t, ctv := true, zlen := hasSymbol (s.tree.read r.toNat) }) ∨
    ∃ c info, walk s.tree Config.maxLen r [] [] = .error (c, info) ∧
      deriveTable r s = raise (encode (.ctgen r)) c info (clearTable s) := by
  unfold deriveTable
  cases h : walk s.tree Config.maxLen r [] [] with
  | ok t => exact .inl ⟨t, rfl, rfl⟩
  | error f => exact .inr ⟨f.1, f.2, rfl, rfl⟩

/-- All that PUTCH's rule can do (R101). -/
theorem putChar_cases (c : Byte) (s : State) :
    (c ≠ charZero ∧ c ≠ charOne ∧ putChar c s =
      raise (encode (.putch c)) .invalidBitCharacter (c.setWidth 32) { s with bpoison := true }) ∨
    ((c = charZero ∨ c = charOne) ∧ s.bitlen = s.bitcap ∧
      putChar c s = raise (encode (.putch c)) .bitovf (BitVec.ofNat 32 s.bitlen) s) ∨
    ((c = charZero ∨ c = charOne) ∧ s.bitlen ≠ s.bitcap ∧ putChar c s = appendBits [c == charOne] s) := by
  unfold putChar
  split_ifs with h1 h2
  · exact .inl ⟨h1.1, h1.2, rfl⟩
  · exact .inr (.inl ⟨by tauto, h2, rfl⟩)
  · exact .inr (.inr ⟨by tauto, h2, rfl⟩)

/-- All that PUTSYM's rule can do (R102). -/
theorem putSymbol_cases (sym : Symbol) (s : State) :
    (s.ct.find sym.toNat = none ∧
      putSymbol sym s = raise (encode (.putsym sym)) .nocode (sym.setWidth 32) s) ∨
    ∃ code, s.ct.find sym.toNat = some code ∧
      ((s.bitcap < s.bitlen + code.length ∧
          putSymbol sym s = raise (encode (.putsym sym)) .bitovf (BitVec.ofNat 32 s.bitlen) s) ∨
        (s.bitlen + code.length ≤ s.bitcap ∧ putSymbol sym s = appendBits code s)) := by
  unfold putSymbol
  cases h : s.ct.find sym.toNat with
  | none => exact .inl ⟨rfl, rfl⟩
  | some code =>
    refine .inr ⟨code, rfl, ?_⟩
    by_cases hf : s.bitcap < s.bitlen + code.length
    · exact .inl ⟨hf, by simp [hf]⟩
    · exact .inr ⟨not_lt.1 hf, by simp [hf]⟩

/-- All that PACK's rule can do (R103). -/
theorem packBits_cases (s : State) :
    (s.bpoison = true ∧ packBits s = raise (encode .pack) .invalidBitCharacter 0x100 s) ∨
    (s.bpoison = false ∧ packBits s = { s with
      bytebuf := packBytes (withMarker s.bitbuf)
      padlen := BitVec.ofNat 32 (paddingOf s.bitlen) }) := by
  unfold packBits
  cases h : s.bpoison
  · exact .inr ⟨rfl, by simp⟩
  · exact .inl ⟨rfl, by simp⟩

/-- All that PUTBYTE's rule can do (R111). -/
theorem putByte_cases (b : Byte) (s : State) :
    (s.bytelen = s.bytecap ∧ putByte b s = raise (encode (.putbyte b)) .byteovf (BitVec.ofNat 32 s.bytelen) s) ∨
    (s.bytelen ≠ s.bytecap ∧ putByte b s = appendByte b s) := by
  unfold putByte
  split_ifs with h
  · exact .inl ⟨h, rfl⟩
  · exact .inr ⟨h, rfl⟩

/-- All that UNPACK's rule can do (R112). -/
theorem unpackBits_cases (s : State) :
    ∃ discard nomark, markerScan (unpackBytes s.bytebuf) = (discard, nomark) ∧
      ((s.bitcap < 8 * s.bytelen - discard ∧
          unpackBits s = raise (encode .unpack) .bitovf (BitVec.ofNat 32 (8 * s.bytelen - discard)) s) ∨
        (8 * s.bytelen - discard ≤ s.bitcap ∧ unpackBits s = { s with
          bitbuf := (unpackBytes s.bytebuf).drop discard
          bpoison := false
          nomark := nomark
          padlen := BitVec.ofNat 32 discard })) := by
  rcases hm : markerScan (unpackBytes s.bytebuf) with ⟨discard, nomark⟩
  refine ⟨discard, nomark, rfl, ?_⟩
  simp only [unpackBits, hm]
  split_ifs with h
  · exact .inl ⟨h, rfl⟩
  · exact .inr ⟨not_lt.1 h, rfl⟩

/-- An image from which the walk succeeds is walkable. -/
theorem walkable_of_walk_ok {m : Memory} {r : NodeIndex} {t : CodeTable}
    (h : walk m Config.maxLen r [] [] = .ok t) : WalkableImage m r :=
  ⟨fun _ _ hr => walk_ok_nodes h hr, (walk_ok_once h).2.2⟩

/-- All that a PortWrite can do (R42). -/
theorem portWrite_cases {wa : WordIndex} {v : Word} {s t : State} (h : portWrite wa v s = .next t) :
    (wa = 0x000 ∧ execWord v s = .next t) ∨ t = { s with bitidx := v } ∨ t = { s with byteidx := v } ∨
    (0x100 ≤ wa.toNat ∧ wa.toNat ≤ 0x1FF ∧ t = { s with tree := s.tree.write (wa.toNat - 0x100) v }) ∨ t = s := by
  unfold portWrite at h
  dsimp only at h
  split_ifs at h with h0 h1 h2 h3
  · exact .inl ⟨BitVec.eq_of_toNat_eq h0, h⟩
  all_goals simp only [Host.Outcome.next.injEq] at h
  · exact .inr (.inl h.symm)
  · exact .inr (.inr (.inl h.symm))
  · exact .inr (.inr (.inr (.inl ⟨h3.1, h3.2, h.symm⟩)))
  · exact .inr (.inr (.inr (.inr h.symm)))

/-- All that a word at CMD can do (R62). -/
theorem execWord_cases {w : Word} {s t : State} (h : execWord w s = .next t) :
    (∃ i, decode w = .ok i ∧ exec i s = .next t) ∨
    ((∃ e, decode w = .error e) ∧
      ((s.err = .noFault ∧ t = raise w .illcmd 0 s) ∨ (s.err ≠ .noFault ∧ t = s))) := by
  unfold execWord at h
  cases hd : decode w with
  | ok i => rw [hd] at h; exact .inl ⟨i, rfl, h⟩
  | error e => rw [hd] at h; exact .inr ⟨⟨e, rfl⟩, unlessFaulted_next h⟩

/-- All that a step can do: nothing pending, a read, or a write. -/
theorem step_cases {s t : State} (h : step s = .next t) :
    (s.pending = [] ∧ t = s) ∨
    (∃ wa rest, s.pending = .read wa :: rest ∧ t = reply (portRead wa (issue rest s)) (issue rest s)) ∨
    ∃ wa v rest, s.pending = .write wa v :: rest ∧ portWrite wa v (issue rest s) = .next t := by
  unfold step hostStep at h
  split at h
  next hp => exact .inl ⟨hp, by simpa [eq_comm] using h⟩
  next x rest hp =>
    cases x with
    | read wa => exact .inr (.inl ⟨wa, rest, hp, by simpa [transact, eq_comm] using h⟩)
    | write wa v => exact .inr (.inr ⟨wa, v, rest, hp, h⟩)

/-- A node word as the host reads it is the TREE word (R43). -/
theorem nodeAt_eq (s : State) (n : NodeIndex) : nodeAt s n = s.tree.read n.toNat := by
  have h : (BitVec.ofNat 11 (256 + n.toNat)).toNat = 256 + n.toNat := by simp; omega
  simp only [nodeAt, treeWordIndex, portRead, h]
  rw [if_neg (by omega), if_pos (by omega)]
  simp

end Sys2Proof.Machine
end

