-- ==== Sys2Proof/Laws/Encoding.lean ====
section
/-! SUPPORT. The fields of a command word and the words of the commands as sums (30_encoding.md rules R60, R61). -/

namespace Sys2Proof

theorem opcField_commandWord (opc arg : Byte) : opcField (commandWord opc arg) = opc := by
  apply BitVec.eq_of_getLsbD_eq
  intro i hi
  simp only [opcField, commandWord, BitVec.getLsbD_extractLsb', BitVec.getLsbD_append, hi, decide_true, Bool.true_and]
  rw [if_neg (by omega)]
  congr 1; omega

theorem zField_commandWord (opc arg : Byte) : zField (commandWord opc arg) = 0 := by
  apply BitVec.eq_of_getLsbD_eq
  intro i hi
  simp only [zField, commandWord, BitVec.getLsbD_extractLsb', BitVec.getLsbD_append, hi, decide_true, Bool.true_and]
  rw [if_pos (by omega), if_neg (by omega)]
  simp

theorem argField_commandWord (opc arg : Byte) : argField (commandWord opc arg) = arg := by
  apply BitVec.eq_of_getLsbD_eq
  intro i hi
  simp only [argField, commandWord, BitVec.getLsbD_extractLsb', BitVec.getLsbD_append, hi, decide_true, Bool.true_and]
  rw [if_pos (by omega), if_pos (by omega)]
  simp

/-- R70's number of a command word is the word of its fields. -/
theorem commandWord_ofNat (opc : Nat) (arg : Byte) (h : opc < 256) :
    BitVec.ofNat 32 (opc * 2 ^ 24 + arg.toNat) = commandWord (BitVec.ofNat 8 opc) arg := by
  apply BitVec.eq_of_toNat_eq
  have := arg.isLt
  simp only [commandWord, BitVec.toNat_append, BitVec.toNat_ofNat]
  rw [Nat.zero_mod, Nat.zero_shiftLeft, Nat.zero_or, ← Nat.shiftLeft_add_eq_or_of_lt (by omega), Nat.shiftLeft_eq,
    Nat.mod_eq_of_lt (a := opc) (by omega)]
  omega

theorem encode_ctgen (r : NodeIndex) : encode (.ctgen r) = 0x10000000 + r.setWidth 32 := by
  revert r; decide +kernel

theorem encode_putch (c : Byte) : encode (.putch c) = 0x21000000 + c.setWidth 32 := by
  revert c; decide +kernel

theorem encode_putsym (s : Symbol) : encode (.putsym s) = 0x22000000 + s.setWidth 32 := by
  revert s; decide +kernel

theorem encode_putbyte (b : Byte) : encode (.putbyte b) = 0x31000000 + b.setWidth 32 := by
  revert b; decide +kernel

/-- A word is its three fields. -/
theorem word_eq_fields (w : Word) : w = opcField w ++ (zField w ++ argField w) := by
  apply BitVec.eq_of_getLsbD_eq
  intro i hi
  simp only [opcField, zField, argField, BitVec.getLsbD_append, BitVec.getLsbD_extractLsb']
  split_ifs with h1 h2
  · simp; omega
  · simp [show i - 8 < 16 by omega]; congr 1; omega
  · simp [show i - (16+8) < 8 by omega]; congr 1; omega

/-- Two concatenations are equal iff their parts are. -/
theorem append_inj {n m : Nat} {a b : BitVec n} {c d : BitVec m} : a ++ c = b ++ d ↔ a = b ∧ c = d := by
  refine ⟨fun h => ?_, fun ⟨h1, h2⟩ => by rw [h1, h2]⟩
  constructor
  · apply BitVec.eq_of_getLsbD_eq
    intro i hi
    have := congrArg (fun x => x.getLsbD (i + m)) h
    simpa [BitVec.getLsbD_append] using this
  · apply BitVec.eq_of_getLsbD_eq
    intro i hi
    have := congrArg (fun x => x.getLsbD i) h
    simpa [BitVec.getLsbD_append, hi] using this

/-- What a row of R61's table asks of the fields of a word. -/
theorem row_selects (name : String) (o p ma : Byte) (w : Word) :
    (Row.mk name (commandWord o p) (0xFF#8 ++ (0xFFFF#16 ++ ma))).selects w = true ↔
      opcField w = o ∧ zField w = 0 ∧ argField w &&& ma = p := by
  simp only [Row.selects, beq_iff_eq, commandWord]
  conv_lhs => rw [word_eq_fields w]
  rw [BitVec.and_append, BitVec.and_append, append_inj, append_inj]
  have h8 : (0xFF#8 : Byte) = BitVec.allOnes 8 := by decide
  have h16 : (0xFFFF#16) = BitVec.allOnes 16 := by decide
  rw [h8, h16, BitVec.and_allOnes, BitVec.and_allOnes]
  rfl

end Sys2Proof
end

