-- ==== Sys2Proof/Laws/PerInstr.lean ====
section
/-! SUPPORT. One lemma per command: its word is a well-formed command word, selected by the row of R61's table that
bears its mnemonic. -/

namespace Sys2Proof.Laws.CommandWord

/-- The command's word is well-formed, and the row of its mnemonic selects it (30_encoding.md rule R61). -/
def Statement (i : Instr) : Prop :=
  wellFormedWord (encode i) = true ∧ ∃ r ∈ opcodeTable, r.mnemonic = i.mnemonic ∧ r.selects (encode i) = true

/-- A selecting row of the table makes the word well-formed. -/
theorem of_row {i : Instr} (r : Row) (hr : r ∈ opcodeTable) (hm : r.mnemonic = i.mnemonic)
    (hs : r.selects (encode i) = true) : Statement i :=
  ⟨List.any_eq_true.2 ⟨r, hr, hs⟩, r, hr, hm, hs⟩

theorem nop : Statement .nop := of_row ⟨"NOP", 0x00000000, 0xFFFFFFFF⟩ (by decide) rfl (by decide)
theorem clrerr : Statement .clrerr := of_row ⟨"CLRERR", 0x01000000, 0xFFFFFFFF⟩ (by decide) rfl (by decide)
theorem sreset : Statement .sreset := of_row ⟨"SRESET", 0x02000000, 0xFFFFFFFF⟩ (by decide) rfl (by decide)
theorem ctgen (r : NodeIndex) : Statement (.ctgen r) :=
  of_row ⟨"CTGEN", 0x10000000, 0xFFFFFF00⟩ (by decide) rfl (by revert r; decide +kernel)
theorem ctclr : Statement .ctclr := of_row ⟨"CTCLR", 0x11000000, 0xFFFFFFFF⟩ (by decide) rfl (by decide)
theorem tclr : Statement .tclr := of_row ⟨"TCLR", 0x12000000, 0xFFFFFFFF⟩ (by decide) rfl (by decide)
theorem bclr : Statement .bclr := of_row ⟨"BCLR", 0x20000000, 0xFFFFFFFF⟩ (by decide) rfl (by decide)
theorem putch (c : Byte) : Statement (.putch c) :=
  of_row ⟨"PUTCH", 0x21000000, 0xFFFFFF00⟩ (by decide) rfl (by revert c; decide +kernel)
theorem putsym (s : Symbol) : Statement (.putsym s) :=
  of_row ⟨"PUTSYM", 0x22000000, 0xFFFFFF80⟩ (by decide) rfl (by revert s; decide +kernel)
theorem pack : Statement .pack := of_row ⟨"PACK", 0x23000000, 0xFFFFFFFF⟩ (by decide) rfl (by decide)
theorem yclr : Statement .yclr := of_row ⟨"YCLR", 0x30000000, 0xFFFFFFFF⟩ (by decide) rfl (by decide)
theorem putbyte (b : Byte) : Statement (.putbyte b) :=
  of_row ⟨"PUTBYTE", 0x31000000, 0xFFFFFF00⟩ (by decide) rfl (by revert b; decide +kernel)
theorem unpack : Statement .unpack := of_row ⟨"UNPACK", 0x32000000, 0xFFFFFFFF⟩ (by decide) rfl (by decide)

end Sys2Proof.Laws.CommandWord
end

