-- ==== Sys2Proof/Tests/Slice0.lean ====
section
/-! SUPPORT. Tests of single steps against the vectors of 95_test_vectors.md, words written out from 30_encoding.md,
ill-formed words, and for every obligation with hypotheses a witness that meets them. -/

open Sys2Proof Sys2Proof.Machine

namespace Sys2Proof.Tests

/-! ### States -/

/-- BITCAP = 16, the instance of vectors V25 and V28. -/
def fresh : State := State.resetWith 16

/-- A NOCODE fault stands. -/
def standing : State := { fresh with err := .nocode, errcmd := 0x22000061, errinfo := 0x61 }

/-- The `aaab` tree of vector V7: leaf b, leaf a, their parent. -/
def abTree : Memory := [(0, 0x81620000), (1, 0x81610000), (2, 0x86000100)]

/-- The table that CTGEN 2 makes of it (V7). -/
def abTable : CodeTable := [(97, [true]), (98, [false])]

/-- The state after V7. -/
def tabled : State := { fresh with tree := abTree, ct := abTable, ctv := true }

/-- BITBUF holds the sixteen bits of V25. -/
def fullBits : State := { tabled with bitbuf := List.replicate 16 true }

/-- BYTEBUF holds the three bytes of V28. -/
def fullBytes : State := { fresh with bytebuf := [0x01, 0xAA, 0x55] }

/-- BITBUF is `0` and poisoned, no fault stands (V24). -/
def poisoned : State := { fresh with bitbuf := [false], bpoison := true }

/-- Node 0 is its own left and right child (V14). -/
def cyclic : State := { fresh with tree := [(0, 0x86000000)] }

/-- The root 5 is leaf a (V5). -/
def rootLeaf : State := { fresh with tree := [(5, 0x81610000)] }

/-- Two leaves with symbol a below node 0 (V13). -/
def twice : State := { fresh with tree := [(0, 0x86000201), (1, 0x81610000), (2, 0x81610000)] }

/-! ### Ill-formed words are refused, 30_encoding.md rule R64, vector V2 -/

theorem test_wf_opc_not_assigned : wellFormedWord 0x7F000000 = false ∧ decode 0x7F000000 = .error .opcNotAssigned ∧
    wellFormedWord 0xFFFFFFFF = false ∧ decode 0x03000000 = .error .opcNotAssigned := by decide

theorem test_wf_z_not_zero : wellFormedWord 0x10000100 = false ∧ decode 0x10000100 = .error .zNotZero ∧
    wellFormedWord 0x21010030 = false ∧ decode 0x21010030 = .error .zNotZero := by decide

theorem test_wf_arg_not_zero : wellFormedWord 0x00000001 = false ∧ decode 0x00000001 = .error .argNotZero ∧
    wellFormedWord 0x23000001 = false ∧ decode 0x23000001 = .error .argNotZero := by decide

theorem test_wf_putsym_bit7 : wellFormedWord 0x22000080 = false ∧ decode 0x22000080 = .error .putsymBit7 ∧
    wellFormedWord 0x220000E1 = false ∧ decode 0x220000E1 = .error .putsymBit7 := by decide

/-! ### Words written out from the table of R61 -/

theorem test_decode_nop : decode 0b00000000_00000000_00000000_00000000 = .ok .nop := by decide
theorem test_decode_clrerr : decode 0b00000001_00000000_00000000_00000000 = .ok .clrerr := by decide
theorem test_decode_sreset : decode 0b00000010_00000000_00000000_00000000 = .ok .sreset := by decide
theorem test_decode_ctgen : decode 0b00010000_00000000_00000000_11001000 = .ok (.ctgen 200) := by decide
theorem test_decode_ctclr : decode 0b00010001_00000000_00000000_00000000 = .ok .ctclr := by decide
theorem test_decode_tclr : decode 0b00010010_00000000_00000000_00000000 = .ok .tclr := by decide
theorem test_decode_bclr : decode 0b00100000_00000000_00000000_00000000 = .ok .bclr := by decide
theorem test_decode_putch : decode 0b00100001_00000000_00000000_00110001 = .ok (.putch 0x31) := by decide
theorem test_decode_putsym : decode 0b00100010_00000000_00000000_01100001 = .ok (.putsym 97) := by decide
theorem test_decode_pack : decode 0b00100011_00000000_00000000_00000000 = .ok .pack := by decide
theorem test_decode_yclr : decode 0b00110000_00000000_00000000_00000000 = .ok .yclr := by decide
theorem test_decode_putbyte : decode 0b00110001_00000000_00000000_10011110 = .ok (.putbyte 0x9E) := by decide
theorem test_decode_unpack : decode 0b00110010_00000000_00000000_00000000 = .ok .unpack := by decide

theorem test_decode_table_word : decodeTableWord 32 0x2200007F = some (.putsym 127) ∧
    decodeTableWord 32 0x22000080 = none := by decide

/-! ### The port -/

/-- V1. -/
theorem test_reset_reads : portRead 0x000 State.reset = 0 ∧ portRead 0x001 State.reset = 0 ∧
    portRead 0x00A State.reset = 0 ∧ portRead 0x00C State.reset = 0x00001000 ∧
    portRead 0x00D State.reset = 0x48434501 ∧ portRead 0x1FF State.reset = 0 ∧ portRead 0x7FF State.reset = 0 := by
  decide

/-- V2, the illegal word 0xFFFFFFFF. -/
theorem test_illegal_word : ∃ t, step { fresh with pending := [.write 0 0xFFFFFFFF] } = .next t ∧
    portRead 0x001 t = 0x00000004 ∧ t.errcmd = 0xFFFFFFFF ∧ t.errinfo = 0 := ⟨_, rfl, by decide⟩

/-- V3, dropped while a fault stands. -/
theorem test_illegal_word_dropped : ∃ t, step { standing with pending := [.write 0 0xFFFFFFFF] } = .next t ∧
    t.errcmd = 0x22000061 ∧ t.err = .nocode := ⟨_, rfl, by decide⟩

/-- V4, the TREE mask and the last index. -/
theorem test_tree_write_masks : ∃ t, step { fresh with pending := [.write 0x1FF 0xFFFFFFFF] } = .next t ∧
    portRead 0x1FF t = 0x877FFFFF ∧ t.tree = [(255, 0x877FFFFF)] := ⟨_, rfl, by decide⟩

/-- V4, a word of reserved bits only leaves nothing listed. -/
theorem test_tree_write_reserved : ∃ t,
    step { tabled with pending := [.write 0x100 0x78800000] } = .next t ∧
    portRead 0x100 t = 0 ∧ t.tree = [(1, 0x81610000), (2, 0x86000100)] := ⟨_, rfl, by decide⟩

/-- V4, ignored writes. -/
theorem test_ignored_writes : portWrite 0x001 0xFFFFFFFF fresh = .next fresh ∧ portWrite 0x00C 1 fresh = .next fresh ∧
    portWrite 0x0FF 7 fresh = .next fresh ∧ portWrite 0x200 9 fresh = .next fresh := ⟨rfl, rfl, rfl, rfl⟩

/-- V29, the windows of the payload and the bytes of vector V32. -/
theorem test_windows :
    portRead 0x006 { fresh with bitbuf := unpackBytes [0x22, 0xB7, 0x3C, 0xAF], bitidx := 1 } = 0x456E795E ∧
    portRead 0x006 { fresh with bitbuf := unpackBytes [0x22, 0xB7, 0x3C, 0xAF], bitidx := 28 } = 0xF0000000 ∧
    portRead 0x006 { fresh with bitbuf := unpackBytes [0x22, 0xB7, 0x3C, 0xAF], bitidx := 0xFFFFFFFF } = 0 ∧
    portRead 0x009 { fresh with bytebuf := [0x01, 0x22, 0xB7], byteidx := 2 } = 0xB7 ∧
    portRead 0x009 { fresh with bytebuf := [0x01, 0x22, 0xB7], byteidx := 3 } = 0 := by decide

/-- V7, the port images of CT[97] and CT[98]; V22's places of CT[127]. -/
theorem test_ct_images : portRead 0x708 tabled = 0x80000001 ∧ portRead 0x709 tabled = 0x80000000 ∧
    portRead 0x710 tabled = 0x80000001 ∧ portRead 0x711 tabled = 0 ∧ portRead 0x00A tabled = 2 ∧
    portRead 0x001 tabled = 0x00000100 ∧
    portRead 0x7F8 { fresh with ct := [(127, [false])] } = 0x80000001 := by decide +kernel

/-- V15, the image of the longest code: 127 ones. -/
theorem test_ct_image_longest : entryWord (some (List.replicate 127 true)) 0 = 0x8000007F ∧
    entryWord (some (List.replicate 127 true)) 1 = 0xFFFFFFFF ∧
    entryWord (some (List.replicate 127 true)) 4 = 0xFFFFFFFE := by decide +kernel

/-! ### One step of each command -/

theorem test_nop : step (State.withFetchWord standing 32 0x00000000) = .next standing := rfl

/-- V3: the poison flag outlives CLRERR. -/
theorem test_clrerr : ∃ t, step (State.withFetchWord { poisoned with err := .invalidBitCharacter, errcmd := 0x21000078, errinfo := 0x78 } 32 0x01000000) = .next t ∧
    portRead 0x001 t = 0x00000800 ∧ t.errcmd = 0 ∧ t.errinfo = 0 ∧ t.bitbuf = [false] := ⟨_, rfl, by decide⟩

/-- V3: everything as in V1. -/
theorem test_sreset : step (State.withFetchWord { fullBits with err := .nocode, bitidx := 3 } 32 0x02000000) =
    .next fresh := rfl

/-- V7. -/
theorem test_ctgen : ∃ t, step (State.withFetchWord { fresh with tree := abTree } 32 0x10000002) = .next t ∧
    t.ct = abTable ∧ portRead 0x001 t = 0x00000100 := ⟨_, rfl, by decide⟩

/-- V12, second row: the leaf recorded before the fault is discarded. -/
theorem test_ctgen_badtree : ∃ t, step (State.withFetchWord
      { tabled with tree := [(0, 0x86000201), (1, 0x81610000)] } 32 0x10000000) = .next t ∧
    portRead 0x001 t = 0x00000005 ∧ t.errcmd = 0x10000000 ∧ t.errinfo = 0x00000102 ∧ portRead 0x00A t = 0 :=
  ⟨_, rfl, by decide⟩

/-- V17. -/
theorem test_ctclr : ∃ t, step (State.withFetchWord tabled 32 0x11000000) = .next t ∧
    portRead 0x00A t = 0 ∧ portRead 0x001 t = 0 ∧ t.tree = abTree := ⟨_, rfl, by decide⟩

/-- V17. -/
theorem test_tclr : ∃ t, step (State.withFetchWord tabled 32 0x12000000) = .next t ∧
    portRead 0x102 t = 0 ∧ t.ct = abTable ∧ portRead 0x001 t = 0x00000100 := ⟨_, rfl, by decide⟩

/-- V24. -/
theorem test_bclr : ∃ t, step (State.withFetchWord poisoned 32 0x20000000) = .next t ∧
    portRead 0x001 t = 0 ∧ portRead 0x004 t = 0 := ⟨_, rfl, by decide⟩

/-- V19. -/
theorem test_putch : ∃ t, step (State.withFetchWord { fresh with bitbuf := [true, false] } 32 0x21000031) = .next t ∧
    t.bitbuf = [true, false, true] ∧ portRead 0x006 t = 0xA0000000 := ⟨_, rfl, by decide⟩

/-- V25 (a): the character test comes first on a full buffer. -/
theorem test_putch_character_first : ∃ t, step (State.withFetchWord fullBits 32 0x21000078) = .next t ∧
    portRead 0x001 t = 0x00000901 ∧ t.errcmd = 0x21000078 ∧ t.errinfo = 0x78 ∧ t.bitlen = 16 := ⟨_, rfl, by decide⟩

/-- V20: a code of four bits after one bit, from V9's table. -/
theorem test_putsym : ∃ t, step (State.withFetchWord
      { fresh with ct := [(97, [false]), (98, [true, true, false])], ctv := true, bitbuf := [false] } 32 0x22000062) =
      .next t ∧ t.bitbuf = [false, true, true, false] ∧ t.err = .noFault := ⟨_, rfl, by decide⟩

/-- V25 (b): no part of a code that does not fit. -/
theorem test_putsym_bitovf : ∃ t, step (State.withFetchWord
      { fresh with ct := [(99, [true, true, false])], ctv := true, bitbuf := List.replicate 14 false } 32 0x22000063) =
      .next t ∧ portRead 0x001 t = 0x00000109 ∧ t.errinfo = 0x0000000E ∧ t.bitlen = 14 := ⟨_, rfl, by decide⟩

/-- V18, row 10. -/
theorem test_pack : ∃ t, step (State.withFetchWord { fresh with
      bitbuf := [true, false, true, true, false, false, true, true, true, false, false, false, true, true, true, true,
        false, false, false, false] } 32 0x23000000) = .next t ∧
    t.bytebuf = [0x1B, 0x38, 0xF0] ∧ t.padlen = 4 ∧ t.bitlen = 20 := ⟨_, rfl, by decide⟩

/-- V18, row 7: a full pad byte. -/
theorem test_pack_full_pad : ∃ t, step (State.withFetchWord { fresh with
      bitbuf := [true, false, true, false, true, false, true, false] } 32 0x23000000) = .next t ∧
    t.bytebuf = [0x01, 0xAA] ∧ t.padlen = 8 := ⟨_, rfl, by decide⟩

theorem test_yclr : ∃ t, step (State.withFetchWord fullBytes 32 0x30000000) = .next t ∧
    portRead 0x007 t = 0 ∧ portRead 0x009 t = 0 := ⟨_, rfl, by decide⟩

/-- P2. -/
theorem test_putbyte : ∃ t, step (State.withFetchWord fresh 32 0x3100001E) = .next t ∧ t.bytebuf = [0x1E] :=
  ⟨_, rfl, by decide⟩

/-- V28. -/
theorem test_putbyte_byteovf : ∃ t, step (State.withFetchWord fullBytes 32 0x310000FF) = .next t ∧
    portRead 0x001 t = 0x0000000A ∧ t.errcmd = 0x310000FF ∧ t.errinfo = 3 ∧ t.bytelen = 3 := ⟨_, rfl, by decide⟩

/-- V26, row 11. -/
theorem test_unpack : ∃ t, step (State.withFetchWord { fresh with bytebuf := [0x02, 0x5A] } 32 0x32000000) = .next t ∧
    t.padlen = 7 ∧ t.bitlen = 9 ∧ portRead 0x006 t = 0x2D000000 ∧ portRead 0x001 t = 0 := ⟨_, rfl, by decide⟩

/-- V26, row 8: only the first eight bits are scanned. -/
theorem test_unpack_first_byte_zero : ∃ t,
    step (State.withFetchWord { fresh with bytebuf := [0x00, 0x80, 0x01] } 32 0x32000000) = .next t ∧
    t.padlen = 8 ∧ t.bitlen = 16 ∧ portRead 0x006 t = 0x80010000 ∧ portRead 0x001 t = 0x00000400 :=
  ⟨_, rfl, by decide⟩

/-! ### Environment and assembler -/

/-- P1, P2: the source `aaab`, its leaf list, its tree. -/
theorem test_environment_aaab : sortedLeafList [97, 97, 97, 98] = [(98, 1), (97, 3)] ∧
    (buildTree [(98, 1), (97, 3)]).map treeImage = some abTree := by decide +kernel

/-- V27: the source `aabbc`. -/
theorem test_environment_tie : sortedLeafList [97, 97, 98, 98, 99] = [(99, 1), (97, 2), (98, 2)] ∧
    (buildTree [(99, 1), (97, 2), (98, 2)]).map treeImage =
      some [(2, 0x81620000), (0, 0x81630000), (1, 0x81610000), (3, 0x86000100), (4, 0x86000302)] := by decide +kernel

/-- V31: a payload that ends inside a walk, one that ends at the root, and a bit with no child to go to. -/
theorem test_decode_walk : decodeWalk tabled 2 [true, true, true, false] = .ok [97, 97, 97, 98] ∧
    decodeWalk { fresh with tree := [(0, 0x81610000), (1, 0x81620000), (2, 0x86000100), (3, 0x81630000), (4, 0x86000203)] }
      4 [true, false, true] = .error .truncatedStream ∧
    decodeWalk rootLeaf 5 [] = .error .rootIsLeaf ∧ decodeWalk fresh 0 [true] = .error .malformedTree := by decide

/-- The statements of P1 and P2 assemble to the words written beside them. -/
theorem test_assembler : assembleLine "NODE 2, INT 0, 1".toList = some [.write 0x102 0x86000100] ∧
    assembleLine "NODE 0, LEAF 'b' ; a leaf".toList = some [.write 0x100 0x81620000] ∧
    assembleLine "PUTCH '0'".toList = some [.write 0 0x21000030] ∧
    assembleLine "RD TREE[2] => 0x86000100".toList = some [.read 0x102] ∧
    assembleLine "WR BYTEIDX, 0".toList = some [.write 0x008 0] ∧
    assembleLine "PUTSTR \"01\"".toList = some [.write 0 0x21000030, .write 0 0x21000031] ∧
    assembleLine "PUTSYM 128".toList = none := by decide +kernel

/-! ### Witnesses: for every obligation with hypotheses, values that meet them -/

theorem witness_PortReadChangesNothing :
    { fresh with pending := [.read 0x00D] }.pending = .read 0x00D :: [] := by decide

theorem witness_SresetIsHardwareReset : Instr.clrerr ≠ .sreset ∧ ∃ t, exec .clrerr standing = .next t :=
  ⟨by decide, _, rfl⟩

theorem witness_ReadsFollowAddressMap : 0x00E ≤ (0x00E : WordIndex).toNat ∧ (0x00E : WordIndex).toNat ≤ 0x0FF ∧
    0x00E ≤ (0x0FF : WordIndex).toNat ∧ (0x0FF : WordIndex).toNat ≤ 0x0FF ∧
    0x200 ≤ (0x200 : WordIndex).toNat ∧ (0x200 : WordIndex).toNat ≤ 0x3FF ∧
    0x200 ≤ (0x3FF : WordIndex).toNat ∧ (0x3FF : WordIndex).toNat ≤ 0x3FF ∧ 7 < 8 ∧
    (0x007 : WordIndex) ≠ 0x000 ∧ (0x007 : WordIndex) ≠ 0x005 ∧ (0x007 : WordIndex) ≠ 0x008 ∧
    (0x007 : WordIndex).toNat < 0x100 ∧ 0x1FF < (0x200 : WordIndex).toNat := by decide

theorem witness_PortWriteDoesOneOfFive :
    (0x100 ≤ (0x100 : WordIndex).toNat ∧ (0x100 : WordIndex).toNat ≤ 0x1FF) ∧
    (0x100 ≤ (0x1FF : WordIndex).toNat ∧ (0x1FF : WordIndex).toNat ≤ 0x1FF) ∧
    ((0x0FF : WordIndex) ≠ 0x000 ∧ (0x0FF : WordIndex) ≠ 0x005 ∧ (0x0FF : WordIndex) ≠ 0x008 ∧
      ¬(0x100 ≤ (0x0FF : WordIndex).toNat ∧ (0x0FF : WordIndex).toNat ≤ 0x1FF)) ∧
    ((0x200 : WordIndex) ≠ 0x000 ∧ (0x200 : WordIndex) ≠ 0x005 ∧ (0x200 : WordIndex) ≠ 0x008 ∧
      ¬(0x100 ≤ (0x200 : WordIndex).toNat ∧ (0x200 : WordIndex).toNat ≤ 0x1FF)) := by decide

theorem witness_TreeWordReadsBackMasked : abTree.wf ∧ Memory.wf [] := by decide

theorem witness_BitdataIsWindowOfBitbuf : 0 < 32 ∧ 31 < 32 ∧ fullBits.bitidx.toNat + 15 < fullBits.bitlen ∧
    ¬ fullBits.bitidx.toNat + 16 < fullBits.bitlen ∧ Instr.nop ≠ .sreset ∧ exec .nop fullBits = .next fullBits :=
  ⟨by decide, by decide, by decide, by decide, by decide, rfl⟩

theorem witness_BytedataIsWindowOfBytebuf :
    { fullBytes with byteidx := 2 }.byteidx.toNat < { fullBytes with byteidx := 2 }.bytelen ∧
    { fullBytes with byteidx := 3 }.bytelen ≤ { fullBytes with byteidx := 3 }.byteidx.toNat ∧ 8 ≤ 8 := by decide

theorem witness_StatusBitsByField : 12 ≤ 12 ∧ (portRead 0x001 fullBits).getLsbD 12 = false := by decide

theorem witness_CodeImageLeftJustified : ([] : Bits).length ≤ 127 ∧ (List.replicate 127 true).length ≤ 127 ∧
    0 < 128 ∧ 127 < 128 ∧ 5 ≤ 5 := by decide +kernel

theorem witness_CtcountCountsValidEntries : tabled.ct.wf ∧ fresh.ct.wf := by decide

theorem witness_EncodeInvertsDecode : decode 0x2200007F = .ok (.putsym 127) := by decide

theorem witness_DecoderAgreesWithTable : wellFormedWord 0x22000080 = false ∧
    (⟨"PUTSYM", 0x22000000, 0xFFFFFF80⟩ : Row) ∈ opcodeTable ∧
    (⟨"PUTSYM", 0x22000000, 0xFFFFFF80⟩ : Row).selects 0x2200007F = true := by decide

theorem witness_TableRowsAreDisjoint : (⟨"CTGEN", 0x10000000, 0xFFFFFF00⟩ : Row) ∈ opcodeTable ∧
    (⟨"CTGEN", 0x10000000, 0xFFFFFF00⟩ : Row).selects 0x100000FF = true := by decide

theorem witness_BytesAreMsbFirst : [true, false, false, true, true, true, true, false].length = 8 ∧ 0 < 8 ∧ 7 < 8 := by
  decide

theorem witness_StepRunsDecodedCommand :
    { fresh with pending := [.write 0x000 0x23000000] }.pending = .write 0x000 0x23000000 :: [] ∧
    decode 0x23000000 = .ok .pack ∧
    { fresh with pending := [.write 0x1FF 7] }.pending = .write 0x1FF 7 :: [] ∧ fresh.pending = [] := by decide

theorem witness_IllegalWordRaisesIllcmd : wellFormedWord 0x22000080 = false ∧ fresh.err = .noFault ∧
    standing.err ≠ .noFault := by decide

theorem witness_StandingFaultDropsCommands : standing.err ≠ .noFault ∧ (0x01000001 : Word) ≠ 0x01000000 ∧
    (0x01000001 : Word) ≠ 0x02000000 ∧ (0x002 : WordIndex) ≠ 0x001 := by decide

theorem witness_NopChangesNothing : fresh.err = .noFault := by decide

/-- The states used below meet the invariant of the state. -/
theorem tabled_StateInv : StateInv tabled :=
  ⟨by decide, by decide, by decide, by decide, by decide, by decide, by decide, by decide⟩

theorem witness_ClrerrAcknowledgesFault : StateInv tabled ∧ tabled.err = .noFault ∧ standing.err ≠ .noFault ∧
    poisoned.bpoison = true := ⟨tabled_StateInv, by decide, by decide, by decide⟩

theorem abTree_walks : walk abTree Config.maxLen 2 [] [] = .ok abTable := by decide

theorem witness_CtgenRecordsEveryLeafPath : tabled.err = .noFault ∧ WalkableImage tabled.tree 2 :=
  ⟨by decide, walkable_of_walk_ok abTree_walks⟩

/-- A word that is no node, as root, is no walkable image. -/
theorem not_walkable_nil (r : NodeIndex) : ¬ WalkableImage [] r := fun h => by
  have := h.nodes [] r (.here r)
  simp [leafNode, internalNode, nodePresent, Memory.read, cellsFind] at this

theorem witness_CtgenFaultLeavesEmptyTable : fresh.err = .noFault ∧ ¬ WalkableImage fresh.tree 5 :=
  ⟨by decide, not_walkable_nil 5⟩

/-- V12 first row, V13 first row, V14. -/
theorem witness_CtgenReportsFirstFailingNode :
    (∃ t, exec (.ctgen 5) fresh = .next t ∧ t.err = .badtree ∧ portRead 0x001 t = 0x00000005 ∧ t.errinfo = 0x00000005) ∧
    (∃ t, exec (.ctgen 0) twice = .next t ∧ t.err = .dupsym ∧ portRead 0x001 t = 0x00000007 ∧ t.errinfo = 0x00000102) ∧
    ∃ t, exec (.ctgen 0) cyclic = .next t ∧ t.err = .depth ∧ portRead 0x001 t = 0x00000006 ∧ t.errinfo = 0x00007F00 :=
  ⟨⟨_, rfl, by decide⟩, ⟨_, rfl, by decide⟩, ⟨_, rfl, by decide +kernel⟩⟩

theorem witness_RootLeafGetsEmptyCode : rootLeaf.err = .noFault ∧ rootLeaf.bitlen ≤ rootLeaf.bitcap ∧
    leafNode (rootLeaf.tree.read (5 : NodeIndex).toNat) = true ∧
    tabled.err = .noFault ∧ internalNode (tabled.tree.read (2 : NodeIndex).toNat) = true ∧
    leafNode (tabled.tree.read (leftField (tabled.tree.read (2 : NodeIndex).toNat)).toNat) = true ∧
    leafNode (tabled.tree.read (rightField (tabled.tree.read (2 : NodeIndex).toNat)).toNat) = true ∧
    symbolField (tabled.tree.read (leftField (tabled.tree.read (2 : NodeIndex).toNat)).toNat) ≠
      symbolField (tabled.tree.read (rightField (tabled.tree.read (2 : NodeIndex).toNat)).toNat) := by decide

theorem witness_LeftCycleFaultsAtDepth127 : cyclic.err = .noFault ∧
    internalNode (cyclic.tree.read (0 : NodeIndex).toNat) = true ∧
    leftField (cyclic.tree.read (0 : NodeIndex).toNat) = 0 := by decide

/-- The tree of V7 ten places higher, with stray fields in a leaf and in the internal node. -/
def movedTree : Memory := [(10, 0x87620903), (11, 0x81610000), (12, 0x86610B0A)]

theorem reaches_abTree {r n : NodeIndex} {p : Bits} (h : Reaches abTree r p n) (hr : r = 0 ∨ r = 1 ∨ r = 2) :
    n = 0 ∨ n = 1 ∨ n = 2 := by
  induction h with
  | here n => exact hr
  | left hi _ ih =>
    rcases hr with rfl | rfl | rfl
    · exact absurd hi (by decide)
    · exact absurd hi (by decide)
    · exact ih (by decide)
  | right hi _ ih =>
    rcases hr with rfl | rfl | rfl
    · exact absurd hi (by decide)
    · exact absurd hi (by decide)
    · exact ih (by decide)

theorem witness_CtgenIgnoresPlacement : tabled.err = .noFault ∧ { fresh with tree := movedTree }.err = .noFault ∧
    ∀ p n, Reaches tabled.tree 2 p n →
      SameNode (· + 10) (tabled.tree.read n.toNat) ({ fresh with tree := movedTree }.tree.read (n + 10).toNat) := by
  refine ⟨by decide, by decide, fun p n h => ?_⟩
  rcases reaches_abTree h (by decide) with rfl | rfl | rfl <;> unfold SameNode <;> decide

theorem witness_CtclrUnsetsEveryEntry : tabled.err = .noFault := by decide
theorem witness_TclrClearsTreeOnly : tabled.err = .noFault := by decide
theorem witness_BclrStartsBitString : poisoned.err = .noFault := by decide

theorem witness_PutchAppendsOneBit : (∃ t, exec (.putch 0x31) poisoned = .next t ∧ poisoned.bpoison = true) ∧ fresh.err = .noFault ∧ ((0x2F : Byte) ≠ 0x30 ∧ (0x2F : Byte) ≠ 0x31) ∧
    ((0x32 : Byte) ≠ 0x30 ∧ (0x32 : Byte) ≠ 0x31) ∧
    (fullBits.err = .noFault ∧ ((0x30 : Byte) = 0x30 ∨ (0x30 : Byte) = 0x31) ∧ fullBits.bitlen = fullBits.bitcap) ∧
    ((0x31 : Byte) = 0x30 ∨ (0x31 : Byte) = 0x31) ∧ fresh.bitlen ≠ fresh.bitcap :=
  ⟨⟨_, rfl, rfl⟩, by decide⟩

/-- A code of one bit on a full buffer, and on one with one bit free. -/
theorem witness_PutsymAppendsWholeCode : (fresh.err = .noFault ∧ fresh.ct.find (97 : Symbol).toNat = none) ∧
    (fullBits.err = .noFault ∧ fullBits.ct.find (97 : Symbol).toNat = some [true] ∧
      fullBits.bitcap < fullBits.bitlen + [true].length) ∧
    { fullBits with bitbuf := List.replicate 15 true }.bitlen + [true].length ≤ fullBits.bitcap ∧
    0x80 ≤ (0x80 : Byte).toNat ∧ 0x80 ≤ (0xFF : Byte).toNat := by decide

theorem witness_PackWritesWireFormat : fullBits.err = .noFault ∧ fullBits.bpoison = false ∧
    8 = 8 - fullBits.bitlen % 8 ∧ 2 < fullBits.bitlen / 8 + 1 ∧ 7 < 8 ∧ fullBits.bitlen ≤ fullBits.bitcap ∧
    poisoned.err = .noFault ∧ poisoned.bpoison = true := by decide

theorem witness_PackedFirstByteCarriesPadding : fullBits.err = .noFault ∧ fullBits.bpoison = false ∧
    ∃ t, exec .pack fullBits = .next t := ⟨by decide, by decide, _, rfl⟩

theorem witness_YclrStartsByteSequence : fullBytes.err = .noFault := by decide

theorem witness_PutbyteAppendsOneByte : (fullBytes.err = .noFault ∧ fullBytes.bytelen = fullBytes.bitcap / 8 + 1) ∧
    fresh.err = .noFault ∧ fresh.bytelen ≠ fresh.bitcap / 8 + 1 := by decide

/-- Each clause of the marker rule at its bounds: no byte, a one in bit 7, a one in bit 0, no one (V26 rows 1, 4, 6, 2). -/
theorem witness_MarkerRuleSettlesEverySequence : MarkerRule [] 0 true ∧ MarkerRule [0x80] 1 false ∧
    MarkerRule [0x01] 8 false ∧ MarkerRule [0x00] 8 true := by
  refine ⟨.inl ⟨rfl, rfl, rfl⟩, .inr (.inl ⟨0x80, [], 0, rfl, by decide, by decide, by decide, rfl, rfl⟩),
    .inr (.inl ⟨0x01, [], 7, rfl, by decide, by decide, by decide, rfl, rfl⟩), .inr (.inr ⟨[], rfl, rfl, rfl⟩)⟩

/-- V28: sixteen payload bits fit in BITCAP = 16, twenty-three do not. -/
theorem witness_UnpackDeliversPayload : (fullBytes.err = .noFault ∧ MarkerRule fullBytes.bytebuf 8 false ∧
      8 * fullBytes.bytelen - 8 ≤ fullBytes.bitcap ∧ 15 < 8 * fullBytes.bytelen - 8) ∧
    MarkerRule { fresh with bytebuf := [0x80, 0x00, 0x00] }.bytebuf 1 false ∧
    fresh.bitcap < 8 * { fresh with bytebuf := [0x80, 0x00, 0x00] }.bytelen - 1 ∧
    { fresh with bytebuf := [0x80, 0x00, 0x00] }.bytelen ≤ fresh.bitcap / 8 + 1 := by
  refine ⟨⟨by decide, .inr (.inl ⟨0x01, _, 7, rfl, by decide, by decide, by decide, rfl, rfl⟩), by decide, by decide⟩,
    .inr (.inl ⟨0x80, _, 0, rfl, by decide, by decide, by decide, rfl, rfl⟩), by decide, by decide⟩

theorem witness_UnpackAfterPackRestoresBits : fullBits.err = .noFault ∧ fullBits.bpoison = false ∧
    fullBits.bitlen ≤ fullBits.bitcap := by decide

theorem witness_PackAfterUnpackRestoresBytes : fullBytes.err = .noFault ∧ fullBytes.bytebuf = 0x01 :: [0xAA, 0x55] ∧
    MarkerRule fullBytes.bytebuf 8 false ∧ 8 * fullBytes.bytelen - 8 ≤ fullBytes.bitcap ∧
    MarkerRule { fresh with bytebuf := [0x00, 0xFF] }.bytebuf 8 true :=
  ⟨by decide, by decide, .inr (.inl ⟨0x01, _, 7, rfl, by decide, by decide, by decide, rfl, rfl⟩), by decide,
    .inr (.inr ⟨_, rfl, rfl, rfl⟩)⟩

theorem witness_TenCommandsAreIdempotent : ∃ t, exec .unpack fullBytes = .next t ∧ t ≠ fullBytes :=
  ⟨_, rfl, by decide⟩

/-- V20: NOCODE is cause 8. -/
theorem witness_CausesByCommand : fresh.err = .noFault ∧
    ∃ t, exec (.putsym 97) fresh = .next t ∧ t.err ≠ .noFault ∧ portRead 0x001 t = 0x00000008 :=
  ⟨by decide, _, rfl, by decide⟩

theorem witness_FaultingCommandLeavesTheRest : fresh.err = .noFault ∧ wellFormedWord 0x7F000000 = false ∧
    (∃ t, exec (.putch 0x78) fresh = .next t ∧ t.err = .invalidBitCharacter) ∧
    (∃ t, exec (.ctgen 5) tabled = .next t ∧ t.err ≠ .noFault) ∧
    ∃ t, exec (.putbyte 0) fullBytes = .next t ∧ t.err ≠ .noFault :=
  ⟨by decide, by decide, ⟨_, rfl, by decide⟩, ⟨_, rfl, by decide⟩, ⟨_, rfl, by decide⟩⟩

theorem witness_StandingFaultIsNeverOverwritten : standing.err ≠ .noFault ∧
    (∃ t, step { standing with pending := [.write 0 0x21000078] } = .next t ∧ t.err = .nocode) ∧
    ∃ t, step { standing with pending := [.write 0 0x01000000] } = .next t ∧ t.err = .noFault :=
  ⟨by decide, ⟨_, rfl, by decide⟩, ⟨_, rfl, by decide⟩⟩

/-- A command that writes each piece of state the statement speaks of. -/
theorem witness_OnlyTheseCommandsWrite :
    (∃ t, exec .tclr tabled = .next t ∧ t.tree ≠ tabled.tree) ∧
    (∃ t, exec .ctclr tabled = .next t ∧ t.ct ≠ tabled.ct) ∧
    (∃ t, exec (.putch 0x31) fresh = .next t ∧ t.bitbuf ≠ fresh.bitbuf) ∧
    (∃ t, exec .pack fresh = .next t ∧ t.bytebuf ≠ fresh.bytebuf ∧ t.padlen ≠ fresh.padlen) ∧
    (∃ t, exec .sreset { fresh with bitidx := 1 } = .next t ∧ t.bitidx ≠ 1) ∧
    (∃ t, exec .unpack fresh = .next t ∧ t.nomark ≠ fresh.nomark) ∧
    ∃ t, exec .bclr poisoned = .next t ∧ t.bpoison ≠ poisoned.bpoison :=
  ⟨⟨_, rfl, by decide⟩, ⟨_, rfl, by decide⟩, ⟨_, rfl, by decide⟩, ⟨_, rfl, by decide⟩, ⟨_, rfl, by decide⟩,
    ⟨_, rfl, by decide⟩, ⟨_, rfl, by decide⟩⟩

theorem witness_ResetMeetsInvariants : 8 ≤ 8 ∧ 8 ≤ 2 ^ 31 ∧ 8 ≤ 2 ^ 31 ∧ 2 ^ 31 ≤ 2 ^ 31 := by decide

/-- A step that writes TREE, in a state that is not the reset state. -/
theorem witness_StepKeepsStateInv : StateInv { tabled with pending := [.write 0x1FF 0xFFFFFFFF] } ∧
    ∃ t, step { tabled with pending := [.write 0x1FF 0xFFFFFFFF] } = .next t :=
  ⟨⟨by decide, by decide, by decide, by decide, by decide, by decide, by decide, by decide⟩, _, rfl⟩

/-- A step that rebuilds the table. -/
theorem witness_StepKeepsTableInv : TableInv { tabled with pending := [.write 0 0x10000002] } ∧
    ∃ t, step { tabled with pending := [.write 0 0x10000002] } = .next t :=
  ⟨⟨by decide, by decide, by unfold PrefixFree; decide, by decide +kernel⟩, _, rfl⟩

theorem witness_DecodeWalkInvertsCodes : tabled.err = .noFault ∧
    ∃ t, exec (.ctgen 2) tabled = .next t ∧ t.err = .noFault ∧ t.zlen = false ∧
      [(97 : Symbol), 98].map (fun sym => t.ct.find sym.toNat) = [[true], [false]].map some :=
  ⟨by decide, _, rfl, by decide⟩

theorem witness_LeafListIsSortedAndComplete :
    ∃ a ∈ [(97 : Symbol), 97, 98], ∃ b ∈ [(97 : Symbol), 97, 98], a ≠ b := by decide

/-- V21 and V22: one character, and the wrap at 127. -/
theorem witness_SingletonListHasSyntheticLeaf : 1 ≤ 1 ∧ sortedLeafList [97] = [(97, 1), (98, 0)] ∧
    sortedLeafList [127, 127] = [(127, 2), (0, 0)] := by decide +kernel

/-- P1's list: two records, one pass. -/
theorem witness_BuilderPlacesEveryRecord : 2 ≤ ([(98, 1), (97, 3)] : List LeafRecord).length ∧
    ([(98, 1), (97, 3)] : List LeafRecord)[1]? = some (97, 3) ∧
    0 < ([(98, 1), (97, 3)] : List LeafRecord).length - 1 := by decide

/-- V23's source with k = 8 and k = 9: each symbol has a code of one bit; on BITCAP = 8 eight fit, nine do not. -/
theorem witness_NonemptySourceEncodes : List.replicate 8 (97 : Symbol) ≠ [] ∧ List.replicate 9 (97 : Symbol) ≠ [] ∧
    ((treeOfSource (List.replicate 8 97)).toOption.map leafPaths) = some [(97, [false]), (98, [true])] ∧
    ((treeOfSource (List.replicate 9 97)).toOption.map leafPaths) = some [(97, [false]), (98, [true])] ∧
    ((List.replicate 8 [false]).map List.length).sum ≤ (State.resetWith 8).bitcap ∧
    (State.resetWith 8).bitcap ≤ 2 ^ 31 ∧
    (State.resetWith 8).bitcap < ((List.replicate 9 [false]).map List.length).sum := by decide +kernel

/-- V23: with BITCAP < k the encode ends in BITOVF; with BITCAP = k it gives the pad byte and k zero bits. -/
theorem test_encode_capacity :
    ((encodeSource (List.replicate 8 97) (State.resetWith 8)).toOption.map Prod.fst) = some [0x01, 0x00] ∧
    (match encodeSource (List.replicate 9 97) (State.resetWith 8) with
      | .error e => some e
      | .ok _ => none) = some (.blockFault .bitovf) := by decide +kernel

/-- P1: the source `aaab` encodes to the one byte 0x1E. -/
theorem test_encode_aaab :
    ((encodeSource [97, 97, 97, 98] fresh).toOption.map Prod.fst) = some [0x1E] := by decide +kernel

/-- P2: the byte 0x1E decodes to `aaab`. -/
theorem test_decode_aaab :
    ((decodeBytes [97, 97, 97, 98] [0x1E] fresh).toOption.map Prod.fst) = some [97, 97, 97, 98] := by decide +kernel

theorem witness_EncodeDecodeRoundTrip : fresh.bitcap ≤ 2 ^ 31 ∧ standing.bitcap = fresh.bitcap ∧
    ∃ bytes t, encodeSource [97, 97, 97, 98] fresh = .ok (bytes, t) := by
  refine ⟨by decide, rfl, ?_⟩
  have h := test_encode_aaab
  cases he : encodeSource [97, 97, 97, 98] fresh with
  | error e => rw [he] at h; simp [Except.toOption] at h
  | ok p => exact ⟨p.1, p.2, rfl⟩

theorem witness_AssembledWordsAreEncodings : 255 < 256 ∧ ¬ 256 < 256 ∧ 127 < 128 ∧ ¬ 128 < 128 ∧
    Instr.unpack ∈ [Instr.nop, .clrerr, .sreset, .ctclr, .tclr, .bclr, .pack, .yclr, .unpack] ∧
    "PUTBYTE" ∈ ["CTGEN", "PUTCH", "PUTSYM", "PUTBYTE"] ∧
    "NOPE".toList ∉ opcodeTable.map (fun r => r.mnemonic.toList) := by decide

end Sys2Proof.Tests
end

section
/-! The decoder on the encoder's words (30_encoding.md rules R60, R61, R63). -/

namespace Sys2Proof

theorem decodeArg_commandWord (opc arg : Byte) (k : Byte → Except Illegal Instr) :
    decodeArg (commandWord opc arg) k = k arg := by
  rw [decodeArg, zField_commandWord, argField_commandWord, if_pos rfl]

theorem decodeBare_commandWord (opc : Byte) (i : Instr) : decodeBare (commandWord opc 0#8) i = .ok i := by
  rw [decodeBare, decodeArg_commandWord]
  exact if_pos rfl

/-- The symbol of PUTSYM survives its widening to ARG, whose bit 7 is then 0 (R63). -/
theorem decodeSymbol_setWidth (s : Symbol) : decodeSymbol (s.setWidth 8) = .ok (.putsym s) := by
  have hbit : (s.setWidth 8).getLsbD 7 = false := by simp
  have hsym : (s.setWidth 8).extractLsb' 0 7 = s := by
    rw [← BitVec.setWidth_eq_extractLsb' (by omega), BitVec.setWidth_setWidth_of_le s (by omega), BitVec.setWidth_eq]
  rw [decodeSymbol, hbit, hsym]
  rfl

/-- Every command is what its own word decodes to (R61). -/
theorem decode_encode (i : Instr) : decode (encode i) = .ok i := by
  cases i with
  | nop | clrerr | sreset | ctclr | tclr | bclr | pack | yclr | unpack =>
    simp [encode, decode, opcField_commandWord, decodeBare_commandWord]
  | ctgen a | putch a | putbyte a => simp [encode, decode, opcField_commandWord, decodeArg_commandWord]
  | putsym s => simp [encode, decode, opcField_commandWord, decodeArg_commandWord, decodeSymbol_setWidth]

end Sys2Proof
end

section
/-! One step of the host, forwards: what the next pending transaction makes of it (00_scope.md rule R9, 20_memory.md
rule R42, 30_encoding.md rule R62). -/

namespace Sys2Proof.Machine

theorem step_of_pending_nil {s : State} (h : s.pending = []) : step s = .next s := by
  rw [step, hostStep, h]

theorem step_of_pending_write {s : State} {rest : List Txn} {wa : WordIndex} {v : Word}
    (h : s.pending = .write wa v :: rest) : step s = portWrite wa v (issue rest s) := by
  simp only [step, hostStep, h, transact]

/-- Word index 0x000 is CMD (R42 a). -/
theorem portWrite_cmd (v : Word) (s : State) : portWrite 0x000 v s = execWord v s := rfl

theorem execWord_of_decode_ok {w : Word} {i : Instr} (h : decode w = .ok i) (s : State) :
    execWord w s = exec i s := by
  rw [execWord, h]

/-- A command word at CMD is executed as the command it decodes to (R62). -/
theorem step_of_pending_command {s : State} {rest : List Txn} {w : Word} {i : Instr}
    (hp : s.pending = .write 0x000 w :: rest) (hd : decode w = .ok i) : step s = exec i (issue rest s) := by
  rw [step_of_pending_write hp, portWrite_cmd, execWord_of_decode_ok hd]

/-- Issuing the command just placed gives the state it was placed in. -/
theorem issue_placeCommand (v : Word) (s : State) : issue s.pending (placeCommand v s) = s := rfl

/-- A 32-bit table word is placed as it is. -/
theorem withFetchWord_toNat (s : State) (w : Word) : s.withFetchWord 32 w.toNat = placeCommand w s := by
  rw [State.withFetchWord, Nat.mod_eq_of_lt w.isLt, BitVec.ofNat_toNat, BitVec.setWidth_eq]

theorem step_withFetchWord_encode (s : State) (i : Instr) :
    step (s.withFetchWord 32 (encode i).toNat) = exec i s := by
  rw [withFetchWord_toNat, step_of_pending_command (placeCommand_pending _ _) (decode_encode i), issue_placeCommand]

/-- Settles O19, from what a step makes of each kind of pending transaction and from `decode_encode`. -/
theorem stepRunsDecodedCommand : Obligations.StepRunsDecodedCommand :=
  ⟨fun _ _ _ _ hp hd => step_of_pending_command hp hd, fun _ _ _ _ hp => step_of_pending_write hp,
    fun _ hp => step_of_pending_nil hp, step_withFetchWord_encode⟩

end Sys2Proof.Machine
end

section
/-! The effect of a command as one function of the state, its drop while a fault stands, and what each command's rule
writes (30_encoding.md rule R62, 10_state.md rules R17 to R33). -/

namespace Sys2Proof.Machine

/-- What a command makes of a state once it is executed. -/
def effect : Instr → State → State
  | .nop => id
  | .clrerr => clearFault
  | .sreset => resetBlock
  | .ctgen r => deriveTable r
  | .ctclr => clearTable
  | .tclr => fun s => { s with tree := [] }
  | .bclr => fun s => { s with bitbuf := [], bpoison := false }
  | .putch c => putChar c
  | .putsym sym => putSymbol sym
  | .pack => packBits
  | .yclr => fun s => { s with bytebuf := [] }
  | .putbyte b => putByte b
  | .unpack => unpackBits

/-- A command is executed, or, while a fault stands, dropped, unless it is CLRERR or SRESET (R62). -/
theorem exec_eq (i : Instr) (s : State) :
    exec i s = .next (if s.err = .noFault ∨ i = .clrerr ∨ i = .sreset then effect i s else s) := by
  cases i with
  | clrerr | sreset => simp [exec, execClrerr, execSreset, effect]
  | _ => exact congrArg Host.Outcome.next (if_congr (by simp) rfl rfl)

/-- All that a command can do. -/
theorem exec_cases {i : Instr} {s t : State} (h : exec i s = .next t) : t = effect i s ∨ t = s := by
  rw [exec_eq, Host.Outcome.next.injEq] at h
  split_ifs at h
  · exact .inl h.symm
  · exact .inr h.symm

/-! ### What each rule writes -/

theorem deriveTable_writes (r : NodeIndex) (s : State) : ∃ ct ctv zlen err errcmd errinfo, deriveTable r s =
    { s with ct := ct, ctv := ctv, zlen := zlen, err := err, errcmd := errcmd, errinfo := errinfo } := by
  obtain ⟨t, -, h⟩ | ⟨c, info, -, h⟩ := deriveTable_cases r s
  all_goals exact ⟨_, _, _, _, _, _, h⟩

theorem putChar_writes (c : Byte) (s : State) : ∃ bitbuf bpoison err errcmd errinfo, putChar c s =
    { s with bitbuf := bitbuf, bpoison := bpoison, err := err, errcmd := errcmd, errinfo := errinfo } := by
  obtain ⟨-, -, h⟩ | ⟨-, -, h⟩ | ⟨-, -, h⟩ := putChar_cases c s
  all_goals exact ⟨_, _, _, _, _, h⟩

theorem putSymbol_writes (sym : Symbol) (s : State) : ∃ bitbuf err errcmd errinfo, putSymbol sym s =
    { s with bitbuf := bitbuf, err := err, errcmd := errcmd, errinfo := errinfo } := by
  obtain ⟨-, h⟩ | ⟨code, -, ⟨-, h⟩ | ⟨-, h⟩⟩ := putSymbol_cases sym s
  all_goals exact ⟨_, _, _, _, h⟩

theorem packBits_writes (s : State) : ∃ bytebuf padlen err errcmd errinfo, packBits s =
    { s with bytebuf := bytebuf, padlen := padlen, err := err, errcmd := errcmd, errinfo := errinfo } := by
  obtain ⟨-, h⟩ | ⟨-, h⟩ := packBits_cases s
  all_goals exact ⟨_, _, _, _, _, h⟩

theorem putByte_writes (b : Byte) (s : State) : ∃ bytebuf err errcmd errinfo, putByte b s =
    { s with bytebuf := bytebuf, err := err, errcmd := errcmd, errinfo := errinfo } := by
  obtain ⟨-, h⟩ | ⟨-, h⟩ := putByte_cases b s
  all_goals exact ⟨_, _, _, _, h⟩

theorem unpackBits_writes (s : State) : ∃ bitbuf bpoison nomark padlen err errcmd errinfo, unpackBits s =
    { s with bitbuf := bitbuf, bpoison := bpoison, nomark := nomark, padlen := padlen, err := err,
             errcmd := errcmd, errinfo := errinfo } := by
  obtain ⟨discard, nomark, -, ⟨-, h⟩ | ⟨-, h⟩⟩ := unpackBits_cases s
  all_goals exact ⟨_, _, _, _, _, _, _, h⟩

/-- Settles O50: a dropped command writes nothing, and an executed one what its rule writes. -/
theorem onlyTheseCommandsWrite : Obligations.OnlyTheseCommandsWrite := by
  intro i s t h
  obtain rfl | rfl := exec_cases h
  · cases i with
    | nop | clrerr | sreset | ctclr | tclr | bclr | yclr => simp [effect, KeepsHost]
    | ctgen r => obtain ⟨_, _, _, _, _, _, h⟩ := deriveTable_writes r s; simp [effect, h, KeepsHost]
    | putch c => obtain ⟨_, _, _, _, _, h⟩ := putChar_writes c s; simp [effect, h, KeepsHost]
    | putsym sym => obtain ⟨_, _, _, _, h⟩ := putSymbol_writes sym s; simp [effect, h, KeepsHost]
    | pack => obtain ⟨_, _, _, _, _, h⟩ := packBits_writes s; simp [effect, h, KeepsHost]
    | putbyte b => obtain ⟨_, _, _, _, h⟩ := putByte_writes b s; simp [effect, h, KeepsHost]
    | unpack => obtain ⟨_, _, _, _, _, _, _, h⟩ := unpackBits_writes s; simp [effect, h, KeepsHost]
  · simp [KeepsHost]

end Sys2Proof.Machine
end

section
/-! What every step keeps: a property that the four things a step can do to the block keep is kept by every step
(20_memory.md rule R42, 30_encoding.md rule R62). -/

namespace Sys2Proof.Machine

/-- A step moves the window positions and the host's lists, writes a TREE word, rejects an illegal word, or executes a
command. -/
theorem step_keeps {P : State → Prop}
    (outside : ∀ (s : State) (bitidx byteidx : Word) (pending : List Txn) (replies : List Word), P s →
      P { s with bitidx := bitidx, byteidx := byteidx, pending := pending, replies := replies })
    (treeWrite : ∀ (s : State) (i : Nat) (v : Word), i < Config.nnode → P s → P { s with tree := s.tree.write i v })
    (illegal : ∀ (s : State) (w : Word), P s → P (raise w .illcmd 0 s))
    (command : ∀ (i : Instr) (s t : State), P s → exec i s = .next t → P t)
    {s t : State} (hs : P s) (h : step s = .next t) : P t := by
  obtain ⟨-, rfl⟩ | ⟨wa, rest, -, rfl⟩ | ⟨wa, v, rest, -, hw⟩ := step_cases h
  · exact hs
  · exact outside s _ _ _ _ hs
  have hi : P (issue rest s) := outside s _ _ _ _ hs
  obtain ⟨-, he⟩ | rfl | rfl | ⟨hlo, hhi, rfl⟩ | rfl := portWrite_cases hw
  · obtain ⟨i, -, hx⟩ | ⟨-, ⟨-, rfl⟩ | ⟨-, rfl⟩⟩ := execWord_cases he
    · exact command i _ _ hi hx
    · exact illegal _ v hi
    · exact hi
  · exact outside s _ _ _ _ hs
  · exact outside s _ _ _ _ hs
  · exact treeWrite _ _ v (by simp only [Config.nnode]; omega) hi
  · exact hi

end Sys2Proof.Machine
end

section
/-! The bounds and canonical forms of the state, `StateInv`: at reset, and kept by every step. -/

namespace Sys2Proof.Machine

/-- UNPACK discards at most eight bits (R112). -/
theorem markerScan_le (g : Bits) : (markerScan g).1 ≤ 8 := by
  unfold markerScan
  split_ifs
  · exact Nat.zero_le 8
  split
  next p hp =>
    obtain ⟨hlt, -⟩ := List.findIdx?_eq_some_iff_getElem.1 hp
    rw [List.length_take] at hlt
    show p + 1 ≤ 8
    omega
  · exact le_rfl

/-- A packed bit string fits BYTECAP when the bit string fits BITCAP (00_scope.md rule R38). -/
theorem length_packed (bs : Bits) : (packBytes (withMarker bs)).length = bs.length / 8 + 1 := by
  rw [length_packBytes, length_withMarker, Nat.mul_div_cancel_left _ (by omega)]

theorem toNat_ofNat_le {d : Nat} (h : d ≤ 8) : (BitVec.ofNat 32 d).toNat ≤ 8 := by
  rw [BitVec.toNat_ofNat]
  exact (Nat.mod_le _ _).trans h

/-- The state after reset, for every admitted BITCAP. -/
theorem stateInv_resetBlock {s : State} (h : Config.bitcapMin ≤ s.bitcap ∧ s.bitcap ≤ Config.bitcapMax) :
    StateInv (resetBlock s) where
  bitcap_admitted := h
  tree_wf := Memory.wf_nil
  ct_wf := CodeTable.wf_nil
  bits_fit := Nat.zero_le _
  bytes_fit := Nat.zero_le _
  padlen_le := Nat.zero_le _
  err_of_block := by simp
  clear_when_no_fault := by simp

/-- Fault entry with a cause that the block raises. -/
theorem StateInv.raise {s : State} (h : StateInv s) {c : Cause} (w info : Word)
    (hc : c ≠ .noFault ∧ c ≠ .ioFailure ∧ c ≠ .truncatedStream) : StateInv (raise w c info s) :=
  { h with err_of_block := hc.2, clear_when_no_fault := fun h0 => absurd h0 hc.1 }

theorem StateInv.clearFault {s : State} (h : StateInv s) : StateInv (clearFault s) :=
  { h with err_of_block := by simp, clear_when_no_fault := by simp }

theorem StateInv.clearTable {s : State} (h : StateInv s) : StateInv (clearTable s) :=
  { h with ct_wf := CodeTable.wf_nil }

theorem StateInv.deriveTable {s : State} (h : StateInv s) (r : NodeIndex) : StateInv (deriveTable r s) := by
  obtain ⟨t, hw, he⟩ | ⟨c, info, hw, he⟩ := deriveTable_cases r s
  · exact he ▸ { h with ct_wf := walk_ok_wf hw CodeTable.wf_nil (by simp) }
  · rw [he]
    refine h.clearTable.raise _ _ ?_
    obtain rfl | rfl | rfl := walk_error_cause hw <;> decide

theorem StateInv.appendBits {s : State} (h : StateInv s) {bits : Bits} (hfit : s.bitlen + bits.length ≤ s.bitcap) :
    StateInv (appendBits bits s) :=
  { h with bits_fit := (List.length_append ..).trans_le hfit }

theorem StateInv.putChar {s : State} (h : StateInv s) (c : Byte) : StateInv (putChar c s) := by
  obtain ⟨-, -, he⟩ | ⟨-, -, he⟩ | ⟨-, hne, he⟩ := putChar_cases c s <;> rw [he]
  · have hp : StateInv { s with bpoison := true } := { h with }
    exact hp.raise _ _ (by decide)
  · exact h.raise _ _ (by decide)
  · exact h.appendBits (lt_of_le_of_ne h.bits_fit hne)

theorem StateInv.putSymbol {s : State} (h : StateInv s) (sym : Symbol) : StateInv (putSymbol sym s) := by
  obtain ⟨-, he⟩ | ⟨code, -, ⟨-, he⟩ | ⟨hfit, he⟩⟩ := putSymbol_cases sym s <;> rw [he]
  · exact h.raise _ _ (by decide)
  · exact h.raise _ _ (by decide)
  · exact h.appendBits hfit

theorem StateInv.packBits {s : State} (h : StateInv s) : StateInv (packBits s) := by
  obtain ⟨-, he⟩ | ⟨-, he⟩ := packBits_cases s <;> rw [he]
  · exact h.raise _ _ (by decide)
  · exact { h with
      bytes_fit := (length_packed _).trans_le (Nat.succ_le_succ (Nat.div_le_div_right h.bits_fit))
      padlen_le := toNat_ofNat_le (Nat.sub_le _ _) }

theorem StateInv.putByte {s : State} (h : StateInv s) (b : Byte) : StateInv (putByte b s) := by
  obtain ⟨-, he⟩ | ⟨hne, he⟩ := putByte_cases b s <;> rw [he]
  · exact h.raise _ _ (by decide)
  · exact { h with bytes_fit := (List.length_append ..).trans_le (lt_of_le_of_ne h.bytes_fit hne) }

theorem StateInv.unpackBits {s : State} (h : StateInv s) : StateInv (unpackBits s) := by
  obtain ⟨discard, nomark, hm, ⟨-, he⟩ | ⟨hfit, he⟩⟩ := unpackBits_cases s <;> rw [he]
  · exact h.raise _ _ (by decide)
  · have hdrop : ((unpackBytes s.bytebuf).drop discard).length = 8 * s.bytelen - discard := by
      rw [List.length_drop, length_unpackBytes, State.bytelen]
    have hle : discard ≤ 8 := by simpa [hm] using markerScan_le (unpackBytes s.bytebuf)
    exact { h with bits_fit := hdrop.trans_le hfit, padlen_le := toNat_ofNat_le hle }

/-- Every command keeps the bounds and the canonical forms. -/
theorem StateInv.effect {s : State} (h : StateInv s) (i : Instr) : StateInv (effect i s) := by
  cases i with
  | nop => exact h
  | clrerr => exact h.clearFault
  | sreset => exact stateInv_resetBlock h.bitcap_admitted
  | ctgen r => exact h.deriveTable r
  | ctclr => exact h.clearTable
  | tclr => exact { h with tree_wf := Memory.wf_nil }
  | bclr => exact { h with bits_fit := Nat.zero_le _ }
  | putch c => exact h.putChar c
  | putsym sym => exact h.putSymbol sym
  | pack => exact h.packBits
  | yclr => exact { h with bytes_fit := Nat.zero_le _ }
  | putbyte b => exact h.putByte b
  | unpack => exact h.unpackBits

theorem StateInv.exec {i : Instr} {s t : State} (h : StateInv s) (hx : exec i s = .next t) : StateInv t := by
  obtain rfl | rfl := exec_cases hx
  · exact h.effect i
  · exact h

/-- Settles O52, from `step_keeps`: a TREE write keeps the canonical form, an illegal word raises a cause of the block,
and every command's rule keeps the bounds. -/
theorem stepKeepsStateInv : Obligations.StepKeepsStateInv := fun _ _ hs h =>
  step_keeps (P := StateInv) (fun _ _ _ _ _ h => { h with })
    (fun _ _ v hi h => { h with tree_wf := Memory.write_wf v hi h.tree_wf })
    (fun _ w h => h.raise w 0 (by decide)) (fun _ _ _ h hx => h.exec hx) hs h

end Sys2Proof.Machine
end

section
/-! The code table as a complete code of which no word begins another, `TableInv`: what a successful walk records
(41_codetable.md rules R91, R96), and what every step keeps. -/

namespace Sys2Proof.Machine

/-! ### Listed entries -/

/-- In a table in canonical form the entries are the codes found. -/
theorem mem_iff_find {t : CodeTable} (ht : t.wf) (c : Nat × Bits) : c ∈ t ↔ t.find c.1 = some c.2 :=
  ⟨cellsFind_of_mem ht.1, mem_of_cellsFind⟩

/-- Listing a value at an unlisted index adds one cell. -/
theorem cellsPut_perm {α : Type} {cells : List (Nat × α)} {a : Nat} (v : α) (h : cellsFind cells a = none) :
    (cellsPut cells a v).Perm ((a, v) :: cells) := by
  induction cells with
  | nil => exact .refl _
  | cons c rest ih =>
    obtain ⟨k, x⟩ := c
    simp only [cellsFind] at h
    split_ifs at h with hk
    simp only [cellsPut]
    split_ifs with hlt heq
    · exact .refl _
    · exact absurd heq.symm hk
    · exact ((ih h).cons _).trans (.swap _ _ _)

theorem kraftSum_record {t : CodeTable} {a : Nat} (code : Bits) (h : t.find a = none) :
    kraftSum (t.record a code) = kraftSum t + 2 ^ (Config.maxLen - code.length) := by
  rw [kraftSum, CodeTable.record, ((cellsPut_perm code h).map _).sum_eq, List.map_cons, List.sum_cons, add_comm,
    kraftSum]

/-! ### The table of a successful walk -/

/-- A walk at depth 127 - `rem` adds 2^`rem` to the Kraft sum: a leaf adds its own term, an internal node what its two
children add (R96 c). -/
theorem kraftSum_walk {m : Memory} {rem : Nat} {n : NodeIndex} {path : Bits} {t t' : CodeTable}
    (h : walk m rem n path t = .ok t') (hp : path.length + rem = Config.maxLen) :
    kraftSum t' = kraftSum t + 2 ^ rem := by
  induction rem using Nat.strong_induction_on generalizing n path t t' with
  | _ rem ih =>
    obtain ⟨-, hn, rfl⟩ | ⟨-, rem', rfl, t1, hleft, hright⟩ := walk_ok_cases.1 h
    · rw [kraftSum_record path hn, ← hp, Nat.add_sub_cancel_left]
    · have hdepth (b : Bool) : (path ++ [b]).length + rem' = Config.maxLen := by
        rw [List.length_append, List.length_singleton]; omega
      calc kraftSum t' = kraftSum t1 + 2 ^ rem' := ih rem' rem'.lt_succ_self hright (hdepth true)
        _ = kraftSum t + 2 ^ rem' + 2 ^ rem' := by rw [ih rem' rem'.lt_succ_self hleft (hdepth false)]
        _ = kraftSum t + 2 ^ (rem' + 1) := by rw [pow_succ]; omega

/-- CTGEN's table lists the paths to the leaves, each with the leaf's symbol (R91). -/
theorem mem_walk_iff {m : Memory} {r : NodeIndex} {t : CodeTable} (h : walk m Config.maxLen r [] [] = .ok t)
    (c : Nat × Bits) : c ∈ t ↔ ∃ s : Symbol, LeafAt m r c.2 s ∧ c.1 = s.toNat := by
  obtain ⟨hfind, -, -⟩ := walk_ok_once h
  rw [mem_iff_find (walk_ok_wf h CodeTable.wf_nil (by simp)), hfind]
  constructor
  · rintro (h0 | ⟨p, s, hleaf, hs, hp⟩)
    · cases h0
    · exact ⟨s, by rwa [hp], hs⟩
  · rintro ⟨s, hleaf, hs⟩
    exact .inr ⟨c.2, s, hleaf, hs, rfl⟩

/-- A path that goes on beyond a reached node is a path from that node. -/
theorem reaches_of_append {m : Memory} {n k k' : NodeIndex} {p q : Bits} (hp : Reaches m n p k)
    (hpq : Reaches m n (p ++ q) k') : Reaches m k q k' := by
  induction hp with
  | here => exact hpq
  | left _ _ ih => cases hpq with | left _ hr => exact ih hr
  | right _ _ ih => cases hpq with | right _ hr => exact ih hr

/-- No path to a leaf goes on to another leaf. -/
theorem leafAt_append {m : Memory} {r : NodeIndex} {p q : Bits} {s s' : Symbol} (hp : LeafAt m r p s)
    (hpq : LeafAt m r (p ++ q) s') : q = [] ∧ s = s' := by
  obtain ⟨k, hreach, hleaf, hs⟩ := hp
  obtain ⟨k', hreach', hleaf', hs'⟩ := hpq
  obtain ⟨hq, hk⟩ := (leafAt_of_leaf hleaf).1 ⟨k', reaches_of_append hreach hreach', hleaf', hs'⟩
  exact ⟨hq, hs.symm.trans hk⟩

theorem prefixFree_walk {m : Memory} {r : NodeIndex} {t : CodeTable}
    (h : walk m Config.maxLen r [] [] = .ok t) : PrefixFree t := by
  rintro ⟨i, p⟩ ha ⟨j, _⟩ hb ⟨q, rfl⟩
  obtain ⟨s, hs, rfl⟩ := (mem_walk_iff h _).1 ha
  obtain ⟨s', hs', rfl⟩ := (mem_walk_iff h _).1 hb
  obtain ⟨rfl, rfl⟩ := leafAt_append hs hs'
  rw [List.append_nil]

/-- The root of a walked image has a symbol exactly when the table has a zero-length code (R93). -/
theorem hasSymbol_root_iff {m : Memory} {r : NodeIndex} {t : CodeTable}
    (h : walk m Config.maxLen r [] [] = .ok t) :
    hasSymbol (m.read r.toNat) = true ↔ ∃ c ∈ t, c.2 = [] := by
  constructor
  · intro hsym
    obtain hleaf | ⟨hinternal, -⟩ := walk_ok_nodes h (.here r)
    · exact ⟨((symbolField (m.read r.toNat)).toNat, []),
        (mem_walk_iff h _).2 ⟨_, (leafAt_of_leaf hleaf).2 ⟨rfl, rfl⟩, rfl⟩, rfl⟩
    · obtain ⟨-, hno, -⟩ := internalNode_iff.1 hinternal
      simp [hno] at hsym
  · rintro ⟨⟨i, _⟩, hc, rfl⟩
    obtain ⟨s, ⟨k, hreach, hleaf, -⟩, -⟩ := (mem_walk_iff h _).1 hc
    cases hreach
    exact (leafNode_iff.1 hleaf).2

/-! ### The invariant -/

/-- The invariant speaks of CT, CTV and ZLEN alone. -/
theorem TableInv.of_table_eq {s t : State} (h : TableInv s) (hct : t.ct = s.ct) (hctv : t.ctv = s.ctv)
    (hzlen : t.zlen = s.zlen) : TableInv t where
  ctv_iff := hctv ▸ hct ▸ h.ctv_iff
  zlen_iff := hzlen ▸ hct ▸ h.zlen_iff
  prefix_free := hct ▸ h.prefix_free
  kraft := hctv ▸ hct ▸ h.kraft

theorem tableInv_of_empty {s : State} (hct : s.ct = []) (hctv : s.ctv = false) (hzlen : s.zlen = false) :
    TableInv s := by
  constructor <;> simp [hct, hctv, hzlen, PrefixFree]

/-- CTGEN leaves the table of a walked image, or none (R90). -/
theorem tableInv_deriveTable (r : NodeIndex) (s : State) : TableInv (deriveTable r s) := by
  obtain ⟨t, hw, he⟩ | ⟨c, info, -, he⟩ := deriveTable_cases r s <;> rw [he]
  · exact {
      ctv_iff := iff_of_true rfl (walk_ok_ne_nil hw)
      zlen_iff := hasSymbol_root_iff hw
      prefix_free := prefixFree_walk hw
      kraft := fun _ => by simpa [kraftSum] using kraftSum_walk hw (Nat.zero_add _) }
  · exact tableInv_of_empty rfl rfl rfl

/-- A command that writes the table at all leaves a good one (R90, R94, R82). -/
theorem TableInv.exec {i : Instr} {s t : State} (h : TableInv s) (hx : exec i s = .next t) : TableInv t := by
  obtain ⟨-, -, htable, -⟩ := onlyTheseCommandsWrite i s t hx
  by_cases hsame : t.ct = s.ct ∧ t.ctv = s.ctv ∧ t.zlen = s.zlen
  · exact h.of_table_eq hsame.1 hsame.2.1 hsame.2.2
  · obtain rfl | rfl := exec_cases hx
    · obtain ⟨r, rfl⟩ | rfl | rfl := htable (by tauto)
      · exact tableInv_deriveTable r s
      · exact tableInv_of_empty rfl rfl rfl
      · exact tableInv_of_empty rfl rfl rfl
    · exact h

/-- Settles O53, from `step_keeps`: of all that a step can do only CTGEN, CTCLR and SRESET touch the table. -/
theorem stepKeepsTableInv : Obligations.StepKeepsTableInv := fun _ _ hs h =>
  step_keeps (P := TableInv) (fun _ _ _ _ _ h => { h with }) (fun _ _ _ _ h => { h with })
    (fun _ _ h => h.of_table_eq rfl rfl rfl) (fun _ _ _ h hx => h.exec hx) hs h

end Sys2Proof.Machine
end

section
/-! The invariants at reset (10_state.md rule R35). -/

namespace Sys2Proof.Machine

/-- The reset state of an instance is what SRESET makes of it. -/
theorem resetWith_eq (bitcap : Nat) : State.resetWith bitcap = resetBlock (State.resetWith bitcap) := rfl

theorem invariants_resetWith {bitcap : Nat} (hmin : 8 ≤ bitcap) (hmax : bitcap ≤ 2 ^ 31) :
    StateInv (State.resetWith bitcap) ∧ TableInv (State.resetWith bitcap) := by
  rw [resetWith_eq]
  exact ⟨stateInv_resetBlock ⟨hmin, hmax⟩, tableInv_of_empty rfl rfl rfl⟩

/-- Settles O51: `State.reset` is the instance with BITCAP = 4096. -/
theorem resetMeetsInvariants : Obligations.ResetMeetsInvariants :=
  ⟨fun _ hmin hmax => invariants_resetWith hmin hmax, invariants_resetWith (by decide) (by decide)⟩

end Sys2Proof.Machine
end

section
/-! The port at TREE: a word index for every node, read and written (20_memory.md rules R42, R43). -/

namespace Sys2Proof.Machine

theorem toNat_treeIndex (i : NodeIndex) : (BitVec.ofNat 11 (0x100 + i.toNat)).toNat = 0x100 + i.toNat := by
  rw [BitVec.toNat_ofNat, Nat.mod_eq_of_lt (by omega)]

theorem portRead_tree (s : State) (i : NodeIndex) :
    portRead (BitVec.ofNat 11 (0x100 + i.toNat)) s = s.tree.read i.toNat := nodeAt_eq s i

theorem portWrite_tree (s : State) (i : NodeIndex) (v : Word) :
    portWrite (BitVec.ofNat 11 (0x100 + i.toNat)) v s = .next { s with tree := s.tree.write i.toNat v } := by
  simp only [portWrite, toNat_treeIndex]
  rw [if_neg (by omega), if_neg (by omega), if_neg (by omega), if_pos (by omega), Nat.add_sub_cancel_left]

/-- Settles O6, from `Memory.read_write`. -/
theorem treeWordReadsBackMasked : Obligations.TreeWordReadsBackMasked := by
  intro s i v
  refine ⟨_, portWrite_tree s i v, fun j => ?_, ⟨fun _ => rfl, rfl, rfl⟩, Memory.write_wf v i.isLt⟩
  simp only [portRead_tree, Memory.read_write, BitVec.toNat_inj]
  rfl

end Sys2Proof.Machine
end

section
/-! The windows on the buffers (10_state.md rules R18, R20): no command but SRESET reads or writes their positions. -/

namespace Sys2Proof.Machine

/-- The state with other window positions. -/
def setWindows (bitidx byteidx : Word) (s : State) : State := { s with bitidx := bitidx, byteidx := byteidx }

theorem deriveTable_setWindows (b y : Word) (r : NodeIndex) (s : State) :
    deriveTable r (setWindows b y s) = setWindows b y (deriveTable r s) := by
  simp only [deriveTable, setWindows]
  cases walk s.tree Config.maxLen r [] [] <;> rfl

theorem putChar_setWindows (b y : Word) (c : Byte) (s : State) :
    putChar c (setWindows b y s) = setWindows b y (putChar c s) := by
  rw [putChar, putChar, apply_ite (setWindows b y), apply_ite (setWindows b y)]
  rfl

theorem putSymbol_setWindows (b y : Word) (sym : Symbol) (s : State) :
    putSymbol sym (setWindows b y s) = setWindows b y (putSymbol sym s) := by
  simp only [putSymbol, show (setWindows b y s).ct = s.ct from rfl]
  cases s.ct.find sym.toNat with
  | none => rfl
  | some code =>
    dsimp only
    rw [apply_ite (setWindows b y)]
    rfl

theorem packBits_setWindows (b y : Word) (s : State) :
    packBits (setWindows b y s) = setWindows b y (packBits s) := by
  rw [packBits, packBits, apply_ite (setWindows b y)]
  rfl

theorem putByte_setWindows (b y : Word) (x : Byte) (s : State) :
    putByte x (setWindows b y s) = setWindows b y (putByte x s) := by
  rw [putByte, putByte, apply_ite (setWindows b y)]
  rfl

theorem unpackBits_setWindows (b y : Word) (s : State) :
    unpackBits (setWindows b y s) = setWindows b y (unpackBits s) := by
  simp only [unpackBits, show (setWindows b y s).bytebuf = s.bytebuf from rfl]
  rw [apply_ite (setWindows b y)]
  rfl

theorem effect_setWindows (b y : Word) {i : Instr} (hi : i ≠ .sreset) (s : State) :
    effect i (setWindows b y s) = setWindows b y (effect i s) := by
  cases i with
  | sreset => exact absurd rfl hi
  | nop | clrerr | ctclr | tclr | bclr | yclr => rfl
  | ctgen r => exact deriveTable_setWindows b y r s
  | putch c => exact putChar_setWindows b y c s
  | putsym sym => exact putSymbol_setWindows b y sym s
  | pack => exact packBits_setWindows b y s
  | putbyte x => exact putByte_setWindows b y x s
  | unpack => exact unpackBits_setWindows b y s

/-- A command other than SRESET gives the same state for all window positions, which it keeps. -/
theorem exec_setWindows (b y : Word) {i : Instr} (hi : i ≠ .sreset) {s t : State} (h : exec i s = .next t) :
    exec i (setWindows b y s) = .next (setWindows b y t) := by
  rw [exec_eq, Host.Outcome.next.injEq] at h ⊢
  rw [← h, apply_ite (setWindows b y), effect_setWindows b y hi]
  rfl

theorem exec_keepsWindows {i : Instr} (hi : i ≠ .sreset) {s t : State} (h : exec i s = .next t) :
    KeepsWindows s t := by
  have h' := exec_setWindows s.bitidx s.byteidx hi h
  rw [show setWindows s.bitidx s.byteidx s = s from rfl, h, Host.Outcome.next.injEq] at h'
  exact ⟨(congrArg State.bitidx h' :), (congrArg State.byteidx h' :)⟩

theorem exec_sreset (s : State) : exec .sreset s = .next (resetBlock s) := rfl

/-! ### BITDATA -/

/-- Bit `31 - k` of the word whose bits, most significant first, are given. -/
theorem getLsbD_ofBits {bs : Bits} (hlen : bs.length = 32) {k : Nat} (hk : k < 32) :
    (BitVec.ofNat 32 (natOfBits bs)).getLsbD (31 - k) = bs.getD k false := by
  rw [BitVec.getLsbD_ofNat, testBit_natOfBits, hlen, if_pos (by omega), show 32 - 1 - (31 - k) = k by omega]
  simp only [show 31 - k < 32 by omega, decide_true, Bool.true_and]

theorem getLsbD_bitdataWord (s : State) {k : Nat} (hk : k < 32) :
    (bitdataWord s).getLsbD (31 - k) = s.bitbuf.getD (s.bitidx.toNat + k) false := by
  rw [bitdataWord, getLsbD_ofBits (length_bitsFrom ..) hk, getD_bitsFrom, if_pos hk]

/-- Settles O7: the window by `getLsbD_bitdataWord`, the commands by `exec_setWindows`. -/
theorem bitdataIsWindowOfBitbuf : Obligations.BitdataIsWindowOfBitbuf := by
  refine ⟨fun s k hk => ?_, fun s v => ⟨rfl, rfl, rfl⟩, fun s => ⟨_, exec_sreset s, rfl⟩, fun i s t v hi h => ?_⟩
  · rw [show portRead 0x006 s = bitdataWord s from rfl, getLsbD_bitdataWord s hk]
    split_ifs with hin
    · rfl
    · exact List.getD_eq_default _ _ (not_lt.1 hin)
  · obtain ⟨hbit, hbyte⟩ := exec_keepsWindows hi h
    have hset := exec_setWindows v s.byteidx hi h
    conv_rhs at hset => rw [← hbyte]
    exact ⟨hset, hbit⟩

/-! ### BYTEDATA -/

theorem getLsbD_bytedataWord (s : State) {k : Nat} (hk : 8 ≤ k) : (bytedataWord s).getLsbD k = false := by
  rw [bytedataWord, BitVec.getLsbD_setWidth, BitVec.getLsbD_of_ge _ _ hk, Bool.and_false]

/-- Settles O8: the window from `bytedataWord`, the commands by `exec_setWindows`. -/
theorem bytedataIsWindowOfBytebuf : Obligations.BytedataIsWindowOfBytebuf := by
  refine ⟨fun s => ⟨fun hin => ?_, fun hout => ?_, fun k hk => getLsbD_bytedataWord s hk⟩,
    fun s v => ⟨rfl, rfl, rfl⟩, fun s => ⟨_, exec_sreset s, rfl⟩, fun i s t v hi h => ?_⟩
  · refine ⟨_, List.getElem?_eq_getElem hin, ?_⟩
    show bytedataWord s = _
    rw [bytedataWord, List.getD_eq_getElem _ _ hin]
  · show bytedataWord s = 0
    rw [bytedataWord, List.getD_eq_default _ _ hout]
    rfl
  · obtain ⟨hbit, hbyte⟩ := exec_keepsWindows hi h
    have hset := exec_setWindows s.bitidx v hi h
    conv_rhs at hset => rw [← hbit]
    exact ⟨hset, hbyte⟩

end Sys2Proof.Machine
end

section
/-! CTCOUNT and STATUS as computed from the state (10_state.md rules R14, R21). -/

namespace Sys2Proof.Machine

/-! ### CTCOUNT -/

/-- The valid entries among the 128 symbols, in order. -/
theorem count_eq_length_filter (t : CodeTable) :
    t.count = ((List.range 128).filter fun i => (t.find i).isSome).length := by
  rw [CodeTable.count, List.countP_eq_length_filter]
  rfl

theorem count_le (t : CodeTable) : t.count ≤ 128 :=
  List.countP_le_length.trans_eq List.length_range

/-- In canonical form the valid symbols are the listed ones, each once. -/
theorem count_eq_length {t : CodeTable} (ht : t.wf) : t.count = t.length := by
  obtain ⟨hrising, hbound⟩ := ht
  have hmem (i : Nat) : i ∈ (List.range 128).filter (fun i => (t.find i).isSome) ↔ i ∈ t.map Prod.fst := by
    rw [List.mem_filter, List.mem_range, List.mem_map]
    constructor
    · rintro ⟨-, hsome⟩
      obtain ⟨code, hcode⟩ := Option.isSome_iff_exists.1 hsome
      exact ⟨(i, code), mem_of_cellsFind hcode, rfl⟩
    · rintro ⟨c, hc, rfl⟩
      exact ⟨(hbound c hc).1, by rw [CodeTable.find, cellsFind_of_mem hrising hc]; rfl⟩
  have hnodup : (t.map Prod.fst).Nodup := hrising.imp fun h => h.ne
  rw [count_eq_length_filter, ((List.perm_ext_iff_of_nodup (List.nodup_range.filter _) hnodup).2 hmem).length_eq,
    List.length_map]

theorem toNat_portRead_ctcount (s : State) : (portRead 0x00A s).toNat = s.ct.count := by
  have hle := count_le s.ct
  rw [show portRead 0x00A s = BitVec.ofNat 32 s.ct.count from rfl, BitVec.toNat_ofNat, Nat.mod_eq_of_lt (by omega)]

/-- Settles O11: the count never wraps, and in canonical form it is the list's length. -/
theorem ctcountCountsValidEntries : Obligations.CtcountCountsValidEntries := by
  intro s
  rw [toNat_portRead_ctcount]
  exact ⟨count_eq_length_filter s.ct, count_le s.ct, fun _ => rfl, count_eq_length⟩

/-! ### STATUS -/

theorem causeCode_le (c : Cause) : (causeCode c).toNat ≤ 10 := by
  cases c <;> decide

/-- The bits of STATUS from the lowest field up. -/
theorem getLsbD_statusWord (s : State) (k : Nat) : (statusWord s).getLsbD k =
    if k < 8 then (causeCode s.err).getLsbD k else if k = 8 then s.ctv else if k = 9 then s.zlen
    else if k = 10 then s.nomark else if k = 11 then s.bpoison else false := by
  have hk : k < 8 ∨ k = 8 ∨ k = 9 ∨ k = 10 ∨ k = 11 ∨ 12 ≤ k := by omega
  simp only [statusWord, BitVec.getLsbD_append, BitVec.getLsbD_ofBool, BitVec.getLsbD_zero]
  obtain h | rfl | rfl | rfl | rfl | h := hk
  · simp [h, show k < 9 by omega, show k < 10 by omega, show k < 11 by omega, show k < 12 by omega]
  · simp
  · simp
  · simp
  · simp
  · simp [show ¬ k < 12 by omega, show ¬ k < 8 by omega, show k ≠ 8 by omega, show k ≠ 9 by omega,
      show k ≠ 10 by omega, show k ≠ 11 by omega]

theorem extractLsb'_statusWord (s : State) : (statusWord s).extractLsb' 0 8 = causeCode s.err := by
  apply BitVec.eq_of_getLsbD_eq
  intro k hk
  rw [BitVec.getLsbD_extractLsb', getLsbD_statusWord, Nat.zero_add, if_pos hk]
  simp [hk]

/-- Settles O9, from the bits of `statusWord`. -/
theorem statusBitsByField : Obligations.StatusBitsByField := by
  intro s
  rw [show portRead 0x001 s = statusWord s from rfl]
  refine ⟨extractLsb'_statusWord s, causeCode_le s.err, ?_, ?_, ?_, ?_, fun k hk => ?_, ?_⟩
  · exact getLsbD_statusWord s 8
  · exact getLsbD_statusWord s 9
  · exact getLsbD_statusWord s 10
  · exact getLsbD_statusWord s 11
  · rw [getLsbD_statusWord, if_neg (by omega), if_neg (by omega), if_neg (by omega), if_neg (by omega),
      if_neg (by omega)]
  · decide

end Sys2Proof.Machine
end

section
/-! The state after reset as the port shows it (10_state.md rule R35). -/

namespace Sys2Proof.Machine

theorem entryWord_none (j : Nat) : entryWord none j = 0 := rfl

theorem statusWord_resetBlock (s : State) : statusWord (resetBlock s) = 0 := by
  simp [statusWord, causeCode]

theorem natOfBits_zeros (n : Nat) : natOfBits (zeros n) = 0 := by
  induction n with
  | zero => rfl
  | succ n ih => simpa [zeros, List.replicate_succ, natOfBits] using ih

theorem bitsFrom_nil (start n : Nat) : bitsFrom [] start n = zeros n := by
  simp [bitsFrom, zeros, List.map_const']

theorem bitdataWord_resetBlock (s : State) : bitdataWord (resetBlock s) = 0 := by
  rw [bitdataWord, resetBlock_bitbuf, bitsFrom_nil, natOfBits_zeros]
  rfl

theorem count_resetBlock (s : State) : (resetBlock s).ct.count = 0 := by
  simp [CodeTable.count, CodeTable.find_nil]

/-- Of the registers only CAPS and ID are not 0 at reset. -/
theorem readRegister_resetBlock {n : Nat} (hcaps : n ≠ 0x00C) (hid : n ≠ 0x00D) (s : State) :
    readRegister n (resetBlock s) = 0 := by
  unfold readRegister
  split  -- STATUS is the first arm, BITDATA the sixth, CTCOUNT the tenth, CAPS and ID the twelfth and thirteenth
  case h_1 => exact statusWord_resetBlock s
  case h_6 => exact bitdataWord_resetBlock s
  case h_10 => rw [count_resetBlock]; rfl
  case h_12 => exact absurd rfl hcaps
  case h_13 => exact absurd rfl hid
  all_goals rfl

theorem portRead_resetBlock {wa : WordIndex} (hcaps : wa ≠ 0x00C) (hid : wa ≠ 0x00D) (s : State) :
    portRead wa (resetBlock s) = 0 := by
  simp only [portRead, resetBlock_tree, resetBlock_ct, Memory.read_nil, CodeTable.find_nil, entryWord_none, ite_self]
  split_ifs
  · exact readRegister_resetBlock (fun h => hcaps (BitVec.eq_of_toNat_eq h)) (fun h => hid (BitVec.eq_of_toNat_eq h)) s
  · rfl

theorem atReset_resetBlock (s : State) : AtReset (resetBlock s) :=
  ⟨statusWord_resetBlock s, rfl, rfl, rfl, rfl, rfl, rfl, rfl, rfl, rfl, rfl, Memory.read_nil, CodeTable.find_nil,
    rfl, rfl, rfl, rfl, fun _ hcaps hid => portRead_resetBlock hcaps hid s, rfl, rfl⟩

theorem atReset_resetWith (bitcap : Nat) : AtReset (State.resetWith bitcap) :=
  atReset_resetBlock (State.resetWith bitcap)

/-- Settles O1: the three states are each the reset state of their instance. -/
theorem resetAndSresetLeaveResetValues : Obligations.ResetAndSresetLeaveResetValues :=
  ⟨atReset_resetWith _, atReset_resetWith, fun s => ⟨_, exec_sreset s, atReset_resetBlock s⟩⟩

end Sys2Proof.Machine
end

section
/-! The address map of the port: what every word index reads and what a write to it does, one lemma per range
(20_memory.md rules R42 to R44). -/

namespace Sys2Proof.Machine

/-! ### Reads -/

/-- The host's side is no part of what a read returns (R41). -/
theorem portRead_host (wa : WordIndex) (s : State) (ts : List Txn) (ws : List Word) :
    portRead wa { s with pending := ts, replies := ws } = portRead wa s := rfl

theorem portRead_register {wa : WordIndex} (h : wa.toNat < 0x100) (s : State) :
    portRead wa s = readRegister wa.toNat s := if_pos h

/-- Above ID no register is assigned. -/
theorem readRegister_reserved {n : Nat} (h : 0x00E ≤ n) (s : State) : readRegister n s = 0 := by
  unfold readRegister
  split
  case h_14 => rfl
  all_goals omega

theorem portRead_reserved {wa : WordIndex} (hlo : 0x200 ≤ wa.toNat) (hhi : wa.toNat ≤ 0x3FF) (s : State) :
    portRead wa s = 0 := by
  simp only [portRead]
  rw [if_neg (by omega), if_neg (by omega), if_pos (by omega)]

theorem toNat_entryIndex (sym : Symbol) {j : Nat} (hj : j < 8) :
    (BitVec.ofNat 11 (0x400 + 8 * sym.toNat + j)).toNat = 0x400 + (8 * sym.toNat + j) := by
  rw [BitVec.toNat_ofNat, Nat.mod_eq_of_lt (by omega), Nat.add_assoc]

theorem portRead_entry (s : State) (sym : Symbol) {j : Nat} (hj : j < 8) :
    portRead (BitVec.ofNat 11 (0x400 + 8 * sym.toNat + j)) s = entryWord (s.ct.find sym.toNat) j := by
  simp only [portRead, toNat_entryIndex sym hj]
  rw [if_neg (by omega), if_neg (by omega), if_neg (by omega), Nat.add_sub_cancel_left, Nat.mul_add_div (by decide),
    Nat.mul_add_mod, Nat.div_eq_of_lt hj, Nat.mod_eq_of_lt hj, Nat.add_zero]

/-! ### Writes -/

theorem portWrite_bitidx (v : Word) (s : State) : portWrite 0x005 v s = .next { s with bitidx := v } := rfl

theorem portWrite_byteidx (v : Word) (s : State) : portWrite 0x008 v s = .next { s with byteidx := v } := rfl

theorem portWrite_of_mem_tree {wa : WordIndex} (hlo : 0x100 ≤ wa.toNat) (hhi : wa.toNat ≤ 0x1FF) (v : Word)
    (s : State) : portWrite wa v s = .next { s with tree := s.tree.write (wa.toNat - 0x100) v } := by
  simp only [portWrite]
  rw [if_neg (by omega), if_neg (by omega), if_neg (by omega), if_pos ⟨hlo, hhi⟩]

theorem portWrite_ignored {wa : WordIndex} (hcmd : wa ≠ 0x000) (hbit : wa ≠ 0x005) (hbyte : wa ≠ 0x008)
    (htree : ¬(0x100 ≤ wa.toNat ∧ wa.toNat ≤ 0x1FF)) (v : Word) (s : State) : portWrite wa v s = .next s := by
  have h0 : wa.toNat ≠ 0x000 := fun h => hcmd (BitVec.eq_of_toNat_eq h)
  have h5 : wa.toNat ≠ 0x005 := fun h => hbit (BitVec.eq_of_toNat_eq h)
  have h8 : wa.toNat ≠ 0x008 := fun h => hbyte (BitVec.eq_of_toNat_eq h)
  simp only [portWrite]
  rw [if_neg h0, if_neg h5, if_neg h8, if_neg htree]

/-- Settles O5, from the write at each range of indices and `Memory.read_write`. -/
theorem portWriteDoesOneOfFive : Obligations.PortWriteDoesOneOfFive := by
  intro s wa v
  refine ⟨portWrite_cmd v s, portWrite_bitidx v s, portWrite_byteidx v s, fun hlo hhi => ?_,
    fun hcmd hbit hbyte htree => portWrite_ignored hcmd hbit hbyte htree v s⟩
  refine ⟨_, portWrite_of_mem_tree hlo hhi v s, rfl, ?_, fun i hi => ?_⟩
  · exact (Memory.read_write ..).trans (if_pos rfl)
  · exact (Memory.read_write ..).trans (if_neg hi)

end Sys2Proof.Machine
end

section
/-! One transaction at a time: none sees the transactions behind it, and each gives a next state (20_memory.md rules
R41, R44, R50, R51). -/

namespace Sys2Proof.Machine

theorem step_of_pending_cons {s : State} {t : Txn} {rest : List Txn} (h : s.pending = t :: rest) :
    step s = transact t (issue rest s) := by
  rw [step, hostStep, h]

/-- Settles O3: a read is a function of the block, and the host alone gets its word. -/
theorem portReadChangesNothing : Obligations.PortReadChangesNothing := by
  refine ⟨fun s wa ts ws => portRead_host wa s ts ws, fun s wa rest hp => ?_⟩
  rw [step_of_pending_cons hp]
  exact congrArg (fun v => Host.Outcome.next (reply v (issue rest s))) (portRead_host wa s rest s.replies)

/-- The effect of a command does not depend on the transactions still to issue, and keeps them. -/
theorem effect_issue (rest : List Txn) (i : Instr) (s : State) :
    effect i (issue rest s) = issue rest (effect i s) := by
  cases i with
  | nop | clrerr | sreset | ctclr | tclr | bclr | yclr => rfl
  | ctgen r =>
    simp only [effect, deriveTable, issue_tree]
    cases walk s.tree Config.maxLen r [] [] <;> rfl
  | putch c =>
    simp only [effect, putChar, apply_ite (issue rest)]
    rfl
  | putsym sym =>
    simp only [effect, putSymbol, issue_ct]
    cases s.ct.find sym.toNat with
    | none => rfl
    | some code =>
      simp only [apply_ite (issue rest)]
      rfl
  | pack =>
    simp only [effect, packBits, apply_ite (issue rest)]
    rfl
  | putbyte b =>
    simp only [effect, putByte, apply_ite (issue rest)]
    rfl
  | unpack =>
    simp only [effect, unpackBits, apply_ite (issue rest)]
    rfl

theorem exec_issue (i : Instr) (s : State) : ∃ u, ∀ rest, exec i (issue rest s) = .next (issue rest u) := by
  refine ⟨if s.err = .noFault ∨ i = .clrerr ∨ i = .sreset then effect i s else s, fun rest => ?_⟩
  rw [exec_eq, effect_issue, apply_ite (issue rest), issue_err]

theorem execIllegal_issue (w : Word) (s : State) :
    ∃ u, ∀ rest, execIllegal w (issue rest s) = .next (issue rest u) := by
  refine ⟨if s.err = .noFault then raise w .illcmd 0 s else s, fun rest => ?_⟩
  rw [execIllegal, unlessFaulted, apply_ite (issue rest)]
  rfl

theorem execWord_issue (w : Word) (s : State) : ∃ u, ∀ rest, execWord w (issue rest s) = .next (issue rest u) := by
  unfold execWord
  cases decode w with
  | ok i => exact exec_issue i s
  | error _ => exact execIllegal_issue w s

theorem portWrite_issue (wa : WordIndex) (v : Word) (s : State) :
    ∃ u, ∀ rest, portWrite wa v (issue rest s) = .next (issue rest u) := by
  unfold portWrite
  dsimp only
  split_ifs
  · exact execWord_issue v s
  · exact ⟨{ s with bitidx := v }, fun _ => rfl⟩
  · exact ⟨{ s with byteidx := v }, fun _ => rfl⟩
  · exact ⟨{ s with tree := s.tree.write (wa.toNat - 0x100) v }, fun _ => rfl⟩
  · exact ⟨s, fun _ => rfl⟩

/-- A transaction gives a next state, the same one whatever the host has still to issue. -/
theorem transact_issue (t : Txn) (s : State) : ∃ u, ∀ rest, transact t (issue rest s) = .next (issue rest u) := by
  cases t with
  | read wa => exact ⟨reply (portRead wa s) s, fun _ => rfl⟩
  | write wa v => exact portWrite_issue wa v s

theorem run_succ_of_step {s u : State} (h : step s = .next u) (k : Nat) :
    Host.Core.run core (k + 1) s = Host.Core.run core k u := by
  simp only [Host.Core.run, show core.step s = .next u from h]

theorem runTxns_cons_of_transact {t : Txn} {s u : State} (h : transact t s = .next u) (ts : List Txn) :
    runTxns (t :: ts) s = runTxns ts u := by
  rw [runTxns, h]

/-- A run of the block issues its transactions in order; `issue ts s` is `s` with just `ts` pending. -/
theorem run_issue (ts : List Txn) (s : State) :
    Host.Core.run core ts.length (issue ts s) = runTxns ts (issue [] s) := by
  induction ts generalizing s with
  | nil => rfl
  | cons t ts ih =>
    obtain ⟨u, hu⟩ := transact_issue t s
    have hstep : step (issue (t :: ts) s) = .next (issue ts u) := hu ts
    rw [List.length_cons, run_succ_of_step hstep, runTxns_cons_of_transact (hu []), ih]

/-- Settles O20, by induction on the pending transactions from `transact_issue`. -/
theorem transactionsRunInOrder : Obligations.TransactionsRunInOrder := fun s => run_issue s.pending s

/-- Every transaction is carried out (R44). -/
theorem transact_total (t : Txn) (s : State) : ∃ u, transact t s = .next u := by
  obtain ⟨u, hu⟩ := transact_issue t s
  exact ⟨_, hu s.pending⟩

theorem step_total (s : State) : ∃ t, step s = .next t := by
  cases hp : s.pending with
  | nil => exact ⟨s, step_of_pending_nil hp⟩
  | cons t rest => exact step_of_pending_cons hp ▸ transact_total t _

/-- Settles O23: with nothing pending the state stays, and every transaction and every command is carried out. -/
theorem everyStepGivesNextState : Obligations.EveryStepGivesNextState :=
  ⟨step_total, fun i s => ⟨_, exec_eq i s⟩⟩

/-- Settles O4: the registers by evaluation, the ranges of R43 and R44 by a lemma each. -/
theorem readsFollowAddressMap : Obligations.ReadsFollowAddressMap := by
  intro s
  refine ⟨rfl, rfl, rfl, rfl, rfl, rfl, rfl, rfl, rfl, rfl, rfl, rfl, rfl, rfl, fun wa hlo hhi => ?_, portRead_tree s,
    fun wa hlo hhi => portRead_reserved hlo hhi s, fun sym j hj => portRead_entry s sym hj,
    fun wa v hcmd hbit hbyte hout => portWrite_ignored hcmd hbit hbyte (by omega) v s,
    fun wa v => transact_total (.write wa v) s⟩
  rw [portRead_register (by omega), readRegister_reserved hlo]

end Sys2Proof.Machine
end

section
/-! Bytes and their bits (20_memory.md rule R45). -/

namespace Sys2Proof.Machine

theorem getLsbD_msbByte {bs : Bits} (hlen : bs.length = 8) {k : Nat} (hk : k < 8) :
    (msbByte bs).getLsbD (7 - k) = bs.getD k false := by
  rw [msbByte, BitVec.getLsbD_ofNat, testBit_natOfBits, hlen, if_pos (by omega), show 8 - 1 - (7 - k) = k by omega,
    decide_eq_true (by omega), Bool.true_and]

theorem byteMsb_msbByte {bs : Bits} (hlen : bs.length = 8) : byteMsb (msbByte bs) = bs :=
  match bs, hlen with
  | [a, b, c, d, e, f, g, h], _ => byteMsb_msbByte_eight a b c d e f g h

/-- Settles O18, from the bits of `byteMsb`, `msbByte` and `unpackBytes`. -/
theorem bytesAreMsbFirst : Obligations.BytesAreMsbFirst :=
  ⟨fun b _ hk => getD_byteMsb b hk, fun _ _ hlen hk => getLsbD_msbByte hlen hk, msbByte_byteMsb,
    fun _ hlen => byteMsb_msbByte hlen, fun bytes j k hk => getD_unpackBytes bytes j k hk⟩

end Sys2Proof.Machine
end

section
/-! Commands that are idempotent (20_memory.md rule R47): each leaves what its rule reads as it was, or raises a fault,
under which the second write is dropped. -/

namespace Sys2Proof.Machine

theorem exec_of_effect_eq {i : Instr} {t : State} (h : effect i t = t) : exec i t = .next t := by
  rw [exec_eq, h, ite_self]

/-- What CTGEN's rule writes, its walk does not read. -/
theorem exec_ctgen_deriveTable (r : NodeIndex) (s : State) :
    exec (.ctgen r) (deriveTable r s) = .next (deriveTable r s) := by
  obtain ⟨t, hw, he⟩ | ⟨c, info, hw, he⟩ := deriveTable_cases r s <;> rw [he]
  · apply exec_of_effect_eq
    simp only [effect, deriveTable, hw]
  · refine unlessFaulted_standing _ ?_
    obtain rfl | rfl | rfl := walk_error_cause hw <;> simp

theorem exec_pack_packBits (s : State) : exec .pack (packBits s) = .next (packBits s) := by
  obtain ⟨-, he⟩ | ⟨hclean, he⟩ := packBits_cases s <;> rw [he]
  · exact unlessFaulted_standing _ (by simp)
  · apply exec_of_effect_eq
    simp [effect, packBits, hclean, State.bitlen]

theorem exec_unpack_unpackBits (s : State) : exec .unpack (unpackBits s) = .next (unpackBits s) := by
  obtain ⟨discard, nomark, hm, ⟨-, he⟩ | ⟨hfit, he⟩⟩ := unpackBits_cases s <;> rw [he]
  · exact unlessFaulted_standing _ (by simp)
  · apply exec_of_effect_eq
    simp only [effect, unpackBits, hm]
    exact if_neg (not_lt.2 hfit)

/-- Settles O46: where the first write was dropped so is the second; else by the command's own lemma. -/
theorem tenCommandsAreIdempotent : Obligations.TenCommandsAreIdempotent := by
  intro i s t hi h
  obtain rfl | rfl := exec_cases h
  · cases i with
    | nop | clrerr | sreset | ctclr | tclr | bclr | yclr => exact exec_of_effect_eq rfl
    | ctgen r => exact exec_ctgen_deriveTable r s
    | pack => exact exec_pack_packBits s
    | unpack => exact exec_unpack_unpackBits s
    | putch c | putsym sym | putbyte b => simp at hi
  · exact h

end Sys2Proof.Machine
end

section
/-! Words and commands: each command has one word, and the table of R61 selects just the commands' words
(30_encoding.md rules R60, R61, R63, R64). -/

namespace Sys2Proof

/-- Settles O12: the decoder reads each field of a command word as the encoder wrote it, `decode_encode`. -/
theorem decodeEncodeRoundTrip : Obligations.DecodeEncodeRoundTrip := decode_encode

theorem encode_injective : Function.Injective encode := fun i j h =>
  Except.ok.inj <| (decode_encode i).symm.trans (h ▸ decode_encode j)

/-! ### The word of a decoded command -/

/-- With Z = 0 a word is that of its OPC and ARG (R60). -/
theorem commandWord_fields {w : Word} (hz : zField w = 0) : commandWord (opcField w) (argField w) = w := by
  conv_rhs => rw [word_eq_fields w, hz]
  rfl

/-- An ARG with bit 7 at 0 is the widened symbol (R63). -/
theorem setWidth_symbol {a : Byte} (h : a.getLsbD 7 = false) : (a.extractLsb' 0 7).setWidth 8 = a := by
  revert a; decide +kernel

theorem encode_of_bare_ok {opc a : Byte} {e : Illegal} {i j : Instr} (hj : encode j = commandWord opc 0)
    (h : (if a = 0 then .ok j else .error e) = Except.ok i) : encode i = commandWord opc a := by
  split_ifs at h with ha
  rw [← Except.ok.inj h, hj, ha]

theorem encode_of_decodeSymbol_ok {a : Byte} {i : Instr} (h : decodeSymbol a = .ok i) :
    encode i = commandWord 0x22 a := by
  unfold decodeSymbol at h
  split_ifs at h with hbit
  rw [← Except.ok.inj h, encode, setWidth_symbol (Bool.eq_false_of_not_eq_true hbit)]

/-- Where the reading of ARG alone gives a command with that ARG, its word is the word decoded. -/
theorem encode_of_decodeArg_ok {w : Word} {opc : Byte} {k : Byte → Except Illegal Instr} {i : Instr}
    (hopc : (opcField w).toNat = opc.toNat) (hk : k (argField w) = .ok i → encode i = commandWord opc (argField w))
    (h : decodeArg w k = .ok i) : encode i = w := by
  unfold decodeArg at h
  split_ifs at h with hz
  rw [hk h, ← BitVec.eq_of_toNat_eq hopc, commandWord_fields hz]

theorem encode_of_decode_ok {w : Word} {i : Instr} (h : decode w = .ok i) : encode i = w := by
  have operand {f : Byte → Instr} {opc a : Byte} (hf : ∀ a, encode (f a) = commandWord opc a)
      (h : Except.ok (ε := Illegal) (f a) = .ok i) : encode i = commandWord opc a := by
    rw [← Except.ok.inj h, hf]
  unfold decode at h
  split at h
  case h_14 => cases h
  case h_4 hopc => exact encode_of_decodeArg_ok (opc := 0x10) hopc (operand fun _ => rfl) h
  case h_8 hopc => exact encode_of_decodeArg_ok (opc := 0x21) hopc (operand fun _ => rfl) h
  case h_9 hopc => exact encode_of_decodeArg_ok (opc := 0x22) hopc encode_of_decodeSymbol_ok h
  case h_12 hopc => exact encode_of_decodeArg_ok (opc := 0x31) hopc (operand fun _ => rfl) h
  all_goals exact encode_of_decodeArg_ok (by assumption) (encode_of_bare_ok rfl) h

/-- Settles O13: Z is 0 and ARG is the operand's own, so one word is left. -/
theorem encodeInvertsDecode : Obligations.EncodeInvertsDecode := fun _ _ => encode_of_decode_ok

/-! ### The table -/

/-- The row of a command's mnemonic selects its word, which is then well-formed (R61). -/
theorem commandWord_statement (i : Instr) : Laws.CommandWord.Statement i := by
  cases i with
  | nop => exact Laws.CommandWord.nop
  | clrerr => exact Laws.CommandWord.clrerr
  | sreset => exact Laws.CommandWord.sreset
  | ctgen r => exact Laws.CommandWord.ctgen r
  | ctclr => exact Laws.CommandWord.ctclr
  | tclr => exact Laws.CommandWord.tclr
  | bclr => exact Laws.CommandWord.bclr
  | putch c => exact Laws.CommandWord.putch c
  | putsym s => exact Laws.CommandWord.putsym s
  | pack => exact Laws.CommandWord.pack
  | yclr => exact Laws.CommandWord.yclr
  | putbyte b => exact Laws.CommandWord.putbyte b
  | unpack => exact Laws.CommandWord.unpack

/-- A row whose mask has every bit set selects its pattern alone. -/
theorem eq_of_selects_bare {name : String} {p w : Word} (h : (Row.mk name p 0xFFFFFFFF).selects w = true) :
    p = w := by
  rw [Row.selects, show (0xFFFFFFFF : Word) = BitVec.allOnes 32 from rfl, BitVec.and_allOnes] at h
  exact (eq_of_beq h).symm

/-- A row whose mask leaves ARG free selects the words of its OPC. -/
theorem eq_of_selects_operand {name : String} {opc : Byte} {w : Word}
    (h : (Row.mk name (commandWord opc 0) 0xFFFFFF00).selects w = true) : commandWord opc (argField w) = w := by
  obtain ⟨hopc, hz, -⟩ := (row_selects name opc 0 0 w).1 h
  rw [← hopc, commandWord_fields hz]

/-- The row of PUTSYM selects the words of its OPC whose ARG has bit 7 at 0. -/
theorem eq_of_selects_symbol {name : String} {opc : Byte} {w : Word}
    (h : (Row.mk name (commandWord opc 0) 0xFFFFFF80).selects w = true) :
    commandWord opc (((argField w).extractLsb' 0 7).setWidth 8) = w := by
  obtain ⟨hopc, hz, hbit⟩ := (row_selects name opc 0 0x80 w).1 h
  have hbit : (argField w).getLsbD 7 = false := by
    simpa using congrArg (fun a : Byte => a.getLsbD 7) hbit
  rw [setWidth_symbol hbit, ← hopc, commandWord_fields hz]

/-- Row by row: a selected word is the word of a command with the row's mnemonic. -/
theorem exists_encode_of_selects {w : Word} {r : Row} (hr : r ∈ opcodeTable) (h : r.selects w = true) :
    ∃ i, encode i = w ∧ i.mnemonic = r.mnemonic := by
  simp only [opcodeTable, List.mem_cons, List.not_mem_nil, or_false] at hr
  obtain rfl | rfl | rfl | rfl | rfl | rfl | rfl | rfl | rfl | rfl | rfl | rfl | rfl := hr
  · exact ⟨.nop, eq_of_selects_bare h, rfl⟩
  · exact ⟨.clrerr, eq_of_selects_bare h, rfl⟩
  · exact ⟨.sreset, eq_of_selects_bare h, rfl⟩
  · exact ⟨.ctgen _, eq_of_selects_operand h, rfl⟩
  · exact ⟨.ctclr, eq_of_selects_bare h, rfl⟩
  · exact ⟨.tclr, eq_of_selects_bare h, rfl⟩
  · exact ⟨.bclr, eq_of_selects_bare h, rfl⟩
  · exact ⟨.putch _, eq_of_selects_operand h, rfl⟩
  · exact ⟨.putsym _, eq_of_selects_symbol h, rfl⟩
  · exact ⟨.pack, eq_of_selects_bare h, rfl⟩
  · exact ⟨.yclr, eq_of_selects_bare h, rfl⟩
  · exact ⟨.putbyte _, eq_of_selects_operand h, rfl⟩
  · exact ⟨.unpack, eq_of_selects_bare h, rfl⟩

/-- The well-formed words are the words of the commands. -/
theorem wellFormedWord_iff_exists_encode (w : Word) : wellFormedWord w = true ↔ ∃ i, encode i = w := by
  constructor
  · intro h
    obtain ⟨r, hr, hs⟩ := List.any_eq_true.1 h
    obtain ⟨i, hi, -⟩ := exists_encode_of_selects hr hs
    exact ⟨i, hi⟩
  · rintro ⟨i, rfl⟩
    exact (commandWord_statement i).1

theorem wellFormedWord_eq_false_iff (w : Word) : wellFormedWord w = false ↔ ∃ e, decode w = .error e := by
  rw [← Bool.not_eq_true, wellFormedWord_iff_exists_encode]
  cases hd : decode w with
  | ok i => simpa using ⟨i, encode_of_decode_ok hd⟩
  | error e =>
    refine iff_of_true ?_ ⟨e, rfl⟩
    rintro ⟨i, rfl⟩
    rw [decode_encode] at hd
    cases hd

/-- Settles O14: a well-formed word is a command's word, `exists_encode_of_selects` names the command. -/
theorem decoderAgreesWithTable : Obligations.DecoderAgreesWithTable := by
  refine ⟨wellFormedWord_eq_false_iff, fun w r hr hs => ?_⟩
  obtain ⟨i, rfl, hm⟩ := exists_encode_of_selects hr hs
  exact ⟨i, decode_encode i, hm⟩

theorem row_eq_of_mnemonic_eq : ∀ r ∈ opcodeTable, ∀ r' ∈ opcodeTable, r.mnemonic = r'.mnemonic → r = r' := by
  decide

/-- Settles O15: a word selected by two rows is the word of one command, whose mnemonic both rows bear. -/
theorem tableRowsAreDisjoint : Obligations.TableRowsAreDisjoint := by
  refine ⟨rfl, fun w r r' hr hr' hs hs' => ?_⟩
  obtain ⟨i, hi, hm⟩ := exists_encode_of_selects hr hs
  obtain ⟨i', hi', hm'⟩ := exists_encode_of_selects hr' hs'
  obtain rfl : i = i' := encode_injective (hi.trans hi'.symm)
  exact row_eq_of_mnemonic_eq r hr r' hr' (hm.symm.trans hm')

/-- Settles O16, by evaluating the decoder on the ten words. -/
theorem sampleWordsDecode : Obligations.SampleWordsDecode := by
  unfold Obligations.SampleWordsDecode
  decide

end Sys2Proof
end

section
/-! Illegal words: the four kinds of R64 and what writing one to CMD does (30_encoding.md rules R62, R64). -/

namespace Sys2Proof

/-- The OPCs of the commands without operand (R61). -/
def bareOpcodes : List Byte := [0x00, 0x01, 0x02, 0x11, 0x12, 0x20, 0x23, 0x30, 0x32]

/-- The OPCs of the commands whose operand is any ARG (R61). -/
def byteOpcodes : List Byte := [0x10, 0x21, 0x31]

theorem exists_encode_bare : ∀ opc ∈ bareOpcodes, ∃ i, encode i = commandWord opc 0 := by
  simp only [← wellFormedWord_iff_exists_encode]
  decide

theorem exists_encode_byte (arg : Byte) : ∀ opc ∈ byteOpcodes, ∃ i, encode i = commandWord opc arg := by
  simp only [byteOpcodes, List.forall_mem_cons, List.not_mem_nil, false_imp_iff, implies_true, and_true]
  exact ⟨⟨.ctgen arg, rfl⟩, ⟨.putch arg, rfl⟩, ⟨.putbyte arg, rfl⟩⟩

/-- The well-formed words by their fields. -/
theorem wellFormedWord_iff_fields (w : Word) : wellFormedWord w = true ↔ zField w = 0 ∧
    (opcField w ∈ bareOpcodes ∧ argField w = 0 ∨ opcField w ∈ byteOpcodes ∨
      opcField w = 0x22 ∧ (argField w).getLsbD 7 = false) := by
  rw [wellFormedWord_iff_exists_encode]
  constructor
  · rintro ⟨i, rfl⟩
    cases i with
    | nop | clrerr | sreset | ctclr | tclr | bclr | pack | yclr | unpack =>
      simp [encode, opcField_commandWord, zField_commandWord, argField_commandWord, bareOpcodes]
    | ctgen a | putch a | putbyte a =>
      simp [encode, opcField_commandWord, zField_commandWord, byteOpcodes]
    | putsym s => simp [encode, opcField_commandWord, zField_commandWord, argField_commandWord]
  · rintro ⟨hz, h⟩
    rw [← commandWord_fields hz]
    obtain ⟨hopc, harg⟩ | hopc | ⟨hopc, hbit⟩ := h
    · exact harg ▸ exists_encode_bare _ hopc
    · exact exists_encode_byte _ _ hopc
    · exact ⟨.putsym _, by rw [encode, setWidth_symbol hbit, hopc]⟩

/-- The thirteen OPCs are those without operand, those with any ARG, and PUTSYM's. -/
theorem mem_opcodes_iff (opc : Byte) :
    opc ∈ ([0x00, 0x01, 0x02, 0x10, 0x11, 0x12, 0x20, 0x21, 0x22, 0x23, 0x30, 0x31, 0x32] : List Byte) ↔
      opc ∈ bareOpcodes ∨ opc ∈ byteOpcodes ∨ opc = 0x22 := by
  revert opc; decide +kernel

theorem opcodes_disjoint : (∀ opc ∈ bareOpcodes, opc ∉ byteOpcodes ∧ opc ≠ 0x22) ∧ 0x22 ∉ byteOpcodes := by
  decide

/-- The words that no row selects, by the kinds (a) to (d) of R64. -/
theorem wellFormedWord_eq_false_iff_kinds (w : Word) : wellFormedWord w = false ↔
    ¬(opcField w ∈ bareOpcodes ∨ opcField w ∈ byteOpcodes ∨ opcField w = 0x22) ∨ zField w ≠ 0 ∨
    (opcField w ∈ bareOpcodes ∧ argField w ≠ 0) ∨ (opcField w = 0x22 ∧ (argField w).getLsbD 7 = true) := by
  obtain ⟨hbare, hbyte⟩ := opcodes_disjoint
  have hbare := hbare (opcField w)
  have hbyte : opcField w = 0x22 → opcField w ∉ byteOpcodes := fun h => h ▸ hbyte
  rw [← Bool.not_eq_true, wellFormedWord_iff_fields, ← Bool.not_eq_true ((argField w).getLsbD 7)]
  tauto

theorem getLsbD_argField (w : Word) {k : Nat} (hk : k < 8) : (argField w).getLsbD k = w.getLsbD k := by
  simp [argField, hk]

end Sys2Proof

namespace Sys2Proof.Machine

theorem execWord_of_not_wellFormed {w : Word} (h : wellFormedWord w = false) (s : State) :
    execWord w s = execIllegal w s := by
  obtain ⟨e, he⟩ := (wellFormedWord_eq_false_iff w).1 h
  rw [execWord, he]

/-- Settles O21: an illegal word is refused by the decoder, and its kind is told by its fields. -/
theorem illegalWordRaisesIllcmd : Obligations.IllegalWordRaisesIllcmd := by
  refine ⟨fun s w hw => ?_, fun w => ?_⟩
  · rw [execWord_of_not_wellFormed hw]
    exact ⟨unlessFaulted_clear _, unlessFaulted_standing _⟩
  · rw [mem_opcodes_iff, ← getLsbD_argField w (by decide)]
    exact wellFormedWord_eq_false_iff_kinds w

end Sys2Proof.Machine
end


section
/-! Node words and code table entries as the port shows them (30_encoding.md rules R66, R67). -/

namespace Sys2Proof.Machine

theorem toNat_append_eq_add {n m : Nat} (x : BitVec n) (y : BitVec m) :
    (x ++ y).toNat = x.toNat * 2 ^ m + y.toNat := by
  rw [BitVec.toNat_append, ← Nat.shiftLeft_add_eq_or_of_lt y.isLt, Nat.shiftLeft_eq]

/-! ### Node words -/

theorem toNat_leafWord (s : Symbol) : (leafWord s).toNat = 0x81000000 + s.toNat * 0x10000 := by
  simp only [leafWord, toNat_append_eq_add, BitVec.toNat_setWidth_of_le (show 7 ≤ 8 by decide), BitVec.toNat_ofNat]
  omega

theorem toNat_internalWord (l r : NodeIndex) :
    (internalWord l r).toNat = 0x86000000 + r.toNat * 0x100 + l.toNat := by
  simp only [internalWord, toNat_append_eq_add, BitVec.toNat_ofNat]
  omega

theorem leafWord_fields (s : Symbol) : leafNode (leafWord s) = true ∧ symbolField (leafWord s) = s ∧
    hasLeft (leafWord s) = false ∧ hasRight (leafWord s) = false ∧ leafWord s &&& nodeMask = leafWord s := by
  revert s; decide +kernel

theorem getLsbD_internalWord_flag (l r : NodeIndex) {k : Nat} (hk : 24 ≤ k) :
    (internalWord l r).getLsbD k = (0x86#8).getLsbD (k - 24) := by
  rw [internalWord, BitVec.getLsbD_append, if_neg (by omega)]

theorem flags_internalWord (l r : NodeIndex) :
    internalNode (internalWord l r) = true ∧ hasSymbol (internalWord l r) = false := by
  rw [internalNode, nodePresent, hasSymbol, hasLeft, hasRight, getLsbD_internalWord_flag l r (by decide),
    getLsbD_internalWord_flag l r (by decide), getLsbD_internalWord_flag l r (by decide),
    getLsbD_internalWord_flag l r (by decide)]
  decide

theorem leftField_internalWord (l r : NodeIndex) : leftField (internalWord l r) = l := by
  rw [leftField, internalWord, BitVec.extractLsb'_append_eq_of_add_le (by decide),
    BitVec.extractLsb'_append_eq_of_add_le (by decide), BitVec.extractLsb'_append_eq_right]

theorem rightField_internalWord (l r : NodeIndex) : rightField (internalWord l r) = r := by
  rw [rightField, internalWord, BitVec.extractLsb'_append_eq_of_add_le (by decide),
    BitVec.extractLsb'_append_eq_of_add_le (by decide), BitVec.extractLsb'_append_eq_left]

theorem internalWord_and_nodeMask (l r : NodeIndex) : internalWord l r &&& nodeMask = internalWord l r := by
  have hmask : nodeMask = 0x87#8 ++ (0x7F#8 ++ (BitVec.allOnes 8 ++ BitVec.allOnes 8)) := by decide
  rw [hmask, internalWord, BitVec.and_append, BitVec.and_append, BitVec.and_append, BitVec.and_allOnes,
    BitVec.and_allOnes]
  rfl

/-- Settles O17, field by field of the two images. -/
theorem nodeImagesHaveTheirFields : Obligations.NodeImagesHaveTheirFields := by
  refine ⟨fun s => ⟨toNat_leafWord s, leafWord_fields s⟩, fun l r => ?_⟩
  obtain ⟨hnode, hsym⟩ := flags_internalWord l r
  exact ⟨toNat_internalWord l r, hnode, leftField_internalWord l r, rightField_internalWord l r, hsym,
    internalWord_and_nodeMask l r⟩

/-! ### Code table entries -/

theorem getLsbD_codeVector (code : Bits) {i : Nat} (hi : i < 128) :
    (codeVector code).getLsbD (127 - i) = code.getD i false := by
  rw [codeVector, BitVec.getLsbD_ofNat, testBit_natOfBits, length_bitsFrom, if_pos (by omega), getD_bitsFrom,
    if_pos (by omega), decide_eq_true (by omega), Bool.true_and, Nat.zero_add,
    show 128 - 1 - (127 - i) = i by omega]

/-- Words 1 to 4 are the code vector from its top down (R67). -/
theorem entryWord_vector (code : Bits) {j : Nat} (hj : j < 4) :
    entryWord (some code) (1 + j) = (codeVector code).extractLsb' (96 - 32 * j) 32 := by
  match j, hj with
  | 0, _ | 1, _ | 2, _ | 3, _ => rfl

theorem getLsbD_entryWord (code : Bits) {i : Nat} (hi : i < 128) :
    (entryWord (some code) (1 + i / 32)).getLsbD (31 - i % 32) = code.getD i false := by
  rw [entryWord_vector code (by omega), BitVec.getLsbD_extractLsb', decide_eq_true (by omega), Bool.true_and,
    show 96 - 32 * (i / 32) + (31 - i % 32) = 127 - i by omega, getLsbD_codeVector code hi]

theorem toNat_entryWord_zero {code : Bits} (h : code.length ≤ 127) :
    (entryWord (some code) 0).toNat = 2 ^ 31 + code.length := by
  simp only [entryWord, toNat_append_eq_add, BitVec.toNat_ofNat]
  omega

theorem entryWord_of_ge_five (code : Bits) {j : Nat} (hj : 5 ≤ j) : entryWord (some code) j = 0 := by
  match j, hj with
  | _ + 5, _ => rfl

/-- Settles O10, word by word of an entry's image. -/
theorem codeImageLeftJustified : Obligations.CodeImageLeftJustified :=
  ⟨fun s sym _ hj => portRead_entry s sym hj, entryWord_none, fun code hlen =>
    ⟨toNat_entryWord_zero hlen, fun _ hi => getLsbD_entryWord code hi, fun _ hj => entryWord_of_ge_five code hj⟩⟩

end Sys2Proof.Machine
end

section
/-! PACK: the wire format and the poisoned bit string (30_encoding.md rule R69, 42_bitpacker.md rule R103). -/

namespace Sys2Proof.Machine

/-- Bit `7 - k` of byte `j` of the wire format is element `8j + k` of the marked bit string. -/
theorem getLsbD_packed (bs : Bits) (j : Nat) {k : Nat} (hk : k < 8) :
    ((packBytes (withMarker bs)).getD j 0).getLsbD (7 - k) = (withMarker bs).getD (8 * j + k) false := by
  rw [← getD_unpackBytes _ _ _ hk, unpackBytes_packBytes _ (by rw [length_withMarker, Nat.mul_mod_right])]

/-- PACK of a poisoned bit string faults. -/
theorem packBits_poisoned {s : State} (h : s.bpoison = true) :
    packBits s = raise (encode .pack) .invalidBitCharacter 0x100 s := if_pos h

/-- PACK of any other bit string writes BYTEBUF and PADLEN. -/
theorem packBits_clean {s : State} (h : s.bpoison = false) : packBits s =
    { s with bytebuf := packBytes (withMarker s.bitbuf), padlen := BitVec.ofNat 32 (paddingOf s.bitlen) } :=
  if_neg (by rw [h]; decide)

/-- Settles O38, from the two cases of PACK's rule and the bits of the wire format. -/
theorem packWritesWireFormat : Obligations.PackWritesWireFormat := by
  have hword : encode .pack = 0x23000000 := by decide
  refine ⟨hword, fun s padding herr hclean hpad => ?_, fun s herr hpoison => ?_⟩
  · subst hpad
    refine ⟨packBits s, unlessFaulted_clear packBits herr, ?_⟩
    have hlen : (packBytes (withMarker s.bitbuf)).length = s.bitlen / 8 + 1 := length_packed s.bitbuf
    rw [packBits_clean hclean]
    refine ⟨hlen, rfl, fun j k _ hk => ?_, fun hfit => ?_, ?_⟩
    · rw [List.append_assoc]
      exact getLsbD_packed s.bitbuf j hk
    · exact hlen.trans_le (Nat.succ_le_succ (Nat.div_le_div_right hfit))
    · simp [KeepsHost, KeepsWindows, KeepsFault, KeepsTree, KeepsTable, KeepsBits]
  · refine ⟨packBits s, unlessFaulted_clear packBits herr, ?_⟩
    rw [packBits_poisoned hpoison]
    refine ⟨⟨rfl, hword, rfl⟩, ?_⟩
    simp [KeepsHost, KeepsWindows, KeepsTree, KeepsTable, KeepsBits, KeepsBytes]

end Sys2Proof.Machine
end

section
/-! The assembler: the word of an assembled command is its encoding, and what the pseudo-statements expand to
(30_encoding.md rules R66, R70, R71). -/

namespace Sys2Proof.Machine

/-! ### Command statements -/

/-- R70's number `OPC * 2^24 + operand` is written to CMD as the word of the two fields. -/
theorem checkedWrite_command {opc n : Nat} (hopc : opc < 256) (hn : n < 256) :
    checkedWrite 0 (opc * 2 ^ 24 + n) = some (.write 0 (commandWord (BitVec.ofNat 8 opc) (BitVec.ofNat 8 n))) := by
  have hword := commandWord_ofNat opc (BitVec.ofNat 8 n) hopc
  rw [BitVec.toNat_ofNat, Nat.mod_eq_of_lt hn] at hword
  rw [checkedWrite, if_pos ⟨by decide, by omega⟩, hword]
  rfl

/-- A command with operand: the operand's range is checked. -/
theorem commandTxn_operand {m : List Char} {opc bound : Nat} (hm : commandRow m = some (opc, some bound))
    (hopc : opc < 256) (hbound : bound ≤ 256) (n : Nat) : commandTxn m (some n) =
      if n < bound then some (.write 0 (commandWord (BitVec.ofNat 8 opc) (BitVec.ofNat 8 n))) else none := by
  simp only [commandTxn, hm]
  exact if_ctx_congr Iff.rfl (fun hn => checkedWrite_command hopc (hn.trans_le hbound)) fun _ => rfl

theorem commandTxn_operand_missing {m : List Char} {opc bound : Nat} (hm : commandRow m = some (opc, some bound)) :
    commandTxn m none = none := by
  simp only [commandTxn, hm]

/-- A command without operand: any operand is an error. -/
theorem commandTxn_bare {m : List Char} {opc : Nat} (hm : commandRow m = some (opc, none)) (hopc : opc < 256) :
    commandTxn m none = some (.write 0 (commandWord (BitVec.ofNat 8 opc) 0)) ∧
      ∀ n, commandTxn m (some n) = none := by
  simp only [commandTxn, hm, implies_true, and_true]
  have hwrite := checkedWrite_command hopc (n := 0) (by decide)
  rwa [Nat.add_zero] at hwrite

theorem commandRow_unknown {m : List Char} (h : m ∉ opcodeTable.map fun r => r.mnemonic.toList) :
    commandRow m = none := by
  have hne : ∀ name ∈ opcodeTable.map Row.mnemonic, m ≠ name.toList := by
    intro name hname hm
    obtain ⟨r, hr, rfl⟩ := List.mem_map.1 hname
    exact h (List.mem_map.2 ⟨r, hr, hm.symm⟩)
  rw [commandRow, if_neg (hne "NOP" (by decide)), if_neg (hne "CLRERR" (by decide)),
    if_neg (hne "SRESET" (by decide)), if_neg (hne "CTGEN" (by decide)), if_neg (hne "CTCLR" (by decide)),
    if_neg (hne "TCLR" (by decide)), if_neg (hne "BCLR" (by decide)), if_neg (hne "PUTCH" (by decide)),
    if_neg (hne "PUTSYM" (by decide)), if_neg (hne "PACK" (by decide)), if_neg (hne "YCLR" (by decide)),
    if_neg (hne "PUTBYTE" (by decide)), if_neg (hne "UNPACK" (by decide))]

theorem commandTxn_unknown {m : List Char} (h : m ∉ opcodeTable.map fun r => r.mnemonic.toList) (o : Option Nat) :
    commandTxn m o = none := by
  simp only [commandTxn, commandRow_unknown h]

theorem commandTxn_ctgen (n : Nat) : commandTxn "CTGEN".toList (some n) =
    if n < 256 then some (cmd (.ctgen (BitVec.ofNat 8 n))) else none :=
  commandTxn_operand (opc := 0x10) (by decide) (by decide) (by decide) n

theorem commandTxn_putch (n : Nat) : commandTxn "PUTCH".toList (some n) =
    if n < 256 then some (cmd (.putch (BitVec.ofNat 8 n))) else none :=
  commandTxn_operand (opc := 0x21) (by decide) (by decide) (by decide) n

theorem commandTxn_putbyte (n : Nat) : commandTxn "PUTBYTE".toList (some n) =
    if n < 256 then some (cmd (.putbyte (BitVec.ofNat 8 n))) else none :=
  commandTxn_operand (opc := 0x31) (by decide) (by decide) (by decide) n

/-- A symbol code in range is the operand itself, widened to ARG. -/
theorem commandTxn_putsym (n : Nat) : commandTxn "PUTSYM".toList (some n) =
    if n < 128 then some (cmd (.putsym (BitVec.ofNat 7 n))) else none := by
  rw [commandTxn_operand (opc := 0x22) (bound := 128) (by decide) (by decide) (by decide)]
  refine if_ctx_congr Iff.rfl (fun hn => ?_) fun _ => rfl
  rw [cmd, encode, BitVec.setWidth_ofNat_of_le_of_lt (by decide) hn]
  rfl

/-! ### Pseudo-statements -/

/-- One transaction per element, in order, or an error where an element is out of range. -/
theorem mapM_eq_of_range {α : Type} {f : Nat → Option α} {g : Nat → α} {bound : Nat}
    (hf : ∀ n, f n = if n < bound then some (g n) else none) (ns : List Nat) :
    ns.mapM f = if ∀ n ∈ ns, n < bound then some (ns.map g) else none := by
  induction ns with
  | nil => simp
  | cons n ns ih =>
    rw [List.mapM_cons, hf, ih]
    have hcons : (∀ k ∈ n :: ns, k < bound) ↔ n < bound ∧ ∀ k ∈ ns, k < bound := List.forall_mem_cons
    by_cases hn : n < bound
    · by_cases hns : ∀ k ∈ ns, k < bound
      · rw [if_pos hn, if_pos hns, if_pos (hcons.2 ⟨hn, hns⟩)]
        rfl
      · rw [if_pos hn, if_neg hns, if_neg (mt hcons.1 fun h => hns h.2)]
        rfl
    · rw [if_neg hn, if_neg (mt hcons.1 fun h => hn h.1)]
      rfl

/-- A number in range is the word with that value; the port index is that of the node. -/
theorem checkedWrite_node {i n : Nat} {w : Word} (hi : i < 256) (hw : w.toNat = n) :
    checkedWrite (0x100 + i) n = some (.write (treeWordIndex i) w) := by
  subst hw
  rw [checkedWrite, if_pos ⟨by omega, w.isLt⟩, BitVec.ofNat_toNat, BitVec.setWidth_eq, treeWordIndex]

theorem expandStmt_nodeLeaf (i s : Nat) : expandStmt (.nodeLeaf i s) =
    if i < 256 ∧ s < 128 then some [.write (treeWordIndex i) (leafWord (BitVec.ofNat 7 s))] else none := by
  refine if_ctx_congr Iff.rfl (fun ⟨hi, hs⟩ => ?_) fun _ => rfl
  have hw := toNat_leafWord (BitVec.ofNat 7 s)
  rw [BitVec.toNat_ofNat, Nat.mod_eq_of_lt hs] at hw
  rw [checkedWrite_node hi hw]
  rfl

theorem expandStmt_nodeInt (i l r : Nat) : expandStmt (.nodeInt i l r) =
    if i < 256 ∧ l < 256 ∧ r < 256 then
      some [.write (treeWordIndex i) (internalWord (BitVec.ofNat 8 l) (BitVec.ofNat 8 r))]
    else none := by
  refine if_ctx_congr Iff.rfl (fun ⟨hi, hl, hr⟩ => ?_) fun _ => rfl
  have hw := toNat_internalWord (BitVec.ofNat 8 l) (BitVec.ofNat 8 r)
  rw [BitVec.toNat_ofNat, BitVec.toNat_ofNat, Nat.mod_eq_of_lt hl, Nat.mod_eq_of_lt hr] at hw
  rw [checkedWrite_node hi hw]
  rfl

theorem expandStmt_wr (wa v : Nat) : expandStmt (.wr wa v) =
    if wa < 2048 ∧ v < 2 ^ 32 then some [.write (BitVec.ofNat 11 wa) (BitVec.ofNat 32 v)] else none := by
  rw [expandStmt, checkedWrite, apply_ite (Option.map _)]
  rfl

/-- Settles O60, statement by statement. -/
theorem assembledWordsAreEncodings : Obligations.AssembledWordsAreEncodings := by
  refine ⟨fun i hi => ?_, commandTxn_ctgen, commandTxn_putch, commandTxn_putsym, commandTxn_putbyte, fun m hm => ?_,
    fun m o hm => commandTxn_unknown hm o, fun _ _ => rfl, expandStmt_wr, fun _ _ => rfl, expandStmt_nodeLeaf,
    expandStmt_nodeInt, mapM_eq_of_range commandTxn_putch, mapM_eq_of_range commandTxn_putsym,
    mapM_eq_of_range commandTxn_putbyte⟩
  · cases i with
    | nop => exact commandTxn_bare (opc := 0x00) (by decide) (by decide)
    | clrerr => exact commandTxn_bare (opc := 0x01) (by decide) (by decide)
    | sreset => exact commandTxn_bare (opc := 0x02) (by decide) (by decide)
    | ctclr => exact commandTxn_bare (opc := 0x11) (by decide) (by decide)
    | tclr => exact commandTxn_bare (opc := 0x12) (by decide) (by decide)
    | bclr => exact commandTxn_bare (opc := 0x20) (by decide) (by decide)
    | pack => exact commandTxn_bare (opc := 0x23) (by decide) (by decide)
    | yclr => exact commandTxn_bare (opc := 0x30) (by decide) (by decide)
    | unpack => exact commandTxn_bare (opc := 0x32) (by decide) (by decide)
    | ctgen r | putch c | putsym s | putbyte b => simp at hi
  · obtain ⟨opc, bound, hrow⟩ : ∃ opc bound, commandRow m.toList = some (opc, some bound) := by
      simp only [List.mem_cons, List.not_mem_nil, or_false] at hm
      obtain rfl | rfl | rfl | rfl := hm
      · exact ⟨0x10, 256, by decide⟩
      · exact ⟨0x21, 256, by decide⟩
      · exact ⟨0x22, 128, by decide⟩
      · exact ⟨0x31, 256, by decide⟩
    exact commandTxn_operand_missing hrow

end Sys2Proof.Machine
end

section
/-! The control commands NOP, CLRERR and SRESET, and the words beside theirs (40_control.md rules R80 to R82). -/

namespace Sys2Proof.Machine

/-! ### Words at CMD -/

/-- The word of a command is executed as the command. -/
theorem execWord_of_encode_eq {w : Word} {i : Instr} (h : encode i = w) (s : State) : execWord w s = exec i s :=
  execWord_of_decode_ok (h ▸ decode_encode i) s

/-- An illegal word with no fault standing (R64). -/
theorem execWord_raises_illcmd {w : Word} (hw : wellFormedWord w = false) {s : State} (h : s.err = .noFault) :
    ∃ t, execWord w s = .next t ∧ Faulted .illcmd w 0 t :=
  ⟨raise w .illcmd 0 s, (execWord_of_not_wellFormed hw s).trans (unlessFaulted_clear _ h), rfl, rfl, rfl⟩

/-- An illegal word while a fault stands (R62). -/
theorem execWord_illegal_dropped {w : Word} (hw : wellFormedWord w = false) {s : State} (h : s.err ≠ .noFault) :
    execWord w s = .next s :=
  (execWord_of_not_wellFormed hw s).trans (unlessFaulted_standing _ h)

/-! ### NOP -/

theorem exec_nop (s : State) : exec .nop s = .next s := exec_of_effect_eq rfl

/-- Settles O24: executing NOP and dropping it give the same state. -/
theorem nopChangesNothing : Obligations.NopChangesNothing := by
  have hword : encode .nop = 0x00000000 := by decide
  have hillegal : wellFormedWord 0x00000001 = false := by decide
  exact ⟨hword, fun s => ⟨exec_nop s, (execWord_of_encode_eq hword s).trans (exec_nop s)⟩,
    fun s hclear => execWord_raises_illcmd hillegal hclear⟩

/-! ### CLRERR -/

theorem exec_clrerr (s : State) : exec .clrerr s = .next (clearFault s) := rfl

/-- With no fault standing ERRCMD and ERRINFO are 0 already (R15, R16). -/
theorem clearFault_of_noFault {s : State} (hinv : StateInv s) (h : s.err = .noFault) : clearFault s = s := by
  obtain ⟨hcmd, hinfo⟩ := hinv.clear_when_no_fault h
  cases s
  dsimp only at h hcmd hinfo
  subst h hcmd hinfo
  rfl

/-- PACK of a poisoned bit string with no fault standing (R103). -/
theorem exec_pack_poisoned {s : State} (herr : s.err = .noFault) (hpoison : s.bpoison = true) :
    exec .pack s = .next (raise (encode .pack) .invalidBitCharacter 0x100 s) :=
  (unlessFaulted_clear packBits herr).trans (congrArg _ (packBits_poisoned hpoison))

/-- Settles O25: `clearFault` writes ERR, ERRCMD and ERRINFO, which are 0 with no fault standing, and leaves BPOISON. -/
theorem clrerrAcknowledgesFault : Obligations.ClrerrAcknowledgesFault := by
  have hword : encode .clrerr = 0x01000000 := by decide
  have hillegal : wellFormedWord 0x01000001 = false := by decide
  refine ⟨hword, fun s => ⟨_, exec_clrerr s, ⟨rfl, rfl, rfl⟩, ?_⟩, execWord_of_encode_eq hword,
    fun s hinv hclear => ?_, fun s hpoison => ?_,
    fun s => ⟨execWord_raises_illcmd hillegal, execWord_illegal_dropped hillegal⟩⟩
  · simp [KeepsHost, KeepsWindows, KeepsTree, KeepsTable, KeepsBits, KeepsBytes]
  · rw [exec_clrerr, clearFault_of_noFault hinv hclear]
  · exact ⟨_, _, exec_clrerr s, exec_pack_poisoned (clearFault_err s) hpoison, rfl⟩

/-! ### SRESET -/

/-- SRESET leaves the reset state of the instance, the host's lists aside. -/
theorem resetBlock_without_host (s : State) :
    { resetBlock s with pending := [], replies := [] } = State.resetWith s.bitcap := rfl

/-- Settles O2: `resetBlock` is a hardware reset, and `exec_keepsWindows` speaks of the other commands. -/
theorem sresetIsHardwareReset : Obligations.SresetIsHardwareReset := by
  have hword : encode .sreset = 0x02000000 := by decide
  exact ⟨hword, execWord_of_encode_eq hword,
    fun s => ⟨_, exec_sreset s, ⟨rfl, rfl, rfl⟩, atReset_resetBlock s, resetBlock_without_host s⟩,
    fun _ _ _ hi h => exec_keepsWindows hi h⟩

end Sys2Proof.Machine
end

section
/-! CTGEN on a walkable image and on any other (41_codetable.md rules R90 to R93): an image is walkable exactly when its
walk succeeds, and the walk's result is what CTGEN makes of the state. -/

namespace Sys2Proof.Machine

/-- With no fault standing a command is executed (R62). -/
theorem exec_of_noFault (i : Instr) {s : State} (h : s.err = .noFault) : exec i s = .next (effect i s) := by
  rw [exec_eq, if_pos (.inl h)]

theorem exec_ctgen_of_walk_ok {s : State} {r : NodeIndex} {t : CodeTable} (herr : s.err = .noFault)
    (hw : walk s.tree Config.maxLen r [] [] = .ok t) :
    exec (.ctgen r) s = .next { s with ct := t, ctv := true, zlen := hasSymbol (s.tree.read r.toNat) } := by
  rw [exec_of_noFault _ herr]
  simp only [effect, deriveTable, hw]

theorem exec_ctgen_of_walk_error {s : State} {r : NodeIndex} {c : Cause} {info : Word} (herr : s.err = .noFault)
    (hw : walk s.tree Config.maxLen r [] [] = .error (c, info)) :
    exec (.ctgen r) s = .next (raise (0x10000000 + r.setWidth 32) c info (clearTable s)) := by
  rw [exec_of_noFault _ herr, ← encode_ctgen]
  simp only [effect, deriveTable, hw]

/-! ### A walk's outcome from those below it -/

section
variable {m : Memory} {n : NodeIndex} {rem : Nat} {path : Bits} {t t1 t' : CodeTable} {f : Cause × Word}

theorem walk_of_leaf (hleaf : leafNode (m.read n.toNat) = true)
    (hunset : t.find (symbolField (m.read n.toNat)).toNat = none) :
    walk m rem n path t = .ok (t.record (symbolField (m.read n.toNat)).toNat path) :=
  walk_ok_cases.2 (.inl ⟨hleaf, hunset, rfl⟩)

theorem walk_of_children (hinternal : internalNode (m.read n.toNat) = true)
    (hleft : walk m rem (leftField (m.read n.toNat)) (path ++ [false]) t = .ok t1)
    (hright : walk m rem (rightField (m.read n.toNat)) (path ++ [true]) t1 = .ok t') :
    walk m (rem + 1) n path t = .ok t' :=
  walk_ok_cases.2 (.inr ⟨hinternal, rem, rfl, t1, hleft, hright⟩)

theorem walk_of_left_error (hinternal : internalNode (m.read n.toNat) = true)
    (hleft : walk m rem (leftField (m.read n.toNat)) (path ++ [false]) t = .error f) :
    walk m (rem + 1) n path t = .error f :=
  walk_error_cases.2 (.inr (.inr (.inr ⟨hinternal, rem, rfl, .inl hleft⟩)))

theorem walk_of_right_error (hinternal : internalNode (m.read n.toNat) = true)
    (hleft : walk m rem (leftField (m.read n.toNat)) (path ++ [false]) t = .ok t1)
    (hright : walk m rem (rightField (m.read n.toNat)) (path ++ [true]) t1 = .error f) :
    walk m (rem + 1) n path t = .error f :=
  walk_error_cases.2 (.inr (.inr (.inr ⟨hinternal, rem, rfl, .inr ⟨t1, hleft, hright⟩⟩)))

end

/-! ### Walkable images -/

/-- No path comes before itself in pre-order. -/
theorem not_earlierPath_self (p : Bits) : ¬ EarlierPath p p := by
  rintro (⟨b, rest, h⟩ | ⟨c, q, p', hleft, hright⟩)
  · simp at h
  · rw [hleft] at hright
    simp at hright

/-- What a fault reports, each cause in turn, is against what CTGEN asks of an image. -/
theorem not_walkable_of_walk_error {m : Memory} {r : NodeIndex} {f : Cause × Word}
    (h : walk m Config.maxLen r [] [] = .error f) : ¬ WalkableImage m r := by
  rintro ⟨hnodes, honce⟩
  obtain ⟨p, k, hreach, -, -, hcause, -⟩ := walk_error_spec (c := f.1) (info := f.2) h
  have hnode := hnodes p k hreach
  obtain ⟨-, hleaf, hinternal⟩ | ⟨-, hinternal, hdeep⟩ | ⟨-, hleaf, hset | ⟨q, hq, hqleaf⟩⟩ := hcause
  · simp [hleaf, hinternal] at hnode
  · obtain hleaf | ⟨-, hlt⟩ := hnode
    · simp [not_internal_of_leaf hleaf] at hinternal
    · omega
  · simp [CodeTable.find_nil] at hset
  · obtain rfl := honce q p _ hqleaf ⟨k, hreach, hleaf, rfl⟩
    exact not_earlierPath_self q hq

theorem walkable_iff_walk_ok {m : Memory} {r : NodeIndex} :
    WalkableImage m r ↔ ∃ t, walk m Config.maxLen r [] [] = .ok t := by
  constructor
  · intro h
    cases hw : walk m Config.maxLen r [] [] with
    | ok t => exact ⟨t, rfl⟩
    | error f => exact absurd h (not_walkable_of_walk_error hw)
  · rintro ⟨t, hw⟩
    exact walkable_of_walk_ok hw

/-- CTGEN's table is in canonical form. -/
theorem walk_root_wf {m : Memory} {r : NodeIndex} {t : CodeTable}
    (h : walk m Config.maxLen r [] [] = .ok t) : t.wf :=
  walk_ok_wf h CodeTable.wf_nil (Nat.zero_add _).le

/-- The code of a symbol is the path to its leaf (R91). -/
theorem find_walk_iff {m : Memory} {r : NodeIndex} {t : CodeTable} (h : walk m Config.maxLen r [] [] = .ok t)
    (sym : Symbol) (p : Bits) : t.find sym.toNat = some p ↔ LeafAt m r p sym := by
  rw [← mem_iff_find (walk_root_wf h) (sym.toNat, p), mem_walk_iff h]
  constructor
  · rintro ⟨s, hleaf, hs⟩
    rwa [BitVec.eq_of_toNat_eq hs]
  · exact fun hleaf => ⟨sym, hleaf, rfl⟩

/-- No entry stands outside the 128 symbols. -/
theorem find_of_wf {t : CodeTable} (ht : t.wf) {i : Nat} (hi : 128 ≤ i) : t.find i = none := by
  by_contra hne
  obtain ⟨code, hcode⟩ := Option.ne_none_iff_exists'.1 hne
  exact absurd (ht.2 _ (mem_of_cellsFind hcode)).1 (not_lt.2 hi)

/-- Settles O26: the walk of a walkable image succeeds, and its table is `find_walk_iff`'s. -/
theorem ctgenRecordsEveryLeafPath : Obligations.CtgenRecordsEveryLeafPath := by
  intro s r herr hwalkable
  obtain ⟨t, hw⟩ := walkable_iff_walk_ok.1 hwalkable
  refine ⟨_, exec_ctgen_of_walk_ok herr hw, find_walk_iff hw,
    fun i hi => find_of_wf (walk_root_wf hw) hi, rfl, rfl, ?_⟩
  simp [KeepsHost, KeepsWindows, KeepsFault, KeepsTree, KeepsBits, KeepsBytes]

/-- Settles O27: the walk of any other image faults, by one of the three causes of `walk_error_cause`. -/
theorem ctgenFaultLeavesEmptyTable : Obligations.CtgenFaultLeavesEmptyTable := by
  intro s r herr hnot
  cases hw : walk s.tree Config.maxLen r [] [] with
  | ok t => exact absurd (walkable_of_walk_ok hw) hnot
  | error f =>
    refine ⟨_, exec_ctgen_of_walk_error herr hw, walk_error_cause hw, rfl, CodeTable.find_nil, rfl, rfl, ?_⟩
    simp [KeepsHost, KeepsWindows, KeepsTree, KeepsBits, KeepsBytes]

/-! ### A root that is a leaf, and one with two leaves (R93) -/

theorem portRead_ctcount_of_wf {s : State} (hwf : s.ct.wf) : (portRead 0x00A s).toNat = s.ct.length := by
  rw [toNat_portRead_ctcount, count_eq_length hwf]

/-- PUTSYM of a symbol with the empty code appends nothing. -/
theorem exec_putsym_of_empty_code {s : State} {sym : Symbol} (hcode : s.ct.find sym.toNat = some [])
    (hfit : s.bitlen ≤ s.bitcap) : exec (.putsym sym) s = .next s := by
  refine exec_of_effect_eq ?_
  show putSymbol sym s = s
  obtain ⟨hnone, -⟩ | ⟨code, hfind, hcases⟩ := putSymbol_cases sym s
  · simp [hcode] at hnone
  · obtain rfl : [] = code := Option.some.inj (hcode.symm.trans hfind)
    obtain ⟨hlt, -⟩ | ⟨-, he⟩ := hcases
    · exact absurd hlt (not_lt.2 hfit)
    · rw [he, appendBits, List.append_nil]

/-- An internal node with two leaf children of different symbols: the left one is recorded first. -/
theorem walk_of_two_leaves {m : Memory} {n : NodeIndex} {rem : Nat} {l k : Word}
    (hinternal : internalNode (m.read n.toNat) = true) (hl : m.read (leftField (m.read n.toNat)).toNat = l)
    (hk : m.read (rightField (m.read n.toNat)).toNat = k) (hlleaf : leafNode l = true) (hkleaf : leafNode k = true)
    (hne : (symbolField k).toNat ≠ (symbolField l).toNat) :
    walk m (rem + 1) n [] [] =
      .ok ((CodeTable.record [] (symbolField l).toNat [false]).record (symbolField k).toNat [true]) := by
  subst hl hk
  have hunset := (CodeTable.find_record [] _ _ [false]).trans (if_neg hne)
  exact walk_of_children hinternal (walk_of_leaf hlleaf (CodeTable.find_nil _)) (walk_of_leaf hkleaf hunset)

/-- Settles O29: the walk ends at the root, or records its two children. -/
theorem rootLeafGetsEmptyCode : Obligations.RootLeafGetsEmptyCode := by
  refine ⟨fun s r herr hfit hleaf => ?_, fun s r l k herr hroot hl hk hlleaf hkleaf hne => ?_⟩
  · have hw := walk_of_leaf (rem := Config.maxLen) (path := []) hleaf (CodeTable.find_nil _)
    have hfind (i : Nat) := CodeTable.find_record [] (symbolField (s.tree.read r.toNat)).toNat i []
    refine ⟨_, exec_ctgen_of_walk_ok herr hw, herr, rfl, (leafNode_iff.1 hleaf).2, hfind, ?_, ?_⟩
    · exact BitVec.eq_of_toNat_eq (portRead_ctcount_of_wf (walk_root_wf hw))
    · exact exec_putsym_of_empty_code ((hfind _).trans (if_pos rfl)) hfit
  · have hother : (symbolField k).toNat ≠ (symbolField l).toNat := BitVec.toNat_ne.1 hne.symm
    have hw := walk_of_two_leaves (rem := 126) hroot hl.symm hk.symm hlleaf hkleaf hother
    refine ⟨_, exec_ctgen_of_walk_ok herr hw, herr, rfl, (internalNode_iff.1 hroot).2.1, fun i => ?_⟩
    show CodeTable.find _ i = _
    rw [CodeTable.find_record, CodeTable.find_record]
    split_ifs with hik hil
    · exact absurd (hik.symm.trans hil) hother
    all_goals rfl

/-! ### A node that is its own left child (R92) -/

/-- The walk goes left until the depth test fails. -/
theorem walk_left_cycle {m : Memory} {n : NodeIndex} (hinternal : internalNode (m.read n.toNat) = true)
    (hleft : leftField (m.read n.toNat) = n) (rem : Nat) (path : Bits) (t : CodeTable) :
    walk m rem n path t = .error (.depth, nodeInfo 0 n) := by
  induction rem generalizing path with
  | zero => exact walk_error_cases.2 (.inr (.inr (.inl ⟨hinternal, rfl, rfl⟩)))
  | succ rem ih =>
    refine walk_of_left_error hinternal ?_
    rw [hleft]
    exact ih _

/-- Settles O30, by `walk_left_cycle`. -/
theorem leftCycleFaultsAtDepth127 : Obligations.LeftCycleFaultsAtDepth127 :=
  fun _ _ herr hinternal hleft =>
    ⟨_, exec_ctgen_of_walk_error herr (walk_left_cycle hinternal hleft _ _ _), rfl, rfl, rfl⟩

end Sys2Proof.Machine
end

section
/-! CTGEN as a function of the tree alone (41_codetable.md rule R96 d, e): two images that hold the same nodes at
different places are walked alike. -/

namespace Sys2Proof.Machine

/-- Every node reached from `n` in `m` stands in `m'` where `place` puts it. -/
def SameImage (place : NodeIndex → NodeIndex) (m m' : Memory) (n : NodeIndex) : Prop :=
  ∀ p k, Reaches m n p k → SameNode place (m.read k.toNat) (m'.read (place k).toNat)

section
variable {place : NodeIndex → NodeIndex} {m m' : Memory} {n : NodeIndex}

theorem SameImage.left (h : SameImage place m m' n) (hi : internalNode (m.read n.toNat) = true) :
    SameImage place m m' (leftField (m.read n.toNat)) :=
  fun p k hr => h (false :: p) k (.left hi hr)

theorem SameImage.right (h : SameImage place m m' n) (hi : internalNode (m.read n.toNat) = true) :
    SameImage place m m' (rightField (m.read n.toNat)) :=
  fun p k hr => h (true :: p) k (.right hi hr)

theorem walk_ok_of_sameImage {rem : Nat} {path : Bits} {t t' : CodeTable} (h : SameImage place m m' n)
    (hw : walk m rem n path t = .ok t') : walk m' rem (place n) path t = .ok t' := by
  induction rem using Nat.strong_induction_on generalizing n path t t' with
  | _ rem ih =>
    obtain ⟨hleaf, hinternal, hsym, hchildren⟩ := h [] n (.here n)
    obtain ⟨hl, hunset, rfl⟩ | ⟨hi, rem', rfl, t1, hokLeft, hokRight⟩ := walk_ok_cases.1 hw
    · rw [← hsym hl] at hunset ⊢
      exact walk_of_leaf (hleaf.trans hl) hunset
    · obtain ⟨hleft, hright⟩ := hchildren hi
      have hokLeft' := ih rem' rem'.lt_succ_self (h.left hi) hokLeft
      have hokRight' := ih rem' rem'.lt_succ_self (h.right hi) hokRight
      rw [← hleft] at hokLeft'
      rw [← hright] at hokRight'
      exact walk_of_children (hinternal.trans hi) hokLeft' hokRight'

/-- The cause is the same; ERRINFO names the place. -/
theorem walk_error_of_sameImage {rem : Nat} {path : Bits} {t : CodeTable} {c : Cause} {info : Word}
    (h : SameImage place m m' n) (hw : walk m rem n path t = .error (c, info)) :
    ∃ info', walk m' rem (place n) path t = .error (c, info') := by
  induction rem using Nat.strong_induction_on generalizing n path t with
  | _ rem ih =>
    obtain ⟨hleaf, hinternal, hsym, hchildren⟩ := h [] n (.here n)
    obtain ⟨hl, hset, he⟩ | ⟨hl, hi, he⟩ | ⟨hi, h0, he⟩ | ⟨hi, rem', rfl, hbelow⟩ := walk_error_cases.1 hw
    · cases he
      rw [← hsym hl] at hset
      exact ⟨_, walk_error_cases.2 (.inl ⟨hleaf.trans hl, hset, rfl⟩)⟩
    · cases he
      exact ⟨_, walk_error_cases.2 (.inr (.inl ⟨hleaf.trans hl, hinternal.trans hi, rfl⟩))⟩
    · cases he
      exact ⟨_, walk_error_cases.2 (.inr (.inr (.inl ⟨hinternal.trans hi, h0, rfl⟩)))⟩
    · obtain ⟨hleft, hright⟩ := hchildren hi
      have hlt := rem'.lt_succ_self
      obtain hw | ⟨t1, hok, hw⟩ := hbelow
      · obtain ⟨info', hw'⟩ := ih rem' hlt (h.left hi) hw
        rw [← hleft] at hw'
        exact ⟨info', walk_of_left_error (hinternal.trans hi) hw'⟩
      · have hok' := walk_ok_of_sameImage (h.left hi) hok
        obtain ⟨info', hw'⟩ := ih rem' hlt (h.right hi) hw
        rw [← hleft] at hok'
        rw [← hright] at hw'
        exact ⟨info', walk_of_right_error (hinternal.trans hi) hok' hw'⟩

end

/-- Settles O31: the walks agree, and ZLEN is a property of the table (`hasSymbol_root_iff`). -/
theorem ctgenIgnoresPlacement : Obligations.CtgenIgnoresPlacement := by
  intro s s' r place herr herr' himage
  cases hw : walk s.tree Config.maxLen r [] [] with
  | ok t =>
    have hw' := walk_ok_of_sameImage himage hw
    have hzlen := (hasSymbol_root_iff hw').trans (hasSymbol_root_iff hw).symm
    exact ⟨_, _, exec_ctgen_of_walk_ok herr hw, exec_ctgen_of_walk_ok herr' hw', rfl, rfl, Bool.eq_iff_iff.2 hzlen,
      herr'.trans herr.symm⟩
  | error f =>
    obtain ⟨info', hw'⟩ := walk_error_of_sameImage himage (c := f.1) (info := f.2) hw
    exact ⟨_, _, exec_ctgen_of_walk_error herr hw, exec_ctgen_of_walk_error herr' hw', rfl, rfl, rfl, rfl⟩

end Sys2Proof.Machine
end

section
/-! How many nodes CTGEN visits (41_codetable.md rule R96 a). A walk that records `k` leaves visits `2 * k - 1` nodes,
and one that faults visits besides at most the nodes on one path. -/

namespace Sys2Proof.Machine

/-! ### One node -/

theorem not_leaf_of_internal {w : Word} (h : internalNode w = true) : leafNode w = false := by
  simp [leafNode, (internalNode_iff.1 h).2.1]

section
variable {m : Memory} {n : NodeIndex} {path : Bits} {t : CodeTable}

theorem walkVisits_of_not_internal {rem : Nat} (h : internalNode (m.read n.toNat) = false) :
    walkVisits m rem n path t = 1 := by
  rw [walkVisits.eq_def, visit_eq, h]
  by_cases hl : leafNode (m.read n.toNat) = true
  · by_cases hf : (t.find (symbolField (m.read n.toNat)).toNat).isSome = true <;> simp [hl, hf]
  · simp [hl]

theorem walkVisits_of_left_error {rem : Nat} {f : Cause × Word} (h : internalNode (m.read n.toNat) = true)
    (hw : walk m rem (leftField (m.read n.toNat)) (path ++ [false]) t = .error f) :
    walkVisits m (rem + 1) n path t = 1 + walkVisits m rem (leftField (m.read n.toNat)) (path ++ [false]) t := by
  rw [walkVisits.eq_def, visit_eq]
  simp [h, not_leaf_of_internal h, hw]

theorem walkVisits_of_left_ok {rem : Nat} {t1 : CodeTable} (h : internalNode (m.read n.toNat) = true)
    (hw : walk m rem (leftField (m.read n.toNat)) (path ++ [false]) t = .ok t1) :
    walkVisits m (rem + 1) n path t = 1 + walkVisits m rem (leftField (m.read n.toNat)) (path ++ [false]) t +
      walkVisits m rem (rightField (m.read n.toNat)) (path ++ [true]) t1 := by
  rw [walkVisits.eq_def, visit_eq]
  simp [h, not_leaf_of_internal h, hw]

theorem walkVisits_at_depth_limit : walkVisits m 0 n path t = 1 := by
  by_cases h : internalNode (m.read n.toNat) = true
  · rw [walkVisits.eq_def, visit_eq]
    simp [h, not_leaf_of_internal h]
  · exact walkVisits_of_not_internal (Bool.eq_false_of_not_eq_true h)

end

/-! ### A whole walk -/

theorem length_record {t : CodeTable} {a : Nat} (code : Bits) (h : t.find a = none) :
    (t.record a code).length = t.length + 1 :=
  (cellsPut_perm code h).length_eq

theorem length_le_of_wf {t : CodeTable} (ht : t.wf) : t.length ≤ 128 :=
  count_eq_length ht ▸ count_le t

/-- A successful walk visits each leaf it records, and one internal node less. -/
theorem walkVisits_of_ok {m : Memory} {rem : Nat} {n : NodeIndex} {path : Bits} {t t' : CodeTable}
    (h : walk m rem n path t = .ok t') : walkVisits m rem n path t + 1 + 2 * t.length = 2 * t'.length := by
  induction rem using Nat.strong_induction_on generalizing n path t t' with
  | _ rem ih =>
    obtain ⟨hleaf, hunset, rfl⟩ | ⟨hinternal, rem', rfl, t1, hleft, hright⟩ := walk_ok_cases.1 h
    · rw [walkVisits_of_not_internal (not_internal_of_leaf hleaf), length_record path hunset]
      omega
    · have h1 := ih rem' rem'.lt_succ_self hleft
      have h2 := ih rem' rem'.lt_succ_self hright
      rw [walkVisits_of_left_ok hinternal hleft]
      omega

/-- A faulting walk visits two nodes for each leaf it records, at most 128 of them, and the nodes on the path to the
fault. -/
theorem walkVisits_of_error {m : Memory} {rem : Nat} {n : NodeIndex} {path : Bits} {t : CodeTable} {f : Cause × Word}
    (h : walk m rem n path t = .error f) (ht : t.wf) (hp : path.length + rem ≤ Config.maxLen) :
    walkVisits m rem n path t + 2 * t.length ≤ 2 * 128 + 1 + rem := by
  induction rem using Nat.strong_induction_on generalizing n path t with
  | _ rem ih =>
    have hlen := length_le_of_wf ht
    obtain ⟨hleaf, -, -⟩ | ⟨-, hinternal, -⟩ | ⟨-, rfl, -⟩ | ⟨hinternal, rem', rfl, hbelow⟩ := walk_error_cases.1 h
    · rw [walkVisits_of_not_internal (not_internal_of_leaf hleaf)]
      omega
    · rw [walkVisits_of_not_internal hinternal]
      omega
    · rw [walkVisits_at_depth_limit]
      omega
    · have hdepth (b : Bool) : (path ++ [b]).length + rem' ≤ Config.maxLen := by
        rw [List.length_append, List.length_singleton]; omega
      obtain hleft | ⟨t1, hleft, hright⟩ := hbelow
      · have h1 := ih rem' rem'.lt_succ_self hleft ht (hdepth false)
        rw [walkVisits_of_left_error hinternal hleft]
        omega
      · have h1 := walkVisits_of_ok hleft
        have h2 := ih rem' rem'.lt_succ_self hright (walk_ok_wf hleft ht (hdepth false)) (hdepth true)
        rw [walkVisits_of_left_ok hinternal hleft]
        omega

/-- Settles O32: 255 visits for a walk that succeeds and 384 for one that faults are the most. -/
theorem ctgenVisitsAtMost16512 : Obligations.CtgenVisitsAtMost16512 := by
  intro tree r
  cases hw : walk tree Config.maxLen r [] [] with
  | ok t =>
    have hvisits := walkVisits_of_ok hw
    have hlen := length_le_of_wf (walk_root_wf hw)
    omega
  | error f =>
    have hvisits := walkVisits_of_error hw CodeTable.wf_nil (Nat.zero_add _).le
    have hdepth : Config.maxLen = 127 := rfl
    omega

end Sys2Proof.Machine
end

section
/-! CTCLR and TCLR (41_codetable.md rules R94, R95): each clears one of the table and the tree and leaves the other. -/

namespace Sys2Proof.Machine

/-! ### CTCLR -/

theorem exec_ctclr {s : State} (h : s.err = .noFault) : exec .ctclr s = .next (clearTable s) :=
  exec_of_noFault .ctclr h

theorem portRead_ctcount_of_empty {s : State} (h : s.ct = []) : portRead 0x00A s = 0 :=
  BitVec.eq_of_toNat_eq ((portRead_ctcount_of_wf (h ▸ CodeTable.wf_nil)).trans (by rw [h]; rfl))

theorem exec_putsym_of_unset {s : State} {sym : Symbol} (herr : s.err = .noFault)
    (hunset : s.ct.find sym.toNat = none) :
    exec (.putsym sym) s = .next (raise (encode (.putsym sym)) .nocode (sym.setWidth 32) s) := by
  rw [exec_of_noFault _ herr]
  simp only [effect, putSymbol, hunset]

/-- CTGEN rebuilds the table from nothing, whatever stands in it. -/
theorem deriveTable_clearTable (r : NodeIndex) (s : State) : deriveTable r (clearTable s) = deriveTable r s := by
  simp only [deriveTable, clearTable_tree]
  cases walk s.tree Config.maxLen r [] [] <;> rfl

/-- Settles O33, from `clearTable`. -/
theorem ctclrUnsetsEveryEntry : Obligations.CtclrUnsetsEveryEntry := by
  refine ⟨by decide, fun s herr => ?_⟩
  have hclear : (clearTable s).err = .noFault := herr
  refine ⟨_, exec_ctclr herr, CodeTable.find_nil, portRead_ctcount_of_empty rfl, rfl, rfl, ⟨rfl, rfl, rfl⟩, ⟨rfl, rfl⟩,
    ⟨rfl, rfl, rfl⟩, fun _ => rfl, rfl, rfl, rfl, rfl, rfl, fun sym => ?_, fun r => ?_⟩
  · exact ⟨_, exec_putsym_of_unset hclear (CodeTable.find_nil _), rfl⟩
  · rw [exec_of_noFault _ hclear, exec_of_noFault _ herr]
    exact congrArg _ (deriveTable_clearTable r s)

/-! ### TCLR -/

/-- The walk of an empty TREE ends at its root, where no node is. -/
theorem walk_nil (rem : Nat) (n : NodeIndex) (path : Bits) (t : CodeTable) :
    walk [] rem n path t = .error (.badtree, nodeInfo rem n) := by
  refine walk_error_cases.2 (.inr (.inl ?_))
  rw [Memory.read_nil]
  exact ⟨by decide, by decide, rfl⟩

theorem nodeInfo_root (r : NodeIndex) : nodeInfo Config.maxLen r = r.setWidth 32 := by
  refine BitVec.eq_of_toNat_eq ?_
  simp [nodeInfo]

/-- Settles O34, from `walk_nil`. -/
theorem tclrClearsTreeOnly : Obligations.TclrClearsTreeOnly := by
  refine ⟨by decide, fun s herr => ?_⟩
  refine ⟨_, exec_of_noFault .tclr herr, Memory.read_nil, ⟨rfl, rfl, rfl⟩, ⟨rfl, rfl⟩, ⟨rfl, rfl, rfl⟩,
    ⟨fun _ => rfl, rfl, rfl⟩, rfl, rfl, rfl, rfl, rfl, fun r => ?_⟩
  exact ⟨_, exec_ctgen_of_walk_error herr (walk_nil ..), rfl, rfl, nodeInfo_root r⟩

end Sys2Proof.Machine
end

section
/-! The first byte of the wire format: the padding, its marker, and the payload bits that fill it up (30_encoding.md
rules R68, R69, 42_bitpacker.md rule R104). -/

namespace Sys2Proof.Machine

/-! ### The number of eight bits -/

theorem natOfBits_zeros_append (n : Nat) (bs : Bits) : natOfBits (zeros n ++ bs) = natOfBits bs := by
  induction n with
  | zero => rfl
  | succ n ih => simpa [zeros, List.replicate_succ, natOfBits] using ih

/-- A leading one is worth its place. -/
theorem natOfBits_true_cons (bs : Bits) : natOfBits (true :: bs) = 2 ^ bs.length + natOfBits bs := by
  rw [natOfBits, Bool.toNat_true, Nat.one_mul]

theorem toNat_msbByte {bs : Bits} (hlen : bs.length = 8) : (msbByte bs).toNat = natOfBits bs := by
  rw [msbByte, BitVec.toNat_ofNat, Nat.mod_eq_of_lt (hlen ▸ natOfBits_lt bs)]

/-- The first eight bits make the first byte. -/
theorem packBytes_append {front : Bits} (hlen : front.length = 8) (rest : Bits) :
    packBytes (front ++ rest) = msbByte front :: packBytes rest :=
  match front, hlen with
  | [_, _, _, _, _, _, _, _], _ => rfl

/-! ### The first byte -/

theorem paddingOf_eq (len : Nat) : paddingOf len = 8 - len % 8 := rfl

/-- The bits of the first byte that PACK writes: the marker, and the payload's bits beyond whole bytes (R69). -/
def firstByteBits (payload : Bits) : Bits :=
  zeros (paddingOf payload.length - 1) ++ true :: payload.take (payload.length % 8)

theorem withMarker_eq_firstByteBits_append (payload : Bits) :
    withMarker payload = firstByteBits payload ++ payload.drop (payload.length % 8) := by
  rw [firstByteBits, List.append_assoc, List.cons_append, List.take_append_drop, withMarker]

theorem length_take_mod_eight (payload : Bits) : (payload.take (payload.length % 8)).length = payload.length % 8 := by
  rw [List.length_take, Nat.min_eq_left (Nat.mod_le _ _)]

theorem length_firstByteBits (payload : Bits) : (firstByteBits payload).length = 8 := by
  rw [firstByteBits, List.length_append, List.length_cons, length_take_mod_eight, zeros, List.length_replicate,
    paddingOf_eq]
  omega

/-- The first byte is its marker, at the place of the padding's last bit, and the payload bits below it. -/
theorem natOfBits_firstByteBits (payload : Bits) : natOfBits (firstByteBits payload) =
    2 ^ (payload.length % 8) + natOfBits (payload.take (payload.length % 8)) := by
  rw [firstByteBits, natOfBits_zeros_append, natOfBits_true_cons, length_take_mod_eight]

theorem packed_eq_cons (payload : Bits) : packBytes (withMarker payload) =
    msbByte (firstByteBits payload) :: packBytes (payload.drop (payload.length % 8)) := by
  rw [withMarker_eq_firstByteBits_append, packBytes_append (length_firstByteBits payload)]

/-- With L mod 8 payload bits below the marker, the first byte has that many bits and one (R68). -/
theorem toNat_firstByte_bounds (payload : Bits) :
    2 ^ (payload.length % 8) ≤ (msbByte (firstByteBits payload)).toNat ∧
      (msbByte (firstByteBits payload)).toNat < 2 ^ (payload.length % 8 + 1) := by
  have hlt := natOfBits_lt (payload.take (payload.length % 8))
  rw [length_take_mod_eight] at hlt
  rw [toNat_msbByte (length_firstByteBits payload), natOfBits_firstByteBits, pow_succ]
  omega

theorem toNat_ofNat_paddingOf (len : Nat) : (BitVec.ofNat 32 (paddingOf len)).toNat = 8 - len % 8 := by
  rw [BitVec.toNat_ofNat, paddingOf_eq]
  exact Nat.mod_eq_of_lt (by omega)

/-- PACK of a clean bit string with no fault standing (R103). -/
theorem exec_pack_clean {s : State} (herr : s.err = .noFault) (hclean : s.bpoison = false) :
    exec .pack s = .next { s with
      bytebuf := packBytes (withMarker s.bitbuf), padlen := BitVec.ofNat 32 (paddingOf s.bitlen) } :=
  (exec_of_noFault .pack herr).trans (congrArg _ (packBits_clean hclean))

/-- Settles O39: the marker stands above `s.bitlen % 8` payload bits, which bounds the first byte both ways. -/
theorem packedFirstByteCarriesPadding : Obligations.PackedFirstByteCarriesPadding := by
  intro s t herr hclean h
  obtain rfl := Host.Outcome.next.inj ((exec_pack_clean herr hclean).symm.trans h)
  obtain ⟨hlo, hhi⟩ := toNat_firstByte_bounds s.bitbuf
  have hbytes : (packBytes (withMarker s.bitbuf)).length = s.bitbuf.length / 8 + 1 := length_packed s.bitbuf
  have hpos : 0 < 2 ^ (s.bitbuf.length % 8) := Nat.two_pow_pos _
  refine ⟨_, _, packed_eq_cons s.bitbuf, fun h0 => ?_, ?_⟩
  · rw [h0] at hlo
    exact absurd hlo (not_le.2 hpos)
  · simp only [State.bytelen, State.bitlen, toNat_ofNat_paddingOf, hbytes,
      show 8 - (8 - s.bitbuf.length % 8) = s.bitbuf.length % 8 by omega,
      show 9 - (8 - s.bitbuf.length % 8) = s.bitbuf.length % 8 + 1 by omega]
    exact ⟨by omega, by omega, by omega, hlo, hhi⟩

end Sys2Proof.Machine
end

section
/-! BCLR, PUTCH and PUTSYM (42_bitpacker.md rules R100 to R102): a command's word, and what it makes of a state with no
fault standing, one lemma for each outcome. -/

namespace Sys2Proof.Machine

/-! ### What fault entry and appending bits leave unchanged -/

theorem raise_frame (w : Word) (c : Cause) (info : Word) (s : State) :
    KeepsHost s (raise w c info s) ∧ KeepsWindows s (raise w c info s) ∧ KeepsTree s (raise w c info s) ∧
    KeepsTable s (raise w c info s) ∧ KeepsBits s (raise w c info s) ∧ KeepsBytes s (raise w c info s) ∧
    (raise w c info s).nomark = s.nomark ∧ (raise w c info s).bpoison = s.bpoison ∧
    (raise w c info s).padlen = s.padlen := by
  simp [KeepsHost, KeepsWindows, KeepsTree, KeepsTable, KeepsBits, KeepsBytes]

theorem appendBits_frame (bits : Bits) (s : State) :
    KeepsHost s (appendBits bits s) ∧ KeepsWindows s (appendBits bits s) ∧ KeepsFault s (appendBits bits s) ∧
    KeepsTree s (appendBits bits s) ∧ KeepsTable s (appendBits bits s) ∧ KeepsBytes s (appendBits bits s) ∧
    (appendBits bits s).nomark = s.nomark ∧ (appendBits bits s).bpoison = s.bpoison ∧
    (appendBits bits s).padlen = s.padlen := by
  simp [KeepsHost, KeepsWindows, KeepsFault, KeepsTree, KeepsTable, KeepsBytes]

theorem bitlen_appendBits (bits : Bits) (s : State) : (appendBits bits s).bitlen = s.bitlen + bits.length :=
  List.length_append

/-! ### BCLR -/

theorem portRead_bitdata_of_empty {s : State} (h : s.bitbuf = []) : portRead 0x006 s = 0 := by
  show bitdataWord s = 0
  rw [bitdataWord, h, bitsFrom_nil, natOfBits_zeros]
  rfl

/-- Settles O35, from BCLR's one record update. -/
theorem bclrStartsBitString : Obligations.BclrStartsBitString := by
  refine ⟨by decide, fun s herr => ⟨_, exec_of_noFault .bclr herr, rfl, rfl, rfl, portRead_bitdata_of_empty rfl, ?_⟩⟩
  simp [effect, KeepsHost, KeepsWindows, KeepsFault, KeepsTree, KeepsTable, KeepsBytes]

/-! ### PUTCH -/

section
variable {c : Byte} {s : State}

theorem exec_putch_of_invalid (herr : s.err = .noFault) (hzero : c ≠ 0x30) (hone : c ≠ 0x31) :
    exec (.putch c) s = .next
      (raise (0x21000000 + c.setWidth 32) .invalidBitCharacter (c.setWidth 32) { s with bpoison := true }) := by
  rw [exec_of_noFault _ herr, ← encode_putch]
  exact congrArg _ (if_pos ⟨hzero, hone⟩)

/-- The character test passes for '0' and '1' alone. -/
theorem putChar_of_valid (hc : c = 0x30 ∨ c = 0x31) : putChar c s =
    if s.bitlen = s.bitcap then raise (encode (.putch c)) .bitovf (BitVec.ofNat 32 s.bitlen) s
    else appendBits [decide (c = 0x31)] s :=
  if_neg fun ⟨hzero, hone⟩ => hc.elim hzero hone

theorem exec_putch_of_full (herr : s.err = .noFault) (hc : c = 0x30 ∨ c = 0x31) (hfull : s.bitlen = s.bitcap) :
    exec (.putch c) s = .next (raise (0x21000000 + c.setWidth 32) .bitovf (BitVec.ofNat 32 s.bitlen) s) := by
  rw [exec_of_noFault _ herr, ← encode_putch]
  exact congrArg _ ((putChar_of_valid hc).trans (if_pos hfull))

theorem exec_putch_of_room (herr : s.err = .noFault) (hc : c = 0x30 ∨ c = 0x31) (hroom : s.bitlen ≠ s.bitcap) :
    exec (.putch c) s = .next (appendBits [decide (c = 0x31)] s) :=
  (exec_of_noFault _ herr).trans (congrArg _ ((putChar_of_valid hc).trans (if_neg hroom)))

end

/-- PUTCH sets BPOISON or leaves it (R101). -/
theorem putChar_keeps_poison (c : Byte) {s : State} (h : s.bpoison = true) : (putChar c s).bpoison = true := by
  obtain ⟨-, -, he⟩ | ⟨-, -, he⟩ | ⟨-, -, he⟩ := putChar_cases c s <;> rw [he]
  · rfl
  · exact h
  · exact h

theorem putSymbol_bpoison (sym : Symbol) (s : State) : (putSymbol sym s).bpoison = s.bpoison := by
  obtain ⟨_, _, _, _, he⟩ := putSymbol_writes sym s
  rw [he]

/-- Of CLRERR, PUTCH and PUTSYM none clears BPOISON (R101). -/
theorem effect_keeps_poison {i : Instr} (hi : i = .clrerr ∨ (∃ c, i = .putch c) ∨ ∃ sym, i = .putsym sym) {s : State}
    (h : s.bpoison = true) : (effect i s).bpoison = true := by
  obtain rfl | ⟨c, rfl⟩ | ⟨sym, rfl⟩ := hi
  · exact h
  · exact putChar_keeps_poison c h
  · exact (putSymbol_bpoison sym s).trans h

/-- Settles O36, outcome by outcome of PUTCH. -/
theorem putchAppendsOneBit : Obligations.PutchAppendsOneBit := by
  refine ⟨fun i s t hi h hpoison => ?_, fun c s herr =>
    ⟨encode_putch c, fun hzero hone => ?_, fun hc hfull => ?_, fun hc hroom => ?_⟩⟩
  · obtain rfl | rfl := exec_cases h
    · exact effect_keeps_poison hi hpoison
    · exact hpoison
  · refine ⟨_, exec_putch_of_invalid herr hzero hone, ⟨rfl, rfl, rfl⟩, rfl, ?_⟩
    simp [KeepsHost, KeepsWindows, KeepsTree, KeepsTable, KeepsBits, KeepsBytes]
  · exact ⟨_, exec_putch_of_full herr hc hfull, ⟨rfl, rfl, rfl⟩, raise_frame ..⟩
  · exact ⟨_, exec_putch_of_room herr hc hroom, rfl, bitlen_appendBits _ s, appendBits_frame ..⟩

/-! ### PUTSYM -/

section
variable {sym : Symbol} {code : Bits} {s : State}

theorem exec_putsym_of_overflow (herr : s.err = .noFault) (hcode : s.ct.find sym.toNat = some code)
    (hover : s.bitcap < s.bitlen + code.length) :
    exec (.putsym sym) s = .next (raise (encode (.putsym sym)) .bitovf (BitVec.ofNat 32 s.bitlen) s) := by
  rw [exec_of_noFault _ herr]
  simp only [effect, putSymbol, hcode]
  exact congrArg _ (if_pos hover)

theorem exec_putsym_of_fits (herr : s.err = .noFault) (hcode : s.ct.find sym.toNat = some code)
    (hfit : s.bitlen + code.length ≤ s.bitcap) : exec (.putsym sym) s = .next (appendBits code s) := by
  rw [exec_of_noFault _ herr]
  simp only [effect, putSymbol, hcode]
  exact congrArg _ (if_neg (not_lt.2 hfit))

end

/-- PUTSYM's OPC with an ARG of which bit 7 is set is no command (R64 d). -/
theorem not_wellFormed_putsym_bit7 {a : Byte} (h : 0x80 ≤ a.toNat) :
    wellFormedWord (0x22000000 + a.setWidth 32) = false := by
  have hword : 0x22000000 + a.setWidth 32 = commandWord 0x22 a := by revert a; decide +kernel
  have hbit : a.getLsbD 7 = true := by revert a; decide +kernel
  rw [hword, wellFormedWord_eq_false_iff_kinds, opcField_commandWord, argField_commandWord]
  exact .inr (.inr (.inr ⟨rfl, hbit⟩))

/-- Settles O37, outcome by outcome of PUTSYM. -/
theorem putsymAppendsWholeCode : Obligations.PutsymAppendsWholeCode := by
  refine ⟨fun a s herr ha => execWord_raises_illcmd (not_wellFormed_putsym_bit7 ha) herr, fun sym s herr =>
    ⟨encode_putsym sym, fun hunset => ?_, fun code hcode => ⟨fun hover => ?_, fun hfit => ?_⟩⟩⟩
  · exact ⟨_, exec_putsym_of_unset herr hunset, ⟨rfl, encode_putsym sym, rfl⟩, raise_frame ..⟩
  · exact ⟨_, exec_putsym_of_overflow herr hcode hover, ⟨rfl, encode_putsym sym, rfl⟩, raise_frame ..⟩
  · exact ⟨_, exec_putsym_of_fits herr hcode hfit, rfl, bitlen_appendBits code s, appendBits_frame ..⟩

end Sys2Proof.Machine
end

section
/-! The first one bit of a byte, and the marker of a byte sequence as the scan finds it (30_encoding.md rule R68,
43_bitunpacker.md rule R112). -/

namespace Sys2Proof.Machine

/-! ### The first one bit -/

/-- A bit string whose first one is at position `p` is `p` zeros, that one, and the bits beyond it. -/
theorem eq_zeros_append_of_findIdx? {bs : Bits} {p : Nat} (h : bs.findIdx? id = some p) :
    bs = zeros p ++ true :: bs.drop (p + 1) := by
  obtain ⟨hp, hone, hzero⟩ := List.findIdx?_eq_some_iff_getElem.1 h
  have htake : bs.take p = zeros p := by
    have hlen : (bs.take p).length = p := List.length_take_of_le hp.le
    refine List.ext_getElem (by rw [hlen, zeros, List.length_replicate]) fun k hk _ => ?_
    rw [List.getElem_take]
    simpa [zeros] using hzero k (hlen ▸ hk)
  have hdrop : bs.drop p = true :: bs.drop (p + 1) := by rw [List.drop_eq_getElem_cons hp, show bs[p] = true from hone]
  rw [← hdrop, ← htake, List.take_append_drop]

theorem findIdx?_zeros_append (p : Nat) (bs : Bits) : (zeros p ++ true :: bs).findIdx? id = some p := by
  simp [zeros, List.findIdx?_append, List.findIdx?_cons]

theorem findIdx?_byteMsb_eq_some_iff (b : Byte) (p : Nat) : (byteMsb b).findIdx? id = some p ↔
    p < 8 ∧ b.getLsbD (7 - p) = true ∧ ∀ k < p, b.getLsbD (7 - k) = false := by
  simp [List.findIdx?_eq_some_iff_getElem, byteMsb, and_left_comm]

theorem findIdx?_byteMsb_eq_none_iff (b : Byte) : (byteMsb b).findIdx? id = none ↔ b = 0 := by
  revert b; decide +kernel

/-! ### The scan -/

/-- The scan looks at the first eight bits alone (R112). -/
theorem markerScan_append {front : Bits} (hlen : front.length = 8) (rest : Bits) :
    markerScan (front ++ rest) = (front.findIdx? id).elim (8, true) fun p => (p + 1, false) := by
  have hne : front ≠ [] := List.ne_nil_of_length_pos (by omega)
  rw [markerScan, if_neg (by simp [hne]), List.take_left' hlen]
  cases front.findIdx? id <;> rfl

theorem unpackBytes_cons (b : Byte) (rest : List Byte) : unpackBytes (b :: rest) = byteMsb b ++ unpackBytes rest := rfl

theorem markerScan_unpackBytes_cons (b : Byte) (rest : List Byte) : markerScan (unpackBytes (b :: rest)) =
    ((byteMsb b).findIdx? id).elim (8, true) fun p => (p + 1, false) :=
  markerScan_append (length_byteMsb b) (unpackBytes rest)

/-! ### The marker rule -/

/-- The scan finds what the rule says. -/
theorem markerScan_of_markerRule {bytes : List Byte} {discard : Nat} {nomark : Bool}
    (h : MarkerRule bytes discard nomark) : markerScan (unpackBytes bytes) = (discard, nomark) := by
  obtain ⟨rfl, rfl, rfl⟩ | ⟨b, rest, p, rfl, hp, hone, hzero, rfl, rfl⟩ | ⟨rest, rfl, rfl, rfl⟩ := h
  · rfl
  · rw [markerScan_unpackBytes_cons, (findIdx?_byteMsb_eq_some_iff b p).2 ⟨hp, hone, hzero⟩, Option.elim_some]
  · rw [markerScan_unpackBytes_cons, (findIdx?_byteMsb_eq_none_iff 0).2 rfl, Option.elim_none]

/-- Every byte sequence is empty, has a first one bit in its first byte, or begins with 0x00. -/
theorem exists_markerRule (bytes : List Byte) : ∃ discard nomark, MarkerRule bytes discard nomark := by
  cases bytes with
  | nil => exact ⟨0, true, .inl ⟨rfl, rfl, rfl⟩⟩
  | cons b rest =>
    cases h : (byteMsb b).findIdx? id with
    | none =>
      obtain rfl := (findIdx?_byteMsb_eq_none_iff b).1 h
      exact ⟨8, true, .inr (.inr ⟨rest, rfl, rfl, rfl⟩)⟩
    | some p =>
      obtain ⟨hp, hone, hzero⟩ := (findIdx?_byteMsb_eq_some_iff b p).1 h
      exact ⟨p + 1, false, .inr (.inl ⟨b, rest, p, rfl, hp, hone, hzero, rfl, rfl⟩)⟩

/-- Settles O42: a pair that meets the rule is the scan's, and there is one. -/
theorem markerRuleSettlesEverySequence : Obligations.MarkerRuleSettlesEverySequence := by
  intro bytes
  obtain ⟨discard, nomark, hrule⟩ := exists_markerRule bytes
  have hscan := markerScan_of_markerRule hrule
  refine ⟨discard, nomark, hrule, hscan, fun d n h => ?_⟩
  exact Prod.mk.inj ((markerScan_of_markerRule h).symm.trans hscan)

end Sys2Proof.Machine
end

section
/-! YCLR and PUTBYTE (43_bitunpacker.md rules R110, R111). -/

namespace Sys2Proof.Machine

/-! ### YCLR -/

theorem portRead_bytedata_of_empty {s : State} (h : s.bytebuf = []) : portRead 0x009 s = 0 := by
  show bytedataWord s = 0
  rw [bytedataWord, h, List.getD_nil]
  rfl

/-- Settles O40, from YCLR's one record update. -/
theorem yclrStartsByteSequence : Obligations.YclrStartsByteSequence := by
  refine ⟨by decide, fun s herr => ⟨_, exec_of_noFault .yclr herr, rfl, rfl, portRead_bytedata_of_empty rfl, ?_⟩⟩
  simp [effect, KeepsHost, KeepsWindows, KeepsFault, KeepsTree, KeepsTable, KeepsBits]

/-! ### PUTBYTE -/

theorem appendByte_frame (b : Byte) (s : State) :
    KeepsHost s (appendByte b s) ∧ KeepsWindows s (appendByte b s) ∧ KeepsFault s (appendByte b s) ∧
    KeepsTree s (appendByte b s) ∧ KeepsTable s (appendByte b s) ∧ KeepsBits s (appendByte b s) ∧
    (appendByte b s).nomark = s.nomark ∧ (appendByte b s).bpoison = s.bpoison ∧
    (appendByte b s).padlen = s.padlen := by
  simp [KeepsHost, KeepsWindows, KeepsFault, KeepsTree, KeepsTable, KeepsBits]

theorem bytelen_appendByte (b : Byte) (s : State) : (appendByte b s).bytelen = s.bytelen + 1 :=
  List.length_append

section
variable {b : Byte} {s : State}

theorem exec_putbyte_of_full (herr : s.err = .noFault) (hfull : s.bytelen = s.bytecap) :
    exec (.putbyte b) s = .next (raise (encode (.putbyte b)) .byteovf (BitVec.ofNat 32 s.bytelen) s) :=
  (exec_of_noFault _ herr).trans (congrArg _ (if_pos hfull))

theorem exec_putbyte_of_room (herr : s.err = .noFault) (hroom : s.bytelen ≠ s.bytecap) :
    exec (.putbyte b) s = .next (appendByte b s) :=
  (exec_of_noFault _ herr).trans (congrArg _ (if_neg hroom))

end

/-- Settles O41, outcome by outcome of PUTBYTE. -/
theorem putbyteAppendsOneByte : Obligations.PutbyteAppendsOneByte := by
  refine fun b s herr => ⟨encode_putbyte b, fun hfull => ?_, fun hroom => ?_⟩
  · exact ⟨_, exec_putbyte_of_full herr hfull, ⟨rfl, encode_putbyte b, rfl⟩, raise_frame ..⟩
  · exact ⟨_, exec_putbyte_of_room herr hroom, rfl, bytelen_appendByte b s, appendByte_frame ..⟩

end Sys2Proof.Machine
end

section
/-! UNPACK, and its round trips with PACK (43_bitunpacker.md rules R112, R113, 42_bitpacker.md rule R104). -/

namespace Sys2Proof.Machine

/-! ### UNPACK -/

section
variable {s : State} {discard : Nat} {nomark : Bool}

theorem exec_unpack_of_overflow (herr : s.err = .noFault)
    (hscan : markerScan (unpackBytes s.bytebuf) = (discard, nomark)) (hover : s.bitcap < 8 * s.bytelen - discard) :
    exec .unpack s = .next (raise (encode .unpack) .bitovf (BitVec.ofNat 32 (8 * s.bytelen - discard)) s) := by
  rw [exec_of_noFault _ herr]
  simp only [effect, unpackBits, hscan]
  exact congrArg _ (if_pos hover)

theorem exec_unpack_of_fits (herr : s.err = .noFault)
    (hscan : markerScan (unpackBytes s.bytebuf) = (discard, nomark)) (hfit : 8 * s.bytelen - discard ≤ s.bitcap) :
    exec .unpack s = .next { s with
      bitbuf := (unpackBytes s.bytebuf).drop discard
      bpoison := false
      nomark := nomark
      padlen := BitVec.ofNat 32 discard } := by
  rw [exec_of_noFault _ herr]
  simp only [effect, unpackBits, hscan]
  exact congrArg _ (if_neg (not_lt.2 hfit))

end

theorem length_payload (bytes : List Byte) (discard : Nat) :
    ((unpackBytes bytes).drop discard).length = 8 * bytes.length - discard := by
  rw [List.length_drop, length_unpackBytes]

/-- Bit `i` of the payload is bit `discard + i` of the global bit string. -/
theorem getD_payload (bytes : List Byte) (discard i : Nat) : ((unpackBytes bytes).drop discard).getD i false =
    (bytes.getD ((discard + i) / 8) 0).getLsbD (7 - (discard + i) % 8) := by
  rw [← getD_unpackBytes _ _ _ (Nat.mod_lt _ (by omega)), Nat.div_add_mod]
  simp only [List.getD_eq_getElem?_getD, List.getElem?_drop]

/-- Settles O43, from the two outcomes of UNPACK and the bits of the global bit string. -/
theorem unpackDeliversPayload : Obligations.UnpackDeliversPayload := by
  have hword : encode .unpack = 0x32000000 := by decide
  refine ⟨hword, fun s discard hbytes hover => by omega, fun s discard nomark herr hrule => ?_⟩
  have hscan := markerScan_of_markerRule hrule
  refine ⟨fun hfit => ⟨_, exec_unpack_of_fits herr hscan hfit, length_payload _ _,
    fun i _ => getD_payload s.bytebuf discard i, rfl, rfl, rfl, ?_⟩, fun hover => ?_⟩
  · simp [KeepsHost, KeepsWindows, KeepsFault, KeepsTree, KeepsTable, KeepsBytes]
  · exact ⟨_, exec_unpack_of_overflow herr hscan hover, ⟨rfl, hword, rfl⟩, raise_frame ..⟩

/-! ### PACK, then UNPACK -/

theorem unpackBytes_packed (payload : Bits) : unpackBytes (packBytes (withMarker payload)) = withMarker payload :=
  unpackBytes_packBytes _ (by rw [length_withMarker, Nat.mul_mod_right])

theorem paddingOf_pos (len : Nat) : 0 < paddingOf len := by rw [paddingOf_eq]; omega

/-- The scan finds the marker that PACK puts (R113 a). -/
theorem markerScan_packed (payload : Bits) :
    markerScan (unpackBytes (packBytes (withMarker payload))) = (paddingOf payload.length, false) := by
  rw [unpackBytes_packed, withMarker_eq_firstByteBits_append, markerScan_append (length_firstByteBits payload),
    firstByteBits, findIdx?_zeros_append, Option.elim_some, Nat.sub_add_cancel (paddingOf_pos _)]

/-- Beyond the padding stands what was packed. -/
theorem drop_padding_packed (payload : Bits) :
    (unpackBytes (packBytes (withMarker payload))).drop (paddingOf payload.length) = payload := by
  rw [unpackBytes_packed, withMarker, List.append_cons]
  exact List.drop_left' (by simp [zeros, Nat.sub_add_cancel (paddingOf_pos _)])

/-- Settles O44: UNPACK scans the wire format of BITBUF and finds PACK's marker. -/
theorem unpackAfterPackRestoresBits : Obligations.UnpackAfterPackRestoresBits := by
  intro s herr hclean hfit
  have hpayload := drop_padding_packed s.bitbuf
  have hlen : 8 * (packBytes (withMarker s.bitbuf)).length - paddingOf s.bitlen ≤ s.bitcap := by
    rw [← length_payload]
    exact (congrArg List.length hpayload).trans_le hfit
  exact ⟨_, _, exec_pack_clean herr hclean, exec_unpack_of_fits herr (markerScan_packed s.bitbuf) hlen, hpayload,
    congrArg List.length hpayload, rfl, herr, rfl⟩

/-! ### UNPACK, then PACK -/

/-- What one to eight discarded bits leave of a byte sequence, PACK fills up with as many. -/
theorem withMarker_drop_unpackBytes (b : Byte) (rest : List Byte) {discard : Nat} (hpos : 0 < discard)
    (hle : discard ≤ 8) : withMarker ((unpackBytes (b :: rest)).drop discard) =
      zeros (discard - 1) ++ true :: (unpackBytes (b :: rest)).drop discard := by
  have hpad : paddingOf ((unpackBytes (b :: rest)).drop discard).length = discard := by
    rw [length_payload, List.length_cons, paddingOf_eq]
    omega
  rw [withMarker, hpad]

/-- PACK puts back the marker that UNPACK stripped, and marks a first byte without one (R113 b, c). -/
theorem withMarker_payload {b : Byte} {rest : List Byte} {discard : Nat} {nomark : Bool}
    (hrule : MarkerRule (b :: rest) discard nomark) : withMarker ((unpackBytes (b :: rest)).drop discard) =
      byteMsb (if b = 0x00 then 0x01 else b) ++ unpackBytes rest := by
  obtain ⟨h, -⟩ | ⟨_, _, p, h, hp, hone, hzero, rfl, -⟩ | ⟨_, h, rfl, -⟩ := hrule
  · simp at h
  · obtain ⟨rfl, rfl⟩ := List.cons.inj h
    have hfirst := (findIdx?_byteMsb_eq_some_iff b p).2 ⟨hp, hone, hzero⟩
    have hb : b ≠ 0 := fun h0 => by simp [(findIdx?_byteMsb_eq_none_iff b).2 h0] at hfirst
    have hdrop : (unpackBytes (b :: rest)).drop (p + 1) = (byteMsb b).drop (p + 1) ++ unpackBytes rest :=
      List.drop_append_of_le_length (by rw [length_byteMsb]; omega)
    calc withMarker ((unpackBytes (b :: rest)).drop (p + 1))
        = zeros p ++ true :: (unpackBytes (b :: rest)).drop (p + 1) :=
          withMarker_drop_unpackBytes b rest p.succ_pos hp
      _ = (zeros p ++ true :: (byteMsb b).drop (p + 1)) ++ unpackBytes rest := by
          rw [hdrop, List.append_assoc, List.cons_append]
      _ = byteMsb (if b = 0x00 then 0x01 else b) ++ unpackBytes rest := by
          rw [← eq_zeros_append_of_findIdx? hfirst, if_neg hb]
  · obtain ⟨rfl, rfl⟩ := List.cons.inj h
    -- The marker of a payload of whole bytes is the byte 0x01.
    exact withMarker_drop_unpackBytes 0 rest (by decide) le_rfl

/-- Settles O45: PACK packs `withMarker` of the payload, the first byte's bits and then the others. -/
theorem packAfterUnpackRestoresBytes : Obligations.PackAfterUnpackRestoresBytes := by
  intro s b rest discard nomark herr hbytes hrule hfit
  have hscan := markerScan_of_markerRule hrule
  refine ⟨_, _, exec_unpack_of_fits herr hscan hfit, exec_pack_clean herr rfl, herr, ?_⟩
  rw [hbytes] at hrule ⊢
  dsimp only
  rw [withMarker_payload hrule, packBytes_append (length_byteMsb _), msbByte_byteMsb, packBytes_unpackBytes]

end Sys2Proof.Machine
end

section
/-! The decode walk over codes (45_environment.md rule R127): the path to a leaf walks to that leaf and gives its
symbol, and the codes of a list of symbols give the list. -/

namespace Sys2Proof.Machine

theorem childOf_false {w : Word} (h : internalNode w = true) : childOf w false = some (leftField w) := by
  obtain ⟨-, -, hleft, -⟩ := internalNode_iff.1 h
  exact if_pos hleft

theorem childOf_true {w : Word} (h : internalNode w = true) : childOf w true = some (rightField w) := by
  obtain ⟨-, -, -, hright⟩ := internalNode_iff.1 h
  exact if_pos hright

section
variable {s : State} {root cur next : NodeIndex} {b : Bool} {rest : Bits}

/-- A move to a leaf gives its symbol, and the walk starts over. -/
theorem walkFrom_of_leaf_child {out : List Symbol} (hchild : childOf (s.tree.read cur.toNat) b = some next)
    (hleaf : leafNode (s.tree.read next.toNat) = true) (hrest : walkFrom s root root rest = .ok out) :
    walkFrom s root cur (b :: rest) = .ok (symbolField (s.tree.read next.toNat) :: out) := by
  obtain ⟨hpresent, hsym⟩ := leafNode_iff.1 hleaf
  simp [walkFrom, nodeAt_eq, hchild, hpresent, hsym, hrest]

/-- A move to an internal node goes on from there. -/
theorem walkFrom_of_internal_child (hchild : childOf (s.tree.read cur.toNat) b = some next)
    (hinternal : internalNode (s.tree.read next.toNat) = true) :
    walkFrom s root cur (b :: rest) = walkFrom s root next rest := by
  obtain ⟨hpresent, hsym, -⟩ := internalNode_iff.1 hinternal
  simp [walkFrom, nodeAt_eq, hchild, hpresent, hsym]

end

/-- A move to a node from which a path leads to a leaf goes along that path. -/
theorem walkFrom_of_child {s : State} {root cur next k : NodeIndex} {b : Bool} {p rest : Bits} {out : List Symbol}
    (hchild : childOf (s.tree.read cur.toNat) b = some next) (hreach : Reaches s.tree next p k)
    (hleaf : leafNode (s.tree.read k.toNat) = true) (hrest : walkFrom s root root rest = .ok out)
    (hbelow : internalNode (s.tree.read next.toNat) = true →
      walkFrom s root next (p ++ rest) = .ok (symbolField (s.tree.read k.toNat) :: out)) :
    walkFrom s root cur (b :: p ++ rest) = .ok (symbolField (s.tree.read k.toNat) :: out) := by
  obtain ⟨rfl, rfl⟩ | ⟨hinternal, -⟩ := reaches_cases hreach
  · exact walkFrom_of_leaf_child hchild hleaf hrest
  · exact (walkFrom_of_internal_child hchild hinternal).trans (hbelow hinternal)

/-- The path from an internal node to a leaf walks to that leaf. -/
theorem walkFrom_of_reaches {s : State} {root n k : NodeIndex} {p rest : Bits} {out : List Symbol}
    (hreach : Reaches s.tree n p k) (hn : internalNode (s.tree.read n.toNat) = true)
    (hleaf : leafNode (s.tree.read k.toNat) = true) (hrest : walkFrom s root root rest = .ok out) :
    walkFrom s root n (p ++ rest) = .ok (symbolField (s.tree.read k.toNat) :: out) := by
  induction hreach with
  | here n => simp [not_internal_of_leaf hleaf] at hn
  | left hi hr ih => exact walkFrom_of_child (childOf_false hi) hr hleaf hrest fun h => ih h hleaf
  | right hi hr ih => exact walkFrom_of_child (childOf_true hi) hr hleaf hrest fun h => ih h hleaf

/-- The walk from an internal root over the paths to leaves gives the leaves' symbols. -/
theorem decodeWalk_of_leafAt {s : State} {r : NodeIndex} {syms : List Symbol} {codes : List Bits}
    (hr : internalNode (s.tree.read r.toNat) = true)
    (hcodes : List.Forall₂ (fun sym code => LeafAt s.tree r code sym) syms codes) :
    decodeWalk s r codes.flatten = .ok syms := by
  obtain ⟨-, hsym, -⟩ := internalNode_iff.1 hr
  have hwalk : walkFrom s r r codes.flatten = .ok syms := by
    induction hcodes with
    | nil => exact if_pos rfl
    | cons hleafAt _ ih =>
      obtain ⟨k, hreach, hleaf, rfl⟩ := hleafAt
      exact walkFrom_of_reaches hreach hr hleaf ih
  rw [decodeWalk, nodeAt_eq, hsym]
  exact hwalk

/-- The root of a walked image is a leaf or an internal node. -/
theorem internalNode_of_walk_ok_root {m : Memory} {r : NodeIndex} {t : CodeTable}
    (h : walk m Config.maxLen r [] [] = .ok t) (hsym : hasSymbol (m.read r.toNat) = false) :
    internalNode (m.read r.toNat) = true := by
  obtain hleaf | ⟨hinternal, -⟩ := walk_ok_nodes h (.here r)
  · simp [(leafNode_iff.1 hleaf).2] at hsym
  · exact hinternal

/-- Settles O54: a valid code is the path to its symbol's leaf, `find_walk_iff`, and the walk goes along it. -/
theorem decodeWalkInvertsCodes : Obligations.DecodeWalkInvertsCodes := by
  intro s t r syms codes herr hexec hok hzlen hcodes
  cases hw : walk s.tree Config.maxLen r [] [] with
  | error f =>
    obtain rfl := Host.Outcome.next.inj ((exec_ctgen_of_walk_error (c := f.1) (info := f.2) herr hw).symm.trans hexec)
    have hcause := walk_error_cause (c := f.1) (info := f.2) hw
    rw [show f.1 = .noFault from hok] at hcause
    simp at hcause
  | ok table =>
    obtain rfl := Host.Outcome.next.inj ((exec_ctgen_of_walk_ok herr hw).symm.trans hexec)
    refine decodeWalk_of_leafAt (internalNode_of_walk_ok_root hw hzlen) ?_
    rw [← List.forall₂_eq_eq_eq, List.forall₂_map_left_iff, List.forall₂_map_right_iff] at hcodes
    exact hcodes.imp fun sym code hfind => (find_walk_iff hw sym code).1 hfind

end Sys2Proof.Machine
end

section
/-! The Sorted Leaf List (45_environment.md rules R120 to R122): the symbols of a source, the sort, and the two forms of
the list. -/

namespace Sys2Proof.Machine

/-! ### The symbols of a source -/

theorem mem_allSymbols (s : Symbol) : s ∈ allSymbols :=
  List.mem_map.2 ⟨s.toNat, List.mem_range.2 s.isLt, by simp⟩

theorem nodup_allSymbols : allSymbols.Nodup := by decide +kernel

theorem mem_distinctSymbols {src : List Symbol} {s : Symbol} : s ∈ distinctSymbols src ↔ s ∈ src := by
  simp [distinctSymbols, mem_allSymbols, List.count_eq_zero]

theorem nodup_distinctSymbols (src : List Symbol) : (distinctSymbols src).Nodup := nodup_allSymbols.filter _

/-! ### The sort -/

theorem leafBefore_iff {a b : LeafRecord} :
    leafBefore a b = true ↔ a.2 < b.2 ∨ (a.2 = b.2 ∧ a.1.toNat < b.1.toNat) := by
  simp [leafBefore]

theorem leafBefore_trans {a b c : LeafRecord} (hab : leafBefore a b = true) (hbc : leafBefore b c = true) :
    leafBefore a c = true := by
  rw [leafBefore_iff] at *
  omega

/-- Of two records of different symbols one comes before the other. -/
theorem leafBefore_total {a b : LeafRecord} (hne : a.1 ≠ b.1) (h : leafBefore a b ≠ true) : leafBefore b a = true := by
  have hsym : a.1.toNat ≠ b.1.toNat := BitVec.toNat_ne.1 hne
  rw [ne_eq, leafBefore_iff] at h
  rw [leafBefore_iff]
  omega

theorem insertLeaf_perm (x : LeafRecord) (ys : List LeafRecord) : (insertLeaf x ys).Perm (x :: ys) := by
  induction ys with
  | nil => exact .refl _
  | cons y ys ih =>
    rw [insertLeaf]
    split_ifs
    · exact .refl _
    · exact (ih.cons y).trans (.swap x y ys)

theorem sortLeaves_perm (records : List LeafRecord) : (sortLeaves records).Perm records := by
  induction records with
  | nil => exact .refl _
  | cons x xs ih => exact (insertLeaf_perm x _).trans (ih.cons x)

theorem insertLeaf_sorted {x : LeafRecord} {ys : List LeafRecord} (hys : ys.Pairwise (leafBefore · ·))
    (hx : ∀ y ∈ ys, x.1 ≠ y.1) : (insertLeaf x ys).Pairwise (leafBefore · ·) := by
  induction ys with
  | nil => exact List.pairwise_singleton _ _
  | cons y ys ih =>
    obtain ⟨hy, hys⟩ := List.pairwise_cons.1 hys
    obtain ⟨hxy, hx⟩ := List.forall_mem_cons.1 hx
    rw [insertLeaf]
    split_ifs with hbefore
    · refine List.pairwise_cons.2 ⟨List.forall_mem_cons.2 ⟨hbefore, fun z hz => ?_⟩, List.pairwise_cons.2 ⟨hy, hys⟩⟩
      exact leafBefore_trans hbefore (hy z hz)
    · refine List.pairwise_cons.2 ⟨fun z hz => ?_, ih hys hx⟩
      obtain rfl | hz := List.mem_cons.1 ((insertLeaf_perm x ys).mem_iff.1 hz)
      · exact leafBefore_total hxy hbefore
      · exact hy z hz

/-- Records of different symbols are sorted strictly. -/
theorem sortLeaves_sorted {records : List LeafRecord} (h : (records.map Prod.fst).Nodup) :
    (sortLeaves records).Pairwise (leafBefore · ·) := by
  induction records with
  | nil => exact .nil
  | cons x xs ih =>
    obtain ⟨hx, hxs⟩ := List.nodup_cons.1 h
    refine insertLeaf_sorted (ih hxs) fun y hy hxy => hx ?_
    exact hxy ▸ List.mem_map_of_mem ((sortLeaves_perm xs).mem_iff.1 hy)

/-! ### The list -/

/-- The records before they are sorted, one per symbol. -/
def countedSymbols (src : List Symbol) : List LeafRecord := (distinctSymbols src).map fun s => (s, src.count s)

theorem map_fst_countedSymbols (src : List Symbol) : (countedSymbols src).map Prod.fst = distinctSymbols src :=
  (List.map_map ..).trans (List.map_id _)

theorem mem_countedSymbols {src : List Symbol} {s : Symbol} {w : Nat} :
    (s, w) ∈ countedSymbols src ↔ s ∈ src ∧ w = src.count s := by
  simp [countedSymbols, mem_distinctSymbols, eq_comm]

/-- Unless there is just one symbol, the list is the records in order (R121). -/
theorem sortedLeafList_of_ne_singleton {src : List Symbol} (h : ∀ c, distinctSymbols src ≠ [c]) :
    sortedLeafList src = sortLeaves (countedSymbols src) := by
  unfold sortedLeafList
  split
  next c hc => exact absurd hc (h c)
  · rfl

theorem distinctSymbols_ne_singleton {src : List Symbol} {a b : Symbol} (ha : a ∈ src) (hb : b ∈ src) (hne : a ≠ b)
    (c : Symbol) : distinctSymbols src ≠ [c] := by
  intro hc
  have hone {x : Symbol} (hx : x ∈ src) : x = c := List.mem_singleton.1 (hc ▸ mem_distinctSymbols.2 hx)
  exact hne ((hone ha).trans (hone hb).symm)

/-- Settles O55, from `sortLeaves_perm` and `sortLeaves_sorted`. -/
theorem leafListIsSortedAndComplete : Obligations.LeafListIsSortedAndComplete := by
  rintro src ⟨a, ha, b, hb, hne⟩
  rw [sortedLeafList_of_ne_singleton (distinctSymbols_ne_singleton ha hb hne)]
  refine ⟨fun sym w => (sortLeaves_perm _).mem_iff.trans mem_countedSymbols, ?_⟩
  have hnodup : ((countedSymbols src).map Prod.fst).Nodup := map_fst_countedSymbols src ▸ nodup_distinctSymbols src
  exact (sortLeaves_sorted hnodup).imp leafBefore_iff.1

theorem distinctSymbols_replicate (c : Symbol) {k : Nat} (hk : 1 ≤ k) :
    distinctSymbols (List.replicate k c) = [c] := by
  rw [← List.perm_singleton, List.perm_ext_iff_of_nodup (nodup_distinctSymbols _) (List.nodup_singleton c)]
  intro s
  rw [mem_distinctSymbols, List.mem_replicate, List.mem_singleton]
  exact and_iff_right (by omega)

/-- With one distinct symbol the list is its record and the synthetic one (R122). -/
theorem sortedLeafList_of_one {src : List Symbol} {c : Symbol} (h : distinctSymbols src = [c]) :
    sortedLeafList src = [(c, src.length), (c + 1, 0)] := by
  rw [sortedLeafList, h]

/-- Settles O56: the synthetic symbol is the next one in seven bits. -/
theorem singletonListHasSyntheticLeaf : Obligations.SingletonListHasSyntheticLeaf := by
  intro c k hk
  refine ⟨c + 1, ?_, BitVec.toNat_add c 1⟩
  rw [sortedLeafList_of_one (distinctSymbols_replicate c hk), List.length_replicate]

end Sys2Proof.Machine
end

section
/-! The two queues of the tree builder, and one selection from them (45_environment.md rule R124). The trees in the
queues are told by the places of their roots: with `c` the places selected so far, `S` holds the leaves from place
`leafFront m c` on and `T` the nodes from place `nodeFront m c` on. -/

namespace Sys2Proof.Machine

/-- Weight and place of a queued tree's root. -/
def rootOf (q : Queued) : Nat × Nat := (q.1, treePlace q.2)

/-- The place at the front of `S`: as many leaves have been selected. -/
def leafFront (m : Nat) (c : List Nat) : Nat := c.countP (· < m)

/-- The place at the front of `T`: the other selections were nodes. -/
def nodeFront (m : Nat) (c : List Nat) : Nat := m + (c.length - leafFront m c)

/-- The place that `Select` takes next, by the rule of `SelectionOrder`. -/
def nextPlace (m : Nat) (wt : Nat → Nat) (c : List Nat) : Nat :=
  if leafFront m c < m ∧ (m + c.length / 2 ≤ nodeFront m c ∨ wt (leafFront m c) ≤ wt (nodeFront m c)) then
    leafFront m c
  else nodeFront m c

/-- `wt` gives the trees built so far their weights `ws`, listed by place. -/
def WeightsOf (ws : List Nat) (wt : Nat → Nat) : Prop := ∀ i w, ws[i]? = some w → wt i = w

/-- The queues hold the trees not selected, in the order of their places. -/
structure QueuesAt (m : Nat) (ws c : List Nat) (ss ts : List Queued) : Prop where
  leaves : ss.map rootOf = (ws.zipIdx.take m).drop (leafFront m c)
  nodes : ts.map rootOf = ws.zipIdx.drop (nodeFront m c)
  leafFront_le : leafFront m c ≤ m
  nodeFront_le : nodeFront m c ≤ ws.length

/-- `q` is the tree selected next, and `ss'` and `ts'` the queues without it. -/
structure SelectsNext (m : Nat) (ws c : List Nat) (ss ts : List Queued) (q : Queued) (ss' ts' : List Queued) :
    Prop where
  queues : QueuesAt m ws (c ++ [treePlace q.2]) ss' ts'
  weight : ws[treePlace q.2]? = some q.1
  place : ∀ wt, WeightsOf ws wt → treePlace q.2 = nextPlace m wt c
  perm : (ss ++ ts).Perm (q :: (ss' ++ ts'))

/-! ### The fronts -/

theorem leafFront_le_length (m : Nat) (c : List Nat) : leafFront m c ≤ c.length := List.countP_le_length

theorem leafFront_append_leaf {m x : Nat} (c : List Nat) (h : x < m) : leafFront m (c ++ [x]) = leafFront m c + 1 := by
  simp [leafFront, List.countP_append, h]

theorem leafFront_append_node {m x : Nat} (c : List Nat) (h : m ≤ x) : leafFront m (c ++ [x]) = leafFront m c := by
  simp [leafFront, List.countP_append, h]

theorem nodeFront_append_leaf {m x : Nat} (c : List Nat) (h : x < m) : nodeFront m (c ++ [x]) = nodeFront m c := by
  simp only [nodeFront, leafFront_append_leaf c h, List.length_append, List.length_singleton]
  omega

theorem nodeFront_append_node {m x : Nat} (c : List Nat) (h : m ≤ x) :
    nodeFront m (c ++ [x]) = nodeFront m c + 1 := by
  have hle := leafFront_le_length m c
  simp only [nodeFront, leafFront_append_node c h, List.length_append, List.length_singleton]
  omega

theorem le_nodeFront (m : Nat) (c : List Nat) : m ≤ nodeFront m c := Nat.le_add_right _ _

/-- The first of a list that is mapped to the end of `l`, and the others. -/
theorem front_of_map_eq_drop {α β : Type} {f : α → β} {x : α} {xs : List α} {l : List β} {n : Nat}
    (h : (x :: xs).map f = l.drop n) : l[n]? = some (f x) ∧ xs.map f = l.drop (n + 1) := by
  constructor
  · rw [← List.head?_drop, ← h]
    rfl
  · rw [← List.tail_drop, ← h]
    rfl

theorem length_le_of_map_eq_drop {α β : Type} {f : α → β} {l : List β} {n : Nat} (h : [].map f = l.drop n) :
    l.length ≤ n := List.drop_eq_nil_iff.1 h.symm

/-- The entries of a numbered list. -/
theorem getElem?_zipIdx_eq_rootOf {ws : List Nat} {i : Nat} {q : Queued} (h : ws.zipIdx[i]? = some (rootOf q)) :
    treePlace q.2 = i ∧ ws[i]? = some q.1 := by
  rw [List.getElem?_zipIdx, Option.map_eq_some_iff] at h
  obtain ⟨w, hw, hq⟩ := h
  obtain ⟨rfl, hplace⟩ := Prod.mk.inj hq
  exact ⟨by omega, hw⟩

section
variable {m : Nat} {ws c : List Nat} {ss ts : List Queued} {q : Queued}

theorem QueuesAt.leafFront_of_nil (h : QueuesAt m ws c [] ts) : leafFront m c = m := by
  have hlen := length_le_of_map_eq_drop h.leaves
  have hm := (le_nodeFront m c).trans h.nodeFront_le
  rw [List.length_take, List.length_zipIdx, Nat.min_eq_left hm] at hlen
  exact le_antisymm h.leafFront_le hlen

theorem QueuesAt.nodeFront_of_nil (h : QueuesAt m ws c ss []) : nodeFront m c = ws.length := by
  have hlen := length_le_of_map_eq_drop h.nodes
  rw [List.length_zipIdx] at hlen
  exact le_antisymm h.nodeFront_le hlen

theorem QueuesAt.leaf_front (h : QueuesAt m ws c (q :: ss) ts) :
    leafFront m c < m ∧ treePlace q.2 = leafFront m c ∧ ws[leafFront m c]? = some q.1 := by
  obtain ⟨hfront, -⟩ := front_of_map_eq_drop h.leaves
  rw [List.getElem?_take] at hfront
  split_ifs at hfront with hlt
  exact ⟨hlt, getElem?_zipIdx_eq_rootOf hfront⟩

theorem QueuesAt.node_front (h : QueuesAt m ws c ss (q :: ts)) :
    treePlace q.2 = nodeFront m c ∧ ws[nodeFront m c]? = some q.1 :=
  getElem?_zipIdx_eq_rootOf (front_of_map_eq_drop h.nodes).1

/-- Of the trees built so far, the queues hold those not selected. -/
theorem QueuesAt.length_add (h : QueuesAt m ws c ss ts) : ss.length + ts.length + c.length = ws.length := by
  have hleaves := congrArg List.length h.leaves
  have hnodes := congrArg List.length h.nodes
  simp only [List.length_map, List.length_drop, List.length_take, List.length_zipIdx] at hleaves hnodes
  have hle := leafFront_le_length m c
  have hleaf := h.leafFront_le
  have hnode := h.nodeFront_le
  unfold nodeFront at hnode hnodes
  omega

/-! ### One selection -/

/-- The front leaf is taken where the rule says so. -/
theorem QueuesAt.selectsNext_leaf (h : QueuesAt m ws c (q :: ss) ts) (hrule : ∀ wt, WeightsOf ws wt →
    m + c.length / 2 ≤ nodeFront m c ∨ wt (leafFront m c) ≤ wt (nodeFront m c)) :
    SelectsNext m ws c (q :: ss) ts q ss ts := by
  obtain ⟨hlt, hplace, hweight⟩ := h.leaf_front
  have hlt' : treePlace q.2 < m := hplace ▸ hlt
  refine ⟨⟨?_, ?_, ?_, ?_⟩, hplace ▸ hweight, fun wt hwt => ?_, .refl _⟩
  · rw [leafFront_append_leaf c hlt']
    exact (front_of_map_eq_drop h.leaves).2
  · rw [nodeFront_append_leaf c hlt']
    exact h.nodes
  · rw [leafFront_append_leaf c hlt']
    exact hlt
  · rw [nodeFront_append_leaf c hlt']
    exact h.nodeFront_le
  · rw [nextPlace, if_pos ⟨hlt, hrule wt hwt⟩, hplace]

/-- The front node is taken where the rule says so. -/
theorem QueuesAt.selectsNext_node (h : QueuesAt m ws c ss (q :: ts)) (hrule : ∀ wt, WeightsOf ws wt →
    ¬(leafFront m c < m ∧ (m + c.length / 2 ≤ nodeFront m c ∨ wt (leafFront m c) ≤ wt (nodeFront m c)))) :
    SelectsNext m ws c ss (q :: ts) q ss ts := by
  obtain ⟨hplace, hweight⟩ := h.node_front
  have hle : m ≤ treePlace q.2 := hplace ▸ le_nodeFront m c
  obtain ⟨hlt, -⟩ := List.getElem?_eq_some_iff.1 hweight
  refine ⟨⟨?_, ?_, ?_, ?_⟩, hplace ▸ hweight, fun wt hwt => ?_, List.perm_middle⟩
  · rw [leafFront_append_node c hle]
    exact h.leaves
  · rw [nodeFront_append_node c hle]
    exact (front_of_map_eq_drop h.nodes).2
  · rw [leafFront_append_node c hle]
    exact h.leafFront_le
  · rw [nodeFront_append_node c hle]
    exact hlt
  · rw [nextPlace, if_neg (hrule wt hwt), hplace]

/-- While a tree is left, `Select` takes the next one. -/
theorem QueuesAt.select (h : QueuesAt m ws c ss ts) (hlen : ws.length = m + c.length / 2)
    (hleft : c.length < ws.length) : ∃ q ss' ts', select ss ts = some (q, ss', ts') ∧
      SelectsNext m ws c ss ts q ss' ts' := by
  match ss, ts with
  | [], [] =>
    have hleaf := h.leafFront_of_nil
    have hnode := h.nodeFront_of_nil
    have hle := leafFront_le_length m c
    unfold nodeFront at hnode
    omega
  | s :: ss, [] =>
    refine ⟨s, ss, [], rfl, h.selectsNext_leaf fun _ _ => .inl ?_⟩
    rw [h.nodeFront_of_nil, hlen]
  | [], t :: ts =>
    refine ⟨t, [], ts, rfl, h.selectsNext_node fun _ _ hrule => ?_⟩
    exact absurd h.leafFront_of_nil hrule.1.ne
  | s :: ss, t :: ts =>
    obtain ⟨-, -, hs⟩ := h.leaf_front
    obtain ⟨-, ht⟩ := h.node_front
    obtain ⟨hqueued, -⟩ := List.getElem?_eq_some_iff.1 ht
    by_cases hle : s.1 ≤ t.1
    · refine ⟨s, ss, t :: ts, if_pos hle, h.selectsNext_leaf fun wt hwt => .inr ?_⟩
      rwa [hwt _ _ hs, hwt _ _ ht]
    · refine ⟨t, s :: ss, ts, if_neg hle, h.selectsNext_node fun wt hwt hrule => ?_⟩
      rw [hwt _ _ hs, hwt _ _ ht] at hrule
      omega

/-- The new node goes to the end of `T`, its place the next one free. -/
theorem QueuesAt.enqueue (h : QueuesAt m ws c ss ts) (hplace : treePlace q.2 = ws.length) :
    QueuesAt m (ws ++ [q.1]) c ss (ts ++ [q]) := by
  have hnode : nodeFront m c ≤ ws.zipIdx.length := h.nodeFront_le.trans_eq List.length_zipIdx.symm
  have hzip : (ws ++ [q.1]).zipIdx = ws.zipIdx ++ [rootOf q] := by
    rw [List.zipIdx_append, rootOf, hplace, Nat.zero_add]
    rfl
  refine ⟨?_, ?_, h.leafFront_le, ?_⟩
  · rw [hzip, List.take_append_of_le_length ((le_nodeFront m c).trans hnode)]
    exact h.leaves
  · rw [hzip, List.drop_append_of_le_length hnode, List.map_append, h.nodes]
    rfl
  · exact h.nodeFront_le.trans (by simp)

end

end Sys2Proof.Machine
end

section
/-! The passes of the tree builder (45_environment.md rules R124, R125): what holds of the queues after each pass, and
of the tree left after the last. -/

namespace Sys2Proof.Machine

/-- The words of the leaves, record `i` at place `i` (R125). -/
def leafImages (records : List LeafRecord) : List (Nat × Word) :=
  records.zipIdx.map fun p => (p.2, leafWord p.1.1)

/-- The word of the node of pass `k`, its children the two trees selected in that pass (R125). -/
def nodeImage (m : Nat) (c : List Nat) (k : Nat) : Nat × Word :=
  (m + k, internalWord (BitVec.ofNat 8 (c.getD (2 * k) 0)) (BitVec.ofNat 8 (c.getD (2 * k + 1) 0)))

/-- Every selection in `c` is `Select`'s (R124). -/
def FollowsSelect (m : Nat) (wt : Nat → Nat) (c : List Nat) : Prop :=
  ∀ j < c.length, c.getD j 0 = nextPlace m wt (c.take j)

/-- What holds after `k` passes: `c` lists the places selected, `ws` the weights of the trees by place. -/
structure Building (records : List LeafRecord) (k : Nat) (ws c : List Nat) (ss ts : List Queued) : Prop where
  queues : QueuesAt records.length ws c ss ts
  length_weights : ws.length = records.length + k
  length_selections : c.length = 2 * k
  leaf_weights : ∀ (i : Nat) (r : LeafRecord), records[i]? = some r → ws[i]? = some r.2
  node_weights : ∀ wt, WeightsOf ws wt → ∀ i < k,
    wt (records.length + i) = wt (c.getD (2 * i) 0) + wt (c.getD (2 * i + 1) 0)
  order : ∀ wt, WeightsOf ws wt → FollowsSelect records.length wt c
  symbols : ((ss ++ ts).flatMap fun q => treeLeaves q.2).Perm (records.map Prod.fst)
  image : ((ss ++ ts).flatMap fun q => treeImage q.2).Perm
    (leafImages records ++ (List.range k).map (nodeImage records.length c))

/-! ### Weights and selections that are added -/

theorem WeightsOf.of_append {ws ws' : List Nat} {wt : Nat → Nat} (h : WeightsOf (ws ++ ws') wt) : WeightsOf ws wt :=
  fun i w hw => h i w ((List.getElem?_append_left (List.getElem?_eq_some_iff.1 hw).1).trans hw)

theorem WeightsOf.last {ws : List Nat} {w : Nat} {wt : Nat → Nat} (h : WeightsOf (ws ++ [w]) wt) :
    wt ws.length = w := h _ _ List.getElem?_concat_length

theorem FollowsSelect.append {m : Nat} {wt : Nat → Nat} {c : List Nat} {x : Nat} (h : FollowsSelect m wt c)
    (hx : x = nextPlace m wt c) : FollowsSelect m wt (c ++ [x]) := by
  intro j hj
  obtain hlt | rfl : j < c.length ∨ j = c.length := by
    rw [List.length_append, List.length_singleton] at hj
    omega
  · rw [List.getD_append _ _ _ _ hlt, List.take_append_of_le_length hlt.le]
    exact h j hlt
  · rw [List.getD_append_right _ _ _ _ le_rfl, List.take_left' rfl, Nat.sub_self]
    exact hx

/-- The selections of a pass come after those of the passes before. -/
theorem nodeImage_append {m k : Nat} {c : List Nat} (hk : 2 * k + 1 < c.length) (c' : List Nat) :
    nodeImage m (c ++ c') k = nodeImage m c k := by
  rw [nodeImage, nodeImage, List.getD_append _ _ _ _ hk, List.getD_append _ _ _ _ (by omega)]

theorem getD_last_two {k x y : Nat} {c : List Nat} (hk : c.length = 2 * k) :
    (c ++ [x, y]).getD (2 * k) 0 = x ∧ (c ++ [x, y]).getD (2 * k + 1) 0 = y := by
  rw [List.getD_append_right _ _ _ _ hk.le, List.getD_append_right _ _ _ _ (by omega), hk, Nat.sub_self,
    Nat.add_sub_cancel_left]
  exact ⟨rfl, rfl⟩

theorem map_nodeImage_append {m k x y : Nat} {c : List Nat} (hk : c.length = 2 * k) :
    (List.range (k + 1)).map (nodeImage m (c ++ [x, y])) = (List.range k).map (nodeImage m c) ++
      [(m + k, internalWord (BitVec.ofNat 8 x) (BitVec.ofNat 8 y))] := by
  rw [List.range_succ, List.map_append, List.map_singleton, nodeImage, (getD_last_two hk).1, (getD_last_two hk).2]
  refine congrArg (· ++ _) (List.map_congr_left fun i hi => nodeImage_append ?_ _)
  have hi := List.mem_range.1 hi
  omega

/-! ### The start -/

theorem flatMap_leafQueue {α : Type} {f : HTree → List α} {g : LeafRecord × Nat → α}
    (h : ∀ p, f (.leaf p.2 p.1.1) = [g p]) (records : List LeafRecord) :
    ((leafQueue records ++ []).flatMap fun q : Queued => f q.2) = records.zipIdx.map g := by
  rw [List.append_nil, leafQueue, List.flatMap_map, List.map_eq_flatMap]
  exact List.flatMap_congr fun p _ => h p

theorem building_start (records : List LeafRecord) :
    Building records 0 (records.map Prod.snd) [] (leafQueue records) [] := by
  have hlen : (records.map Prod.snd).length = records.length := List.length_map _
  refine ⟨⟨?_, ?_, Nat.zero_le _, hlen.ge⟩, hlen, rfl, fun i r hr => by simp [hr], fun _ _ i hi => by omega,
    fun _ _ j hj => by simp at hj, ?_, ?_⟩
  · rw [List.take_of_length_le (by simp), leafQueue, List.zipIdx_map, List.map_map]
    rfl
  · exact (List.drop_eq_nil_of_le (by rw [List.length_zipIdx, hlen]; rfl)).symm
  · rw [flatMap_leafQueue (f := treeLeaves) (g := Prod.fst ∘ Prod.fst) fun _ => rfl, ← List.map_map,
      List.zipIdx_map_fst]
  · rw [flatMap_leafQueue (f := treeImage) (g := fun p => (p.2, leafWord p.1.1)) fun _ => rfl]
    exact .of_eq (List.append_nil _).symm

/-! ### One pass -/

/-- What is listed of the trees, after two of them are joined under a node. -/
theorem flatMap_join {α : Type} {f : HTree → List α} {first second q : Queued} {us ss ts : List Queued} {new : List α}
    (hus : us.Perm (first :: second :: (ss ++ ts))) (hq : f q.2 = f first.2 ++ f second.2 ++ new) :
    ((ss ++ (ts ++ [q])).flatMap fun q => f q.2).Perm ((us.flatMap fun q => f q.2) ++ new) := by
  have hsplit : ((ss ++ (ts ++ [q])).flatMap fun q => f q.2) =
      ((ss ++ ts).flatMap fun q => f q.2) ++ (f first.2 ++ f second.2) ++ new := by simp [hq]
  have hflat := hus.flatMap_right fun q => f q.2
  rw [List.flatMap_cons, List.flatMap_cons, ← List.append_assoc (f first.2)] at hflat
  rw [hsplit]
  exact (List.perm_append_comm.trans hflat.symm).append_right new

section
variable {records : List LeafRecord} {k : Nat} {ws c : List Nat} {ss ts : List Queued}

/-- Joining the next two trees is one more pass. -/
theorem Building.join {ss1 ts1 ss2 ts2 : List Queued} {first second : Queued} (h : Building records k ws c ss ts)
    (h1 : SelectsNext records.length ws c ss ts first ss1 ts1)
    (h2 : SelectsNext records.length ws (c ++ [treePlace first.2]) ss1 ts1 second ss2 ts2) :
    Building records (k + 1) (ws ++ [first.1 + second.1]) (c ++ [treePlace first.2, treePlace second.2]) ss2
      (ts2 ++ [(first.1 + second.1, .node (records.length + k) first.2 second.2)]) := by
  have hc : c ++ [treePlace first.2, treePlace second.2] = c ++ [treePlace first.2] ++ [treePlace second.2] := by simp
  have hperm : (ss ++ ts).Perm (first :: second :: (ss2 ++ ts2)) := h1.perm.trans (h2.perm.cons first)
  refine ⟨?_, ?_, ?_, fun i r hr => ?_, fun wt hwt i hi => ?_, fun wt hwt => ?_, ?_, ?_⟩
  · rw [hc]
    exact h2.queues.enqueue (q := (_, .node _ _ _)) h.length_weights.symm
  · rw [List.length_append, h.length_weights]
    rfl
  · rw [List.length_append, h.length_selections]
    rfl
  · exact List.getElem?_append_left (List.getElem?_eq_some_iff.1 (h.leaf_weights i r hr)).1 ▸ h.leaf_weights i r hr
  · obtain hlt | rfl : i < k ∨ i = k := by omega
    · rw [List.getD_append _ _ _ _ (by rw [h.length_selections]; omega),
        List.getD_append _ _ _ _ (by rw [h.length_selections]; omega)]
      exact h.node_weights wt hwt.of_append i hlt
    · have hnode := hwt.last
      rw [h.length_weights] at hnode
      rw [hnode, (getD_last_two h.length_selections).1, (getD_last_two h.length_selections).2,
        hwt.of_append _ _ h1.weight, hwt.of_append _ _ h2.weight]
  · rw [hc]
    exact ((h.order wt hwt.of_append).append (h1.place wt hwt.of_append)).append (h2.place wt hwt.of_append)
  · refine (flatMap_join (f := treeLeaves) (q := (_, .node _ _ _)) (new := []) hperm ?_).trans ?_
    · exact (List.append_nil _).symm
    · rw [List.append_nil]
      exact h.symbols
  · rw [map_nodeImage_append h.length_selections, ← List.append_assoc (leafImages records)]
    exact (flatMap_join (f := treeImage) (q := (_, .node _ _ _)) hperm rfl).trans (h.image.append_right _)

/-- While two trees are left, a pass joins them. -/
theorem Building.mergePass (h : Building records k ws c ss ts) (hk : k + 1 < records.length) :
    ∃ ss' ts' ws' c', mergePass (records.length + k) ss ts = some (ss', ts') ∧ ts' ≠ [] ∧
      Building records (k + 1) ws' c' ss' ts' := by
  have hws := h.length_weights
  have hc := h.length_selections
  obtain ⟨first, ss1, ts1, hsel1, h1⟩ := h.queues.select (by omega) (by omega)
  obtain ⟨second, ss2, ts2, hsel2, h2⟩ := h1.queues.select (by simp; omega) (by simp; omega)
  exact ⟨_, _, _, _, by simp only [Machine.mergePass, hsel1, hsel2], by simp, h.join h1 h2⟩

/-- After the last pass one tree is left, in `T`. -/
theorem Building.last (h : Building records k ws c ss ts) (hk : k + 1 = records.length) (hts : ts ≠ []) :
    ∃ q, ss = [] ∧ ts = [q] ∧ treePlace q.2 = 2 * records.length - 2 := by
  have hsum := h.queues.length_add
  have hpos := List.length_pos_of_ne_nil hts
  have hws := h.length_weights
  have hc := h.length_selections
  obtain rfl : ss = [] := List.length_eq_zero_iff.1 (by omega)
  obtain ⟨q, rfl⟩ : ∃ q, ts = [q] := List.length_eq_one_iff.1 (by omega)
  have hplace := h.queues.node_front.1
  have hleaf := h.queues.leafFront_of_nil
  have hle := leafFront_le_length records.length c
  unfold nodeFront at hplace
  exact ⟨q, rfl, rfl, by omega⟩

/-- The passes that are left, and the tree they end with. -/
theorem Building.mergeAll {r : Nat} (h : Building records k ws c ss ts) (hr : k + r + 1 = records.length)
    (hts : r = 0 → ts ≠ []) : ∃ q ws' c', mergeAll r (records.length + k) ss ts = some q.2 ∧
      treePlace q.2 = 2 * records.length - 2 ∧ Building records (records.length - 1) ws' c' [] [q] := by
  induction r generalizing k ws c ss ts with
  | zero =>
    obtain ⟨q, rfl, rfl, hplace⟩ := h.last hr (hts rfl)
    obtain rfl : k = records.length - 1 := by omega
    exact ⟨q, ws, c, rfl, hplace, h⟩
  | succ r ih =>
    obtain ⟨ss', ts', ws', c', hpass, hts', h'⟩ := h.mergePass (by omega)
    simp only [Machine.mergeAll, hpass]
    exact ih h' (by omega) fun _ => hts'

end

/-! ### The whole builder -/

/-- The builder's tree is what `records.length - 1` passes leave. -/
theorem buildTree_spec {records : List LeafRecord} (h : 2 ≤ records.length) :
    ∃ q ws c, buildTree records = some q.2 ∧ treePlace q.2 = 2 * records.length - 2 ∧
      Building records (records.length - 1) ws c [] [q] := by
  rw [buildTree, if_neg (by omega)]
  exact (building_start records).mergeAll (by omega) fun h => by omega

theorem places_image (records : List LeafRecord) (c : List Nat) :
    (leafImages records ++ (List.range (records.length - 1)).map (nodeImage records.length c)).map Prod.fst =
      List.range (records.length + (records.length - 1)) := by
  rw [List.range_add, List.map_append, leafImages, List.map_map, List.map_map]
  exact congrArg (· ++ _) ((List.zipIdx_map_snd 0 records).trans List.range_eq_range'.symm)

/-- Settles O57, from what holds after the last pass. -/
theorem builderPlacesEveryRecord : Obligations.BuilderPlacesEveryRecord := by
  intro records hm
  obtain ⟨q, ws, c, hbuild, hplace, h⟩ := buildTree_spec hm
  have hwt : WeightsOf ws fun i => ws.getD i 0 := fun i w hw => by simp [List.getD_eq_getElem?_getD, hw]
  have hsymbols := h.symbols
  have himage := h.image
  rw [List.nil_append, List.flatMap_singleton] at hsymbols himage
  refine ⟨q.2, _, c, hbuild, hsymbols, hplace, ?_, ⟨?_, ?_, h.node_weights _ hwt, ?_⟩, fun i sym w hr => ?_,
    fun k hk => ?_⟩
  · exact (himage.map _).trans (.of_eq (by rw [places_image]; congr 1; omega))
  · rw [h.length_selections]; omega
  · exact fun i sym w hr => hwt _ _ (h.leaf_weights i _ hr)
  · intro j hj a b ha hb
    have hlen : (c.take j).length = j := List.length_take_of_le hj.le
    have hfront : a = leafFront records.length (c.take j) := ha
    have hnode : b = nodeFront records.length (c.take j) := by rw [nodeFront, hlen, ← hfront, hb]
    rw [h.order _ hwt j hj, nextPlace, ← hfront, ← hnode, hlen]
  · refine himage.mem_iff.2 (List.mem_append_left _ ?_)
    exact List.mem_map.2 ⟨((sym, w), i), List.mem_zipIdx_iff_getElem?.2 hr, rfl⟩
  · exact himage.mem_iff.2 (List.mem_append_right _ (List.mem_map_of_mem (List.mem_range.2 hk)))

end Sys2Proof.Machine
end

section
/-! The tree of a source (45_environment.md rules R121 to R125): its leaves are the source's symbols and perhaps a
synthetic one, each once, and its nodes fill the places from 0 on. -/

namespace Sys2Proof.Machine

/-- The symbols of the list: those of the source, or its one symbol and the next. -/
theorem map_fst_sortedLeafList (src : List Symbol) :
    (∃ c, distinctSymbols src = [c] ∧ (sortedLeafList src).map Prod.fst = [c, c + 1]) ∨
    (∀ c, distinctSymbols src ≠ [c]) ∧ ((sortedLeafList src).map Prod.fst).Perm (distinctSymbols src) := by
  by_cases h : ∃ c, distinctSymbols src = [c]
  · obtain ⟨c, hc⟩ := h
    refine .inl ⟨c, hc, ?_⟩
    rw [sortedLeafList_of_one hc]
    rfl
  · rw [not_exists] at h
    refine .inr ⟨h, ?_⟩
    rw [sortedLeafList_of_ne_singleton h, ← map_fst_countedSymbols]
    exact (sortLeaves_perm _).map _

theorem nodup_symbols_sortedLeafList (src : List Symbol) : ((sortedLeafList src).map Prod.fst).Nodup := by
  obtain ⟨c, -, hlist⟩ | ⟨-, hperm⟩ := map_fst_sortedLeafList src
  · rw [hlist]
    simp
  · exact hperm.nodup_iff.2 (nodup_distinctSymbols src)

theorem mem_symbols_sortedLeafList {src : List Symbol} {s : Symbol} (hs : s ∈ src) :
    s ∈ (sortedLeafList src).map Prod.fst := by
  have hdistinct := mem_distinctSymbols.2 hs
  obtain ⟨c, hc, hlist⟩ | ⟨-, hperm⟩ := map_fst_sortedLeafList src
  · rw [hlist, ← List.singleton_append, ← hc]
    exact List.mem_append_left _ hdistinct
  · exact hperm.mem_iff.2 hdistinct

theorem two_le_length_sortedLeafList {src : List Symbol} (h : src ≠ []) : 2 ≤ (sortedLeafList src).length := by
  rw [← List.length_map (f := Prod.fst)]
  obtain ⟨c, -, hlist⟩ | ⟨hmany, hperm⟩ := map_fst_sortedLeafList src
  · rw [hlist]
    rfl
  · obtain ⟨s, hs⟩ := List.exists_mem_of_ne_nil src h
    have hpos := List.length_pos_of_mem (mem_distinctSymbols.2 hs)
    have hone : (distinctSymbols src).length ≠ 1 := fun h1 => by
      obtain ⟨c, hc⟩ := List.length_eq_one_iff.1 h1
      exact hmany c hc
    rw [hperm.length_eq]
    omega

/-- There are 128 symbols. -/
theorem length_le_of_nodup {syms : List Symbol} (h : syms.Nodup) : syms.length ≤ 128 :=
  (h.subperm fun s _ => mem_allSymbols s).length_le

/-! ### The builder's tree -/

/-- What the loading and the walks need of a tree of the builder. -/
structure BuiltTree (t : HTree) : Prop where
  nodup_symbols : (treeLeaves t).Nodup
  two_le_leaves : 2 ≤ (treeLeaves t).length
  places : ((treeImage t).map Prod.fst).Perm (List.range (treeImage t).length)
  image_le : (treeImage t).length ≤ 255

/-- A source that is not empty has a tree, and all its symbols stand on leaves. -/
theorem treeOfSource_spec {src : List Symbol} (h : src ≠ []) :
    ∃ t, treeOfSource src = .ok t ∧ BuiltTree t ∧ ∀ s ∈ src, s ∈ treeLeaves t := by
  have htwo := two_le_length_sortedLeafList h
  obtain ⟨t, -, -, hbuild, hsymbols, -, hplaces, -⟩ := builderPlacesEveryRecord _ htwo
  have hnodup := hsymbols.nodup_iff.2 (nodup_symbols_sortedLeafList src)
  have hleaves : (treeLeaves t).length = (sortedLeafList src).length := by rw [hsymbols.length_eq, List.length_map]
  have himage : (treeImage t).length = 2 * (sortedLeafList src).length - 1 := by
    rw [← List.length_map (f := Prod.fst), hplaces.length_eq, List.length_range]
  have hle := length_le_of_nodup hnodup
  refine ⟨t, ?_, ⟨hnodup, by omega, himage ▸ hplaces, by omega⟩, fun s hs => ?_⟩
  · rw [treeOfSource, if_neg (by simpa using h), hbuild]
  · exact hsymbols.mem_iff.2 (mem_symbols_sortedLeafList hs)

end Sys2Proof.Machine
end

section
/-! A tree of the builder in TREE (45_environment.md rule R125, 41_codetable.md rules R91, R96): CTGEN's walk succeeds,
and the code of a symbol is the path to its leaf. -/

namespace Sys2Proof.Machine

/-- The node at which a tree's root stands. -/
def rootIndex (t : HTree) : NodeIndex := BitVec.ofNat 8 (treePlace t)

/-- Every node of the tree stands in the image at its place. -/
def HoldsTree (m : Memory) (t : HTree) : Prop := ∀ c ∈ treeImage t, c.1 < 256 ∧ m.read c.1 = c.2

theorem map_fst_leafPaths (t : HTree) : (leafPaths t).map Prod.fst = treeLeaves t := by
  induction t with
  | leaf => rfl
  | node p l r ihl ihr =>
    rw [leafPaths, treeLeaves, List.map_append, List.map_map, List.map_map, ← ihl, ← ihr]
    rfl

theorem mem_map_cons_path {b : Bool} {s : Symbol} {p : Bits} {paths : List (Symbol × Bits)} :
    (s, p) ∈ paths.map (fun c => (c.1, b :: c.2)) ↔ ∃ q, p = b :: q ∧ (s, q) ∈ paths := by
  rw [List.mem_map]
  constructor
  · rintro ⟨⟨_, q⟩, hq, he⟩
    obtain ⟨rfl, rfl⟩ := Prod.mk.inj he
    exact ⟨q, rfl, hq⟩
  · rintro ⟨q, rfl, hq⟩
    exact ⟨(s, q), hq, rfl⟩

/-- The paths in a tree are those in its two subtrees, one step longer. -/
theorem mem_leafPaths_node {place : Nat} {l r : HTree} {s : Symbol} {p : Bits} :
    (s, p) ∈ leafPaths (.node place l r) ↔
      (∃ q, p = false :: q ∧ (s, q) ∈ leafPaths l) ∨ ∃ q, p = true :: q ∧ (s, q) ∈ leafPaths r :=
  List.mem_append.trans (or_congr mem_map_cons_path mem_map_cons_path)

theorem treeLeaves_pos (t : HTree) : 0 < (treeLeaves t).length := by
  induction t with
  | leaf => exact Nat.one_pos
  | node p l r ihl ihr =>
    rw [treeLeaves, List.length_append]
    omega

section
variable {m : Memory} {place : Nat} {l r : HTree}

theorem HoldsTree.read_root {t : HTree} {w : Word} (h : HoldsTree m t) (hw : (treePlace t, w) ∈ treeImage t) :
    m.read (rootIndex t).toNat = w := by
  obtain ⟨hlt, hread⟩ := h _ hw
  rwa [rootIndex, BitVec.toNat_ofNat, Nat.mod_eq_of_lt hlt]

theorem HoldsTree.read_leaf {s : Symbol} (h : HoldsTree m (.leaf place s)) :
    m.read (rootIndex (.leaf place s)).toNat = leafWord s := h.read_root (List.mem_singleton_self _)

theorem HoldsTree.read_node (h : HoldsTree m (.node place l r)) :
    m.read (rootIndex (.node place l r)).toNat = internalWord (rootIndex l) (rootIndex r) :=
  h.read_root (List.mem_append_right _ (List.mem_singleton_self _))

theorem HoldsTree.left (h : HoldsTree m (.node place l r)) : HoldsTree m l := fun c hc =>
  h c (List.mem_append_left _ (List.mem_append_left _ hc))

theorem HoldsTree.right (h : HoldsTree m (.node place l r)) : HoldsTree m r := fun c hc =>
  h c (List.mem_append_left _ (List.mem_append_right _ hc))

theorem HoldsTree.internal_node (h : HoldsTree m (.node place l r)) :
    internalNode (m.read (rootIndex (.node place l r)).toNat) = true := by
  rw [h.read_node]
  exact (flags_internalWord _ _).1

end

/-- The paths to the leaves in the image are those of the tree. -/
theorem HoldsTree.leafAt_iff {m : Memory} {t : HTree} (h : HoldsTree m t) {p : Bits} {s : Symbol} :
    LeafAt m (rootIndex t) p s ↔ (s, p) ∈ leafPaths t := by
  induction t generalizing p with
  | leaf place s' =>
    obtain ⟨hleaf, hsym, -⟩ := leafWord_fields s'
    rw [← h.read_leaf] at hleaf
    rw [leafAt_of_leaf hleaf, h.read_leaf, hsym, leafPaths, List.mem_singleton, Prod.mk.injEq, and_comm, eq_comm]
  | node place l r ihl ihr =>
    rw [leafAt_of_internal h.internal_node, h.read_node, leftField_internalWord, rightField_internalWord,
      mem_leafPaths_node]
    simp only [ihl h.left, ihr h.right]

/-- A node at the end of a path is a leaf, or has more leaves of the tree below and beside it than the path is long. -/
theorem HoldsTree.reached {m : Memory} {t : HTree} (h : HoldsTree m t) {p : Bits} {k : NodeIndex}
    (hr : Reaches m (rootIndex t) p k) : leafNode (m.read k.toNat) = true ∨
      (internalNode (m.read k.toNat) = true ∧ p.length + 1 < (treeLeaves t).length) := by
  induction t generalizing p with
  | leaf place s =>
    have hleaf := (leafWord_fields s).1
    rw [← h.read_leaf] at hleaf
    obtain ⟨-, rfl⟩ | ⟨hinternal, -⟩ := reaches_cases hr
    · exact .inl hleaf
    · simp [not_internal_of_leaf hleaf] at hinternal
  | node place l r ihl ihr =>
    have hl := treeLeaves_pos l
    have hr' := treeLeaves_pos r
    rw [treeLeaves, List.length_append]
    obtain ⟨rfl, rfl⟩ | ⟨-, hbelow⟩ := reaches_cases hr
    · exact .inr ⟨h.internal_node, by rw [List.length_nil]; omega⟩
    · rw [h.read_node, leftField_internalWord, rightField_internalWord] at hbelow
      obtain ⟨q, rfl, hq⟩ | ⟨q, rfl, hq⟩ := hbelow
      · exact (ihl h.left hq).imp_right fun ⟨hi, hlt⟩ => ⟨hi, by rw [List.length_cons]; omega⟩
      · exact (ihr h.right hq).imp_right fun ⟨hi, hlt⟩ => ⟨hi, by rw [List.length_cons]; omega⟩

section
variable {m : Memory} {t : HTree}

theorem BuiltTree.walkable (ht : BuiltTree t) (h : HoldsTree m t) : WalkableImage m (rootIndex t) where
  nodes p n hr := by
    have hle := length_le_of_nodup ht.nodup_symbols
    exact (h.reached hr).imp_right fun ⟨hi, hlt⟩ => ⟨hi, by rw [Config.maxLen]; omega⟩
  once p q s hp hq := by
    have hnodup : ((leafPaths t).map Prod.fst).Nodup := map_fst_leafPaths t ▸ ht.nodup_symbols
    exact congrArg Prod.snd (List.inj_on_of_nodup_map hnodup (h.leafAt_iff.1 hp) (h.leafAt_iff.1 hq) rfl)

theorem BuiltTree.internal_root (ht : BuiltTree t) (h : HoldsTree m t) :
    internalNode (m.read (rootIndex t).toNat) = true := by
  cases t with
  | leaf place s => simpa [treeLeaves] using ht.two_le_leaves
  | node place l r => exact h.internal_node

/-- CTGEN gives every symbol of the tree its path as code. -/
theorem BuiltTree.exec_ctgen (ht : BuiltTree t) {s : State} (herr : s.err = .noFault) (h : HoldsTree s.tree t) :
    ∃ table zlen, exec (.ctgen (rootIndex t)) s = .next { s with ct := table, ctv := true, zlen := zlen } ∧
      ∀ sym code, table.find sym.toNat = some code ↔ (sym, code) ∈ leafPaths t := by
  obtain ⟨table, hw⟩ := walkable_iff_walk_ok.1 (ht.walkable h)
  exact ⟨table, _, exec_ctgen_of_walk_ok herr hw, fun sym code => (find_walk_iff hw sym code).trans h.leafAt_iff⟩

end

/-- The symbols on leaves have paths. -/
theorem exists_codes {t : HTree} {src : List Symbol} (h : ∀ s ∈ src, s ∈ treeLeaves t) :
    ∃ codes, List.Forall₂ (fun sym code => (sym, code) ∈ leafPaths t) src codes := by
  induction src with
  | nil => exact ⟨[], .nil⟩
  | cons s src ih =>
    obtain ⟨hs, hsrc⟩ := List.forall_mem_cons.1 h
    rw [← map_fst_leafPaths] at hs
    obtain ⟨⟨_, code⟩, hcode, rfl⟩ := List.mem_map.1 hs
    obtain ⟨codes, hcodes⟩ := ih hsrc
    exact ⟨code :: codes, .cons hcode hcodes⟩

end Sys2Proof.Machine
end

section
/-! The host's runs (45_environment.md rules R125, R126, R129, R130): a list of transactions one after the other, the
loading of a tree, the translation of a source, and the reading of a buffer through its window. -/

namespace Sys2Proof.Machine

section
variable {t : Txn} {ts us : List Txn} {s u : State}

theorem hostRun_cons_of_noFault (h : transact t s = .next u) (hu : u.err = .noFault) :
    hostRun (t :: ts) s = hostRun ts u := by
  simp only [hostRun, h, if_pos hu]

theorem hostRun_cons_of_fault (h : transact t s = .next u) (hu : u.err ≠ .noFault) :
    hostRun (t :: ts) s = .error (.blockFault u.err) := by
  simp only [hostRun, h, if_neg hu]

theorem hostRun_write {wa : WordIndex} {v : Word} (h : portWrite wa v s = .next u) (hu : u.err = .noFault) :
    hostRun (.write wa v :: ts) s = hostRun ts u :=
  hostRun_cons_of_noFault (t := .write wa v) h hu

theorem hostRun_read (wa : WordIndex) (h : s.err = .noFault) :
    hostRun (.read wa :: ts) s = hostRun ts (reply (portRead wa s) s) :=
  hostRun_cons_of_noFault (t := .read wa) rfl h

/-- One run and then the other; an aborted run ends both. -/
theorem hostRun_append (ts us : List Txn) (s : State) :
    hostRun (ts ++ us) s = (hostRun ts s).bind (hostRun us) := by
  induction ts generalizing s with
  | nil => rfl
  | cons t ts ih =>
    obtain ⟨u, hu⟩ := transact_total t s
    by_cases herr : u.err = .noFault
    · rw [List.cons_append, hostRun_cons_of_noFault hu herr, hostRun_cons_of_noFault hu herr, ih]
    · rw [List.cons_append, hostRun_cons_of_fault hu herr, hostRun_cons_of_fault hu herr]
      rfl

theorem hostRun_append_of_ok (h : hostRun ts s = .ok u) : hostRun (ts ++ us) s = hostRun us u := by
  rw [hostRun_append, h]
  rfl

theorem hostRun_append_of_error {e : EnvError} (h : hostRun ts s = .error e) : hostRun (ts ++ us) s = .error e := by
  rw [hostRun_append, h]
  rfl

/-- The write of a command's word executes the command. -/
theorem transact_cmd (i : Instr) (s : State) : transact (cmd i) s = exec i s :=
  (portWrite_cmd (encode i) s).trans (execWord_of_decode_ok (decode_encode i) s)

theorem hostRun_cmd {i : Instr} (h : exec i s = .next u) (hu : u.err = .noFault) :
    hostRun (cmd i :: ts) s = hostRun ts u :=
  hostRun_cons_of_noFault ((transact_cmd i s).trans h) hu

end

/-! ### Loading a tree -/

/-- The memory after the words `w` are written to the indices of a list. -/
def writeWords (w : Nat → Word) (is : List Nat) (m : Memory) : Memory := is.foldl (fun m i => m.write i (w i)) m

theorem read_writeWords (w : Nat → Word) (is : List Nat) (m : Memory) (j : Nat) :
    (writeWords w is m).read j = if j ∈ is then w j &&& nodeMask else m.read j := by
  induction is generalizing m with
  | nil => rfl
  | cons i is ih =>
    rw [writeWords, List.foldl_cons, ← writeWords, ih, Memory.read_write]
    by_cases hj : j = i
    · simp [hj]
    · simp [hj]

theorem toNat_treeWordIndex {i : Nat} (hi : i < 256) : (treeWordIndex i).toNat = 0x100 + i := by
  rw [treeWordIndex, BitVec.toNat_ofNat, Nat.mod_eq_of_lt (by omega)]

theorem hostRun_treeWrites {w : Nat → Word} {is : List Nat} (his : ∀ i ∈ is, i < 256) {s : State}
    (herr : s.err = .noFault) :
    hostRun (is.map fun i => .write (treeWordIndex i) (w i)) s = .ok { s with tree := writeWords w is s.tree } := by
  induction is generalizing s with
  | nil => rfl
  | cons i is ih =>
    obtain ⟨hi, his⟩ := List.forall_mem_cons.1 his
    have hidx := toNat_treeWordIndex hi
    have hwrite := portWrite_of_mem_tree (wa := treeWordIndex i) (by omega) (by omega) (w i) s
    rw [hidx, Nat.add_sub_cancel_left] at hwrite
    exact (hostRun_write hwrite herr).trans (ih (s := { s with tree := s.tree.write i (w i) }) his herr)

/-- In a list where no index stands twice what is listed is found. -/
theorem cellsFind_of_mem_of_nodup {α : Type} {cells : List (Nat × α)} (h : (cells.map Prod.fst).Nodup) {c : Nat × α}
    (hc : c ∈ cells) : cellsFind cells c.1 = some c.2 := by
  induction cells with
  | nil => simp at hc
  | cons d rest ih =>
    obtain ⟨hd, hrest⟩ := List.nodup_cons.1 h
    obtain ⟨k, x⟩ := d
    rw [cellsFind]
    obtain rfl | hc := List.mem_cons.1 hc
    · rw [if_pos rfl]
    · have hk : k ≠ c.1 := fun hk => hd (List.mem_map.2 ⟨c, hc, hk.symm⟩)
      rw [if_neg hk, ih hrest hc]

/-- The node words of a tree have no reserved bit set. -/
theorem treeImage_and_nodeMask {t : HTree} {c : Nat × Word} (hc : c ∈ treeImage t) : c.2 &&& nodeMask = c.2 := by
  induction t with
  | leaf p s =>
    obtain rfl := List.mem_singleton.1 hc
    obtain ⟨-, -, -, -, hmask⟩ := leafWord_fields s
    exact hmask
  | node p l r ihl ihr =>
    simp only [treeImage, List.mem_append, List.mem_singleton, or_assoc] at hc
    obtain hl | hr | rfl := hc
    · exact ihl hl
    · exact ihr hr
    · exact internalWord_and_nodeMask _ _

/-- TREE after a tree is loaded into the empty one. -/
def loadedTree (t : HTree) : Memory :=
  writeWords (fun i => (cellsFind (treeImage t) i).getD 0) (List.range (treeImage t).length) []

section
variable {t : HTree}

theorem BuiltTree.holdsTree (ht : BuiltTree t) : HoldsTree (loadedTree t) t := by
  intro c hc
  have hle := ht.image_le
  have hplace : c.1 ∈ List.range (treeImage t).length := ht.places.mem_iff.1 (List.mem_map_of_mem hc)
  have hfind := cellsFind_of_mem_of_nodup (ht.places.nodup_iff.2 List.nodup_range) hc
  refine ⟨by rw [List.mem_range] at hplace; omega, ?_⟩
  rw [loadedTree, read_writeWords, if_pos hplace, hfind, Option.getD_some, treeImage_and_nodeMask hc]

/-- SRESET and the node words (R129 step 4). -/
theorem BuiltTree.hostRun_loadTxns (ht : BuiltTree t) (s : State) :
    hostRun (loadTxns t) s = .ok { resetBlock s with tree := loadedTree t } := by
  have hle := ht.image_le
  rw [loadTxns, hostRun_cmd (exec_sreset s) rfl]
  exact hostRun_treeWrites (fun i hi => by rw [List.mem_range] at hi; omega) rfl

end

/-! ### Translating a source -/

section
variable {table : CodeTable} {src : List Symbol} {codes : List Bits} {s : State}

/-- Where the codes fit, the PUTSYMs append them (R126). -/
theorem hostRun_putsyms_of_fits (hcodes : List.Forall₂ (fun sym code => table.find sym.toNat = some code) src codes)
    (herr : s.err = .noFault) (hct : s.ct = table) (hfit : s.bitlen + (codes.map List.length).sum ≤ s.bitcap) :
    hostRun (src.map fun sym => cmd (.putsym sym)) s = .ok (appendBits codes.flatten s) := by
  induction hcodes generalizing s with
  | nil => simp [hostRun, appendBits]
  | @cons sym code src codes hcode _ ih =>
    rw [List.map_cons, List.sum_cons] at hfit
    rw [List.map_cons, hostRun_cmd (exec_putsym_of_fits herr (hct ▸ hcode) (by omega)) herr,
      ih (s := appendBits code s) herr hct (by rw [bitlen_appendBits, appendBits_bitcap]; omega)]
    simp [appendBits]

/-- Where the codes do not fit, a PUTSYM faults (R129). -/
theorem hostRun_putsyms_of_overflow
    (hcodes : List.Forall₂ (fun sym code => table.find sym.toNat = some code) src codes)
    (herr : s.err = .noFault) (hct : s.ct = table) (hbits : s.bitlen ≤ s.bitcap)
    (hover : s.bitcap < s.bitlen + (codes.map List.length).sum) :
    hostRun (src.map fun sym => cmd (.putsym sym)) s = .error (.blockFault .bitovf) := by
  induction hcodes generalizing s with
  | nil => exact absurd hover (not_lt.2 hbits)
  | @cons sym code src codes hcode _ ih =>
    rw [List.map_cons, List.sum_cons] at hover
    rw [List.map_cons]
    by_cases hfit : s.bitlen + code.length ≤ s.bitcap
    · rw [hostRun_cmd (exec_putsym_of_fits herr (hct ▸ hcode) hfit) herr]
      exact ih herr hct (by rwa [bitlen_appendBits]) (by rw [bitlen_appendBits, appendBits_bitcap]; omega)
    · exact hostRun_cons_of_fault
        ((transact_cmd _ s).trans (exec_putsym_of_overflow herr (hct ▸ hcode) (not_le.1 hfit))) (by simp)

end

/-! ### Reading a buffer through its window -/

/-- The state with other window positions and other replies. -/
def setWindowsAndReplies (bitidx byteidx : Word) (replies : List Word) (s : State) : State :=
  { s with bitidx := bitidx, byteidx := byteidx, replies := replies }

/-- Writing `pos` to index `wa` moves a window of `s`, wherever the windows stand, so that index `ra` reads `seen`. -/
def WindowShows (s : State) (wa ra : WordIndex) (pos seen : Word) : Prop :=
  ∀ bi yi rs, ∃ bi' yi',
    portWrite wa pos (setWindowsAndReplies bi yi rs s) = .next (setWindowsAndReplies bi' yi' rs s) ∧
    portRead ra (setWindowsAndReplies bi' yi' rs s) = seen

/-- BYTEDATA at position `j` is byte `j` (R20). -/
theorem windowShows_byte (s : State) {j : Nat} (hj : j < 2 ^ 32) :
    WindowShows s 0x008 0x009 (BitVec.ofNat 32 j) ((s.bytebuf.getD j 0).setWidth 32) := by
  intro bi yi rs
  refine ⟨bi, BitVec.ofNat 32 j, rfl, ?_⟩
  show (s.bytebuf.getD (BitVec.ofNat 32 j).toNat 0).setWidth 32 = _
  rw [BitVec.toNat_ofNat, Nat.mod_eq_of_lt hj]

/-- BITDATA at position `p` is the 32 bits from there on (R18). -/
theorem windowShows_bits (s : State) {p : Nat} (hp : p < 2 ^ 32) :
    WindowShows s 0x005 0x006 (BitVec.ofNat 32 p) (BitVec.ofNat 32 (natOfBits (bitsFrom s.bitbuf p 32))) := by
  intro bi yi rs
  refine ⟨BitVec.ofNat 32 p, yi, rfl, ?_⟩
  show BitVec.ofNat 32 (natOfBits (bitsFrom s.bitbuf (BitVec.ofNat 32 p).toNat 32)) = _
  rw [BitVec.toNat_ofNat, Nat.mod_eq_of_lt hp]

/-- A window is moved and read, again and again: the replies are the words seen. -/
theorem hostRun_windowReads {s : State} (herr : s.err = .noFault) {wa ra : WordIndex} {pos seen : Nat → Word}
    {js : List Nat} (hshows : ∀ j ∈ js, WindowShows s wa ra (pos j) (seen j)) (bi yi : Word) (rs : List Word) :
    ∃ bi' yi', hostRun (js.flatMap fun j => [.write wa (pos j), .read ra]) (setWindowsAndReplies bi yi rs s) =
      .ok (setWindowsAndReplies bi' yi' (rs ++ js.map seen) s) := by
  induction js generalizing bi yi rs with
  | nil => exact ⟨bi, yi, by rw [List.map_nil, List.append_nil]; rfl⟩
  | cons j js ih =>
    obtain ⟨hj, hjs⟩ := List.forall_mem_cons.1 hshows
    obtain ⟨bi1, yi1, hwrite, hread⟩ := hj bi yi rs
    obtain ⟨bi', yi', hrun⟩ := ih hjs bi1 yi1 (rs ++ [seen j])
    rw [List.append_assoc, List.singleton_append, ← List.map_cons] at hrun
    refine ⟨bi', yi', ?_⟩
    rw [List.flatMap_cons, List.cons_append, List.cons_append, List.nil_append, hostRun_write hwrite herr,
      hostRun_read, hread]
    · exact hrun
    · exact herr

theorem newReplies_setWindowsAndReplies (bi yi : Word) (rs : List Word) (s : State) :
    newReplies s (setWindowsAndReplies bi yi (s.replies ++ rs) s) = rs :=
  List.drop_left' rfl

theorem map_getD_range {α : Type} (l : List α) (d : α) : ((List.range l.length).map fun j => l.getD j d) = l := by
  refine List.ext_getElem (by simp) fun i _ hi => ?_
  simp [hi]

end Sys2Proof.Machine
end

section
/-! The whole encode of a source (45_environment.md rules R126, R129). -/

namespace Sys2Proof.Machine

/-- The state in which the translation of a source begins: no fault, an empty bit string, and for every symbol of the
tree the path to its leaf as its code. -/
structure ReadyToTranslate (t : HTree) (bitcap : Nat) (u : State) : Prop where
  err : u.err = .noFault
  bitcap_eq : u.bitcap = bitcap
  bitbuf : u.bitbuf = []
  clean : u.bpoison = false
  codes : ∀ (sym : Symbol) code, u.ct.find sym.toNat = some code ↔ (sym, code) ∈ leafPaths t

section
variable {t : HTree} {src : List Symbol} {codes : List Bits} {s : State}

theorem encodeTxns_eq (t : HTree) (src : List Symbol) : encodeTxns t src =
    (loadTxns t ++ [cmd (.ctgen (rootIndex t)), cmd .bclr]) ++
      ((src.map fun sym => cmd (.putsym sym)) ++ [cmd .pack]) := by
  simp [encodeTxns, translateTxns, rootIndex]

/-- Loading the tree, CTGEN and BCLR (R129 steps 4 to 6). -/
theorem BuiltTree.hostRun_prepare (ht : BuiltTree t) (s : State) :
    ∃ u, hostRun (loadTxns t ++ [cmd (.ctgen (rootIndex t)), cmd .bclr]) s = .ok u ∧
      ReadyToTranslate t s.bitcap u := by
  obtain ⟨table, zlen, hctgen, hcodes⟩ :=
    ht.exec_ctgen (s := { resetBlock s with tree := loadedTree t }) rfl ht.holdsTree
  rw [hostRun_append_of_ok (ht.hostRun_loadTxns s), hostRun_cmd hctgen rfl, hostRun_cmd (exec_of_noFault .bclr rfl) rfl]
  exact ⟨_, rfl, rfl, rfl, rfl, rfl, hcodes⟩

/-- Where the codes fit, the block ends with the packed codes. -/
theorem BuiltTree.hostRun_encodeTxns_of_fits (ht : BuiltTree t)
    (hcodes : List.Forall₂ (fun sym code => (sym, code) ∈ leafPaths t) src codes)
    (hfit : (codes.map List.length).sum ≤ s.bitcap) :
    ∃ u, hostRun (encodeTxns t src) s = .ok u ∧ u.err = .noFault ∧ u.bitbuf = codes.flatten ∧
      u.bytebuf = packBytes (withMarker codes.flatten) := by
  obtain ⟨u, hprepare, hu⟩ := ht.hostRun_prepare s
  have hlen : u.bitlen = 0 := congrArg List.length hu.bitbuf
  have hput := hostRun_putsyms_of_fits (hcodes.imp fun sym code => (hu.codes sym code).2) hu.err rfl
    (by rw [hlen, hu.bitcap_eq]; omega)
  have hbits : (appendBits codes.flatten u).bitbuf = codes.flatten := by rw [appendBits_bitbuf, hu.bitbuf]; rfl
  have hpack := exec_pack_clean (s := appendBits codes.flatten u) hu.err hu.clean
  rw [hbits] at hpack
  rw [encodeTxns_eq, hostRun_append_of_ok hprepare, hostRun_append_of_ok hput, hostRun_cmd hpack hu.err]
  exact ⟨_, rfl, hu.err, rfl, rfl⟩

/-- Where they do not, the host aborts. -/
theorem BuiltTree.hostRun_encodeTxns_of_overflow (ht : BuiltTree t)
    (hcodes : List.Forall₂ (fun sym code => (sym, code) ∈ leafPaths t) src codes)
    (hover : s.bitcap < (codes.map List.length).sum) :
    hostRun (encodeTxns t src) s = .error (.blockFault .bitovf) := by
  obtain ⟨u, hprepare, hu⟩ := ht.hostRun_prepare s
  have hlen : u.bitlen = 0 := congrArg List.length hu.bitbuf
  have hput := hostRun_putsyms_of_overflow (hcodes.imp fun sym code => (hu.codes sym code).2) hu.err rfl
    (by rw [hlen]; omega) (by rw [hlen, hu.bitcap_eq]; omega)
  rw [encodeTxns_eq, hostRun_append_of_ok hprepare, hostRun_append_of_error hput]

end

/-! ### Reading out the bytes -/

/-- Step (8) of R129 returns BYTEBUF, and leaves it. -/
theorem hostRun_readOutTxns {s : State} (herr : s.err = .noFault) (hlen : s.bytelen < 2 ^ 32) :
    ∃ u, hostRun (readOutTxns s.bytelen) s = .ok u ∧ u.err = .noFault ∧ u.bitbuf = s.bitbuf ∧
      u.bytebuf = s.bytebuf ∧ (newReplies s u).map (fun w => w.setWidth 8) = s.bytebuf := by
  have hshows : ∀ j ∈ List.range s.bytelen, WindowShows s 0x008 0x009 (BitVec.ofNat 32 j)
      ((s.bytebuf.getD j 0).setWidth 32) :=
    fun j hj => windowShows_byte s ((List.mem_range.1 hj).trans hlen)
  obtain ⟨bi, yi, hrun⟩ := hostRun_windowReads herr hshows s.bitidx s.byteidx s.replies
  refine ⟨_, hrun, herr, rfl, rfl, ?_⟩
  rw [newReplies_setWindowsAndReplies, List.map_map]
  refine (List.map_congr_left fun j _ => ?_).trans (map_getD_range s.bytebuf 0)
  exact (BitVec.setWidth_setWidth_of_le _ (by decide)).trans (BitVec.setWidth_eq _)

/-! ### The whole encode -/

section
variable {t : HTree} {src : List Symbol} {codes : List Bits} {s : State} (htree : treeOfSource src = .ok t)
  (ht : BuiltTree t) (hcodes : List.Forall₂ (fun sym code => (sym, code) ∈ leafPaths t) src codes)
include htree ht hcodes

theorem encodeSource_of_fits (hfit : (codes.map List.length).sum ≤ s.bitcap) (hcap : s.bitcap ≤ 2 ^ 31) :
    ∃ u, encodeSource src s = .ok (packBytes (withMarker codes.flatten), u) ∧ u.err = .noFault ∧
      u.bytebuf = packBytes (withMarker codes.flatten) ∧ u.bitbuf = codes.flatten := by
  obtain ⟨u, hrun, herr, hbits, hbytes⟩ := ht.hostRun_encodeTxns_of_fits hcodes hfit
  have hlen : u.bytelen < 2 ^ 32 := by
    rw [State.bytelen, hbytes, length_packed, List.length_flatten]
    omega
  obtain ⟨v, hread, hverr, hvbits, hvbytes, hreplies⟩ := hostRun_readOutTxns herr hlen
  refine ⟨v, ?_, hverr, hvbytes.trans hbytes, hvbits.trans hbits⟩
  simp only [encodeSource, htree, hrun, hread, hreplies, hbytes]

theorem encodeSource_of_overflow (hover : s.bitcap < (codes.map List.length).sum) :
    encodeSource src s = .error (.blockFault .bitovf) := by
  simp only [encodeSource, htree, ht.hostRun_encodeTxns_of_overflow hcodes hover]

end

/-- Settles O58: the codes are the paths in the source's tree, and fit or do not. -/
theorem nonemptySourceEncodes : Obligations.NonemptySourceEncodes := by
  intro src s hsrc
  obtain ⟨t, htree, ht, hleaves⟩ := treeOfSource_spec hsrc
  obtain ⟨codes, hcodes⟩ := exists_codes hleaves
  refine ⟨t, codes, htree, hcodes, fun hfit hcap => ?_, encodeSource_of_overflow htree ht hcodes⟩
  obtain ⟨u, hencode, herr, hbytes, hbits⟩ := encodeSource_of_fits htree ht hcodes hfit hcap
  exact ⟨_, u, hencode, herr, hbytes.symm, hbits⟩

end Sys2Proof.Machine
end

section
/-! The whole decode of a byte sequence, and the round trip (45_environment.md rules R130, R131). -/

namespace Sys2Proof.Machine

/-! ### Unpacking -/

/-- The state with another byte sequence. -/
def setBytes (bytes : List Byte) (s : State) : State := { s with bytebuf := bytes }

theorem exec_yclr {s : State} (h : s.err = .noFault) : exec .yclr s = .next (setBytes [] s) :=
  exec_of_noFault .yclr h

/-- Bytes that fit are appended (R130 step 2). -/
theorem hostRun_putbytes {bytes : List Byte} {s : State} (herr : s.err = .noFault)
    (hfit : s.bytelen + bytes.length ≤ s.bytecap) :
    hostRun (bytes.map fun b => cmd (.putbyte b)) s = .ok (setBytes (s.bytebuf ++ bytes) s) := by
  induction bytes generalizing s with
  | nil => simp [hostRun, setBytes]
  | cons b bytes ih =>
    rw [List.length_cons] at hfit
    have hput := exec_putbyte_of_room (b := b) herr (show s.bytelen ≠ s.bytecap by omega)
    have hrest : s.bytelen + 1 + bytes.length ≤ s.bytecap := by omega
    rw [← bytelen_appendByte b] at hrest
    rw [List.map_cons, hostRun_cmd hput herr, ih (s := appendByte b s) herr hrest]
    simp [setBytes, appendByte]

/-- What PACK made of a bit string that fits, the block unpacks to the bit string. -/
theorem hostRun_unpackTxns {bits : Bits} {s : State} (herr : s.err = .noFault) (hfit : bits.length ≤ s.bitcap) :
    ∃ u, hostRun (unpackTxns (packBytes (withMarker bits))) s = .ok u ∧ u.err = .noFault ∧ u.tree = s.tree ∧
      u.bitbuf = bits := by
  have hbytes : (setBytes [] s).bytelen + (packBytes (withMarker bits)).length ≤ (setBytes [] s).bytecap := by
    have hroom := Nat.succ_le_succ (Nat.div_le_div_right (c := 8) hfit)
    rw [length_packed]
    exact (Nat.zero_add _).trans_le hroom
  have hput : hostRun ((packBytes (withMarker bits)).map fun b => cmd (.putbyte b)) (setBytes [] s) =
      .ok (setBytes (packBytes (withMarker bits)) s) := hostRun_putbytes (s := setBytes [] s) herr hbytes
  have hpayload : 8 * (packBytes (withMarker bits)).length - paddingOf bits.length ≤ s.bitcap := by
    rwa [← length_payload, drop_padding_packed]
  have hunpack := exec_unpack_of_fits (s := setBytes (packBytes (withMarker bits)) s) herr
    (markerScan_packed bits) hpayload
  rw [unpackTxns, List.cons_append, hostRun_cmd (exec_yclr herr) herr, hostRun_append_of_ok hput,
    hostRun_cmd hunpack herr]
  exact ⟨_, rfl, herr, rfl, drop_padding_packed bits⟩

/-! ### Reading the payload -/

/-- The bits of a window word are those it was made of. -/
theorem wordBits_ofBits {bs : Bits} (hlen : bs.length = 32) : wordBits (BitVec.ofNat 32 (natOfBits bs)) = bs := by
  have hbits : wordBits (BitVec.ofNat 32 (natOfBits bs)) = (List.range bs.length).map fun k => bs.getD k false := by
    rw [hlen]
    exact List.map_congr_left fun k hk => getLsbD_ofBits hlen (List.mem_range.1 hk)
  rw [hbits, map_getD_range]

theorem bitsFrom_add (bs : Bits) (start n k : Nat) :
    bitsFrom bs start (n + k) = bitsFrom bs start n ++ bitsFrom bs (start + n) k := by
  simp [bitsFrom, List.range_add, Nat.add_assoc]

/-- Windows of 32 bits one after the other. -/
theorem flatMap_bitsFrom (bs : Bits) (n : Nat) :
    ((List.range n).flatMap fun j => bitsFrom bs (32 * j) 32) = bitsFrom bs 0 (32 * n) := by
  induction n with
  | zero => rfl
  | succ n ih => rw [List.range_succ, List.flatMap_append, ih, List.flatMap_singleton, Nat.mul_succ, bitsFrom_add,
      Nat.zero_add]

/-- Enough bits from the front of a sequence begin with the whole sequence. -/
theorem take_bitsFrom {bs : Bits} {n : Nat} (h : bs.length ≤ n) : (bitsFrom bs 0 n).take bs.length = bs := by
  obtain ⟨k, rfl⟩ := Nat.exists_eq_add_of_le h
  have hall : bitsFrom bs 0 bs.length = bs := by
    simp only [bitsFrom, Nat.zero_add]
    exact map_getD_range bs false
  rw [bitsFrom_add, hall]
  exact List.take_left' rfl

/-- Step (4) of R130 returns BITBUF. -/
theorem hostRun_payloadTxns {s : State} (herr : s.err = .noFault) (hlen : s.bitlen ≤ 2 ^ 31) :
    ∃ u, hostRun (payloadTxns s.bitlen) s = .ok u ∧ u.tree = s.tree ∧
      ((newReplies s u).flatMap wordBits).take s.bitlen = s.bitbuf := by
  have hshows : ∀ j ∈ List.range ((s.bitlen + 31) / 32), WindowShows s 0x005 0x006 (BitVec.ofNat 32 (32 * j))
      (BitVec.ofNat 32 (natOfBits (bitsFrom s.bitbuf (32 * j) 32))) := by
    intro j hj
    have hj := List.mem_range.1 hj
    exact windowShows_bits s (by omega)
  obtain ⟨bi, yi, hrun⟩ := hostRun_windowReads herr hshows s.bitidx s.byteidx s.replies
  refine ⟨_, hrun, rfl, ?_⟩
  rw [newReplies_setWindowsAndReplies, List.flatMap_map]
  simp only [wordBits_ofBits (length_bitsFrom ..), flatMap_bitsFrom]
  exact take_bitsFrom (show s.bitlen ≤ _ by omega)

/-! ### The round trip -/

/-- The packed codes of a source decode to the source. -/
theorem decodeBytes_packed_codes {t : HTree} {src : List Symbol} {codes : List Bits} {s : State}
    (htree : treeOfSource src = .ok t) (ht : BuiltTree t)
    (hcodes : List.Forall₂ (fun sym code => (sym, code) ∈ leafPaths t) src codes)
    (hfit : codes.flatten.length ≤ s.bitcap) (hcap : s.bitcap ≤ 2 ^ 31) :
    ∃ v, decodeBytes src (packBytes (withMarker codes.flatten)) s = .ok (src, v) := by
  obtain ⟨u, hunpack, herr, hutree, hbits⟩ := hostRun_unpackTxns (s := { resetBlock s with tree := loadedTree t }) rfl
    hfit
  have hlen : u.bitlen = codes.flatten.length := congrArg List.length hbits
  obtain ⟨v, hread, hvtree, hpayload⟩ := hostRun_payloadTxns herr (by omega)
  have hholds : HoldsTree v.tree t := by
    rw [hvtree, hutree]
    exact ht.holdsTree
  have hwalk := decodeWalk_of_leafAt (ht.internal_root hholds)
    (hcodes.imp fun sym code hpath => hholds.leafAt_iff.2 hpath)
  have hload := (hostRun_append_of_ok (ht.hostRun_loadTxns s)).trans hunpack
  refine ⟨v, ?_⟩
  simp only [decodeBytes, htree, hload, hread, hpayload, hbits]
  rw [← rootIndex, hwalk]

theorem treeOfSource_nil : treeOfSource [] = .error .emptySource := rfl

/-- What encodes is not empty. -/
theorem ne_nil_of_encodeSource_ok {src : List Symbol} {s : State} {r : List Byte × State}
    (h : encodeSource src s = .ok r) : src ≠ [] := by
  rintro rfl
  simp [encodeSource, treeOfSource_nil] at h

/-- Settles O59: what encodes fits, so its bytes are the packed codes, which decode to the source. -/
theorem encodeDecodeRoundTrip : Obligations.EncodeDecodeRoundTrip := by
  intro src s t u bytes hcap hsame hencode
  obtain ⟨tree, htree, ht, hleaves⟩ := treeOfSource_spec (ne_nil_of_encodeSource_ok hencode)
  obtain ⟨codes, hcodes⟩ := exists_codes hleaves
  obtain hfit | hover := le_or_gt (codes.map List.length).sum s.bitcap
  · obtain ⟨_, hok, -⟩ := encodeSource_of_fits htree ht hcodes hfit hcap
    obtain ⟨rfl, -⟩ := Prod.mk.inj (Except.ok.inj (hok.symm.trans hencode))
    exact decodeBytes_packed_codes htree ht hcodes (by rw [List.length_flatten, hsame]; exact hfit) (hsame ▸ hcap)
  · rw [encodeSource_of_overflow htree ht hcodes hover] at hencode
    cases hencode

end Sys2Proof.Machine
end

section
/-! What a command that raises a fault leaves behind, said once (60_exceptions.md rules R150 to R154): the cause it may
raise, ERRCMD, and the state besides the three fault registers. -/

namespace Sys2Proof.Machine

/-- The faults that write ERR, ERRCMD and ERRINFO alone: the rows of R153 but PUTCH's InvalidBitCharacter and
CTGEN's. -/
inductive FaultsInPlace : Instr → Cause → Prop where
  | putchFull (c : Byte) : FaultsInPlace (.putch c) .bitovf
  | putsymUnset (sym : Symbol) : FaultsInPlace (.putsym sym) .nocode
  | putsymFull (sym : Symbol) : FaultsInPlace (.putsym sym) .bitovf
  | packPoisoned : FaultsInPlace .pack .invalidBitCharacter
  | putbyteFull (b : Byte) : FaultsInPlace (.putbyte b) .byteovf
  | unpackFull : FaultsInPlace .unpack .bitovf

/-- The state `t` that the command `i` leaves by a fault raised from `s` (R152, R153). -/
inductive FaultOutcome (s t : State) : Instr → Prop where
  | ctgen (r : NodeIndex) (c : Cause) (info : Word) : walk s.tree Config.maxLen r [] [] = .error (c, info) →
      t = raise (encode (.ctgen r)) c info (clearTable s) → FaultOutcome s t (.ctgen r)
  | putch (c : Byte) (info : Word) :
      t = raise (encode (.putch c)) .invalidBitCharacter info { s with bpoison := true } →
      FaultOutcome s t (.putch c)
  | inPlace (i : Instr) (c : Cause) (info : Word) : FaultsInPlace i c → t = raise (encode i) c info s →
      FaultOutcome s t i

/-- A command's rule raises no fault, or raises one of those of R153. -/
theorem effect_err_or_faultOutcome (i : Instr) {s : State} (herr : s.err = .noFault) :
    (effect i s).err = .noFault ∨ FaultOutcome s (effect i s) i := by
  cases i with
  | nop | ctclr | tclr | bclr | yclr => exact .inl herr
  | clrerr | sreset => exact .inl rfl
  | ctgen r =>
    obtain ⟨t, -, he⟩ | ⟨c, info, hw, he⟩ := deriveTable_cases r s
    · exact .inl ((congrArg State.err he).trans herr)
    · exact .inr (.ctgen r c info hw he)
  | putch c =>
    obtain ⟨-, -, he⟩ | ⟨-, -, he⟩ | ⟨-, -, he⟩ := putChar_cases c s
    · exact .inr (.putch c _ he)
    · exact .inr (.inPlace _ _ _ (.putchFull c) he)
    · exact .inl ((congrArg State.err he).trans herr)
  | putsym sym =>
    obtain ⟨-, he⟩ | ⟨code, -, ⟨-, he⟩ | ⟨-, he⟩⟩ := putSymbol_cases sym s
    · exact .inr (.inPlace _ _ _ (.putsymUnset sym) he)
    · exact .inr (.inPlace _ _ _ (.putsymFull sym) he)
    · exact .inl ((congrArg State.err he).trans herr)
  | pack =>
    obtain ⟨-, he⟩ | ⟨-, he⟩ := packBits_cases s
    · exact .inr (.inPlace _ _ _ .packPoisoned he)
    · exact .inl ((congrArg State.err he).trans herr)
  | putbyte b =>
    obtain ⟨-, he⟩ | ⟨-, he⟩ := putByte_cases b s
    · exact .inr (.inPlace _ _ _ (.putbyteFull b) he)
    · exact .inl ((congrArg State.err he).trans herr)
  | unpack =>
    obtain ⟨discard, nomark, -, ⟨-, he⟩ | ⟨-, he⟩⟩ := unpackBits_cases s
    · exact .inr (.inPlace _ _ _ .unpackFull he)
    · exact .inl ((congrArg State.err he).trans herr)

/-- All that a command can do that leaves a fault where none stood. -/
theorem faultOutcome_of_exec {i : Instr} {s t : State} (herr : s.err = .noFault) (h : exec i s = .next t)
    (hfault : t.err ≠ .noFault) : FaultOutcome s t i := by
  obtain rfl : effect i s = t := Host.Outcome.next.inj ((exec_of_noFault i herr).symm.trans h)
  exact (effect_err_or_faultOutcome i herr).resolve_left hfault

/-- Settles O47, outcome by outcome of a faulting command. -/
theorem causesByCommand : Obligations.CausesByCommand := by
  intro i s t herr h hfault
  cases faultOutcome_of_exec herr h hfault with
  | ctgen r c info hw ht =>
    subst ht
    exact ⟨rfl, .inl ⟨r, rfl, walk_error_cause hw⟩⟩
  | putch c info ht =>
    subst ht
    exact ⟨rfl, .inr (.inl ⟨c, rfl, .inl rfl⟩)⟩
  | inPlace i c info hrow ht =>
    subst ht
    refine ⟨rfl, ?_⟩
    cases hrow <;> simp

/-- Settles O48: an illegal word's fault and most commands' write the fault registers alone, PUTCH's first one also
BPOISON, CTGEN's also the table. -/
theorem faultingCommandLeavesTheRest : Obligations.FaultingCommandLeavesTheRest := by
  refine ⟨fun w s herr hw => ?_, fun i s t herr h hfault => ?_⟩
  · exact ⟨raise w .illcmd 0 s, (execWord_of_not_wellFormed hw s).trans (unlessFaulted_clear _ herr), rfl⟩
  cases faultOutcome_of_exec herr h hfault with
  | ctgen r c info hw ht =>
    subst ht
    simp [KeepsHost, KeepsWindows, KeepsTree, KeepsBits, KeepsBytes, CodeTable.find_nil]
  | putch c info ht =>
    subst ht
    simp [KeepsHost, KeepsWindows, KeepsTree, KeepsTable, KeepsBits, KeepsBytes]
  | inPlace i c info hrow ht =>
    subst ht
    obtain ⟨hhost, hwindows, htree, htable, hbits, hbytes, hnomark, hbpoison, hpadlen⟩ :=
      raise_frame (encode i) c info s
    refine ⟨hhost, hwindows, htree, hbits, hbytes, hpadlen, hnomark, fun hputch => ?_, fun _ => hbpoison,
      fun hctgen => ?_, fun _ => htable⟩
    · cases hrow <;> simp at hputch
    · cases hrow <;> simp at hctgen

/-- Settles O28: the fault is the walk's, and `walk_error_spec` says what a walk from the root reports. -/
theorem ctgenReportsFirstFailingNode : Obligations.CtgenReportsFirstFailingNode := by
  intro s t r herr h hfault
  cases faultOutcome_of_exec herr h hfault with
  | inPlace _ _ _ hrow _ => cases hrow
  | ctgen _ c info hw ht =>
    subst ht
    obtain ⟨p, n, hreach, hlen, rfl, hcause, hbefore, -, honce⟩ := walk_error_spec hw
    have hdepth : Config.maxLen - (Config.maxLen - p.length) = p.length := Nat.sub_sub_self hlen
    refine ⟨p, n, hreach, hlen, ?_, ?_, ?_, ?_, hbefore, honce⟩
    · rw [raise_errinfo, nodeInfo, hdepth]
    all_goals
      rw [raise_err]
      rintro rfl
      simpa [CodeTable.find_nil, Config.maxLen] using hcause

end Sys2Proof.Machine
end

section
/-! The port while a fault stands (60_exceptions.md rules R152, R155, R156): a word at CMD is dropped unless it is
CLRERR's or SRESET's, and no read but that of STATUS depends on ERR. -/

namespace Sys2Proof.Machine

/-! ### Words at CMD -/

/-- While a fault stands every command but CLRERR and SRESET is dropped (R62). -/
theorem exec_of_standing {i : Instr} {s : State} (herr : s.err ≠ .noFault) (hclrerr : i ≠ .clrerr)
    (hsreset : i ≠ .sreset) : exec i s = .next s := by
  rw [exec_eq, if_neg (by simp [herr, hclrerr, hsreset])]

/-- All that a word at CMD can do while a fault stands. -/
theorem execWord_standing_cases {s : State} (herr : s.err ≠ .noFault) (w : Word) :
    execWord w s = .next s ∨ (w = encode .clrerr ∧ execWord w s = .next (clearFault s)) ∨
    (w = encode .sreset ∧ execWord w s = .next (resetBlock s)) := by
  cases hw : wellFormedWord w with
  | false => exact .inl (execWord_illegal_dropped hw herr)
  | true =>
    obtain ⟨i, rfl⟩ := (wellFormedWord_iff_exists_encode w).1 hw
    rw [execWord_of_encode_eq rfl]
    by_cases hclrerr : i = .clrerr
    · subst hclrerr
      exact .inr (.inl ⟨rfl, exec_clrerr s⟩)
    by_cases hsreset : i = .sreset
    · subst hsreset
      exact .inr (.inr ⟨rfl, exec_sreset s⟩)
    exact .inl (exec_of_standing herr hclrerr hsreset)

/-! ### Reads -/

theorem readRegister_err {n : Nat} (h : n ≠ 0x001) (c : Cause) (s : State) :
    readRegister n { s with err := c } = readRegister n s := by
  unfold readRegister
  split
  case h_1 => exact absurd rfl h
  all_goals rfl

/-- STATUS is the one word of the port that shows ERR (R14). -/
theorem portRead_err {wa : WordIndex} (h : wa ≠ 0x001) (c : Cause) (s : State) :
    portRead wa { s with err := c } = portRead wa s := by
  have hn : wa.toNat ≠ 0x001 := fun hn => h (BitVec.eq_of_toNat_eq hn)
  simp only [portRead, readRegister_err hn]

/-- Settles O22: the words by `execWord_standing_cases`, the reads by `portRead_err`, the writes by their own lemmas. -/
theorem standingFaultDropsCommands : Obligations.StandingFaultDropsCommands := by
  have hclrerr : encode .clrerr = 0x01000000 := by decide
  have hsreset : encode .sreset = 0x02000000 := by decide
  intro s herr
  refine ⟨fun w hw1 hw2 => ?_, execWord_of_encode_eq hclrerr s, execWord_of_encode_eq hsreset s,
    fun wa c hwa => (portRead_err hwa c s).symm, fun v => portWrite_bitidx v s, fun v => portWrite_byteidx v s,
    fun i v => portWrite_tree s i v⟩
  obtain h | ⟨hw, -⟩ | ⟨hw, -⟩ := execWord_standing_cases herr w
  · exact h
  · exact absurd (hw.trans hclrerr) hw1
  · exact absurd (hw.trans hsreset) hw2

/-! ### One step -/

/-- A port write keeps a standing fault or clears it. -/
theorem portWrite_keepsFault_or_clears {wa : WordIndex} {v : Word} {s t : State} (herr : s.err ≠ .noFault)
    (h : portWrite wa v s = .next t) : KeepsFault s t ∨ Faulted .noFault 0 0 t := by
  obtain ⟨-, hw⟩ | rfl | rfl | ⟨-, -, rfl⟩ | rfl := portWrite_cases h
  · obtain he | ⟨-, he⟩ | ⟨-, he⟩ := execWord_standing_cases herr v
    all_goals obtain rfl := Host.Outcome.next.inj (he.symm.trans hw)
    · exact .inl ⟨rfl, rfl, rfl⟩
    · exact .inr ⟨rfl, rfl, rfl⟩
    · exact .inr ⟨rfl, rfl, rfl⟩
  all_goals exact .inl ⟨rfl, rfl, rfl⟩

/-- Settles O49: nothing pending and a read leave the fault registers alone, a write by
`portWrite_keepsFault_or_clears`. -/
theorem standingFaultIsNeverOverwritten : Obligations.StandingFaultIsNeverOverwritten := by
  intro s t herr h
  obtain ⟨-, rfl⟩ | ⟨wa, rest, -, rfl⟩ | ⟨wa, v, rest, -, hw⟩ := step_cases h
  · exact .inl ⟨rfl, rfl, rfl⟩
  · exact .inl ⟨rfl, rfl, rfl⟩
  · exact portWrite_keepsFault_or_clears (s := issue rest s) herr hw

end Sys2Proof.Machine
end
